-- ==== Sys2Proof/Word.lean ====
section
/-! DEFINITION. The plain types of the unit: bytes, the 512-bit register as 64 bytes, the register file, the accumulator. -/

namespace Sys2Proof

/-- A byte: an unsigned 8-bit value, bit 0 least significant (R8). -/
abbrev Byte := BitVec 8

/-- A cipher register: 64 bytes, byte 0 first (R9, R32). -/
abbrev Reg512 := Vector Byte 64

/-- The register file R0..R6 (R32). -/
abbrev Regs := Vector Reg512 7

/-- One definedness mark per byte of the register file (R58). -/
abbrev RegMarks := Vector (Vector Bool 64) 7

end Sys2Proof
end

