-- ==== Sys2Proof/Syntax.lean ====
section
/-! DEFINITION. The fifteen commands, one constructor per row of the opcode table (R123). Operands are the fields of the
command word as they stand in it (R111, R121): a register field may be 7 and a round field 24..31, which name nothing
(WellFormed); the unit reports those words by an error of their own (R122, R281; log 13). -/

namespace Sys2Proof

/-- A decoded command word. -/
inductive Instr where
  /-- No operation (R237). -/
  | nop
  /-- `GFMUL a8, b8` (R142). -/
  | gfmul (a8 b8 : Byte)
  /-- `GFMULB rd, rs1, imm8` (R151). -/
  | gfmulb (rd rs1 : BitVec 3) (imm8 : Byte)
  /-- `XOR rd, rs1, rs2` (R153). -/
  | xor (rd rs1 rs2 : BitVec 3)
  /-- `ROTL rd, rs1, imm9` (R155). -/
  | rotl (rd rs1 : BitVec 3) (imm9 : BitVec 9)
  /-- `XINJ rd, bidx, imm8` (R158). -/
  | xinj (rd : BitVec 3) (bidx : BitVec 6) (imm8 : Byte)
  /-- `GETQ rs1` (R160). -/
  | getq (rs1 : BitVec 3)
  /-- `PUTQ rd` (R162). -/
  | putq (rd : BitVec 3)
  /-- `LOADKM` (R235). -/
  | loadkm
  /-- `ROUND rnd` (R188). -/
  | round (rnd : BitVec 5)
  /-- `MIX24` (R189). -/
  | mix24
  /-- `KSGEN` (R211). -/
  | ksgen
  /-- `XORKS` (R212). -/
  | xorks
  /-- `FEEDBACK` (R226). -/
  | feedback
  /-- `BLOCK` (R236). -/
  | block
deriving DecidableEq, Repr

end Sys2Proof
end

