-- ==== Sys2Proof/WellFormed.lean ====
section
/-! DEFINITION. Which commands name what exists: register fields 0..6, round fields 0..23 (R121, R122). -/

namespace Sys2Proof

/-- Fields 0..6 name R0..R6; 7 names nothing (R122). -/
def namesRegister (r : BitVec 3) : Bool := decide (r.toNat < 7)

/-- Fields 0..23 name a round; 24..31 name nothing (R121). -/
def namesRound (r : BitVec 5) : Bool := decide (r.toNat < 24)

/-- Every register and round field of the command names something. -/
def Instr.wf : Instr → Bool
  | .nop => true
  | .gfmul _ _ => true
  | .gfmulb rd rs1 _ => namesRegister rd && namesRegister rs1
  | .xor rd rs1 rs2 => namesRegister rd && namesRegister rs1 && namesRegister rs2
  | .rotl rd rs1 _ => namesRegister rd && namesRegister rs1
  | .xinj rd _ _ => namesRegister rd
  | .getq rs1 => namesRegister rs1
  | .putq rd => namesRegister rd
  | .loadkm => true
  | .round rnd => namesRound rnd
  | .mix24 => true
  | .ksgen => true
  | .xorks => true
  | .feedback => true
  | .block => true

end Sys2Proof
end

