-- ==== Sys2Proof/Decode.lean ====
section
/-! DEFINITION. The decoder, total on command words, and after it the encoder, both written from the formats R112..R120 and
the opcode map R123. -/

namespace Sys2Proof

/-- Why a word selects no row of the opcode table (R124, R125), or why bytes are no command word (R126). -/
inductive DecodeError where
  /-- The opcode is reserved (R124). -/
  | illegalOpcode
  /-- A bit that the opcode's format marks `0` is 1 (R125). -/
  | reservedField
  /-- Fewer than the four bytes of a command word (R126). -/
  | shortWord
deriving DecidableEq, Repr

/-- The nine formats of R112..R120. -/
inductive Format where
  | n | r3 | rsi8 | rsi9 | rbi | ii | rs | rd | rnd
deriving DecidableEq, Repr

/-- The bits a format marks `0` (R112..R120, R125). -/
def Format.reserved : Format → BitVec 32
  | .n => 0x00FFFFFF#32
  | .r3 => 0x00007FFF#32
  | .rsi8 => 0x0003FF00#32
  | .rsi9 => 0x0003FE00#32
  | .rbi => 0x001FC000#32
  | .ii => 0x00FF0000#32
  | .rs => 0x00E3FFFF#32
  | .rd => 0x001FFFFF#32
  | .rnd => 0x00FFFFE0#32

/-! The fields of R111. -/

def opField (w : BitVec 32) : BitVec 8 := w.extractLsb' 24 8
def rdField (w : BitVec 32) : BitVec 3 := w.extractLsb' 21 3
def rs1Field (w : BitVec 32) : BitVec 3 := w.extractLsb' 18 3
def rs2Field (w : BitVec 32) : BitVec 3 := w.extractLsb' 15 3
def bidxField (w : BitVec 32) : BitVec 6 := w.extractLsb' 8 6
def imm8Field (w : BitVec 32) : Byte := w.extractLsb' 0 8
def imm9Field (w : BitVec 32) : BitVec 9 := w.extractLsb' 0 9
def a8Field (w : BitVec 32) : Byte := w.extractLsb' 8 8
def b8Field (w : BitVec 32) : Byte := w.extractLsb' 0 8
def rndField (w : BitVec 32) : BitVec 5 := w.extractLsb' 0 5

/-- The opcode map of R123: the format of each opcode and the command its word stands for; every other opcode is reserved
(R124). -/
def opcodeMap (op : Nat) (w : BitVec 32) : Option (Format × Instr) :=
  match op with
  | 0x01 => some (.n, .nop)
  | 0x10 => some (.ii, .gfmul (a8Field w) (b8Field w))
  | 0x11 => some (.rsi8, .gfmulb (rdField w) (rs1Field w) (imm8Field w))
  | 0x12 => some (.r3, .xor (rdField w) (rs1Field w) (rs2Field w))
  | 0x13 => some (.rsi9, .rotl (rdField w) (rs1Field w) (imm9Field w))
  | 0x14 => some (.rbi, .xinj (rdField w) (bidxField w) (imm8Field w))
  | 0x15 => some (.rs, .getq (rs1Field w))
  | 0x16 => some (.rd, .putq (rdField w))
  | 0x20 => some (.n, .loadkm)
  | 0x21 => some (.rnd, .round (rndField w))
  | 0x22 => some (.n, .mix24)
  | 0x23 => some (.n, .ksgen)
  | 0x24 => some (.n, .xorks)
  | 0x25 => some (.n, .feedback)
  | 0x26 => some (.n, .block)
  | _ => none

/-- Decoding of a command word: the first two checks of R281, then the row's command. -/
def decode (w : BitVec 32) : Except DecodeError Instr :=
  match opcodeMap (opField w).toNat w with
  | none => .error .illegalOpcode
  | some (f, i) => if w &&& f.reserved = 0#32 then .ok i else .error .reservedField

/-- A command word from bytes in bus order, least significant first (R71, R126), with the bytes after it. -/
def decodeBytes : List Byte → Except DecodeError (Instr × List Byte)
  | b0 :: b1 :: b2 :: b3 :: rest =>
    match decode (b3 ++ b2 ++ b1 ++ b0) with
    | .ok i => .ok (i, rest)
    | .error e => .error e
  | _ => .error .shortWord

/-- The instruction the decoder reads from the word whose bits are `w`, numbered as the opcode table numbers them (bit 0
least significant); bits from `nbits` on are 0. -/
def decodeTableWord (nbits w : Nat) : Option Instr :=
  match decode (BitVec.ofNat 32 (w % 2 ^ nbits)) with
  | .ok i => some i
  | .error _ => none

/-- A field's bits at their place in the word (R111). -/
def fieldAt {n : Nat} (x : BitVec n) (lo : Nat) : BitVec 32 := x.setWidth 32 <<< lo

/-- The word of a command: the opcode of R123 and the fields at the places of R111, as R127 writes it. -/
def encode : Instr → BitVec 32
  | .nop => 0x01000000#32
  | .gfmul a8 b8 => 0x10000000#32 ||| fieldAt a8 8 ||| fieldAt b8 0
  | .gfmulb rd rs1 imm8 => 0x11000000#32 ||| fieldAt rd 21 ||| fieldAt rs1 18 ||| fieldAt imm8 0
  | .xor rd rs1 rs2 => 0x12000000#32 ||| fieldAt rd 21 ||| fieldAt rs1 18 ||| fieldAt rs2 15
  | .rotl rd rs1 imm9 => 0x13000000#32 ||| fieldAt rd 21 ||| fieldAt rs1 18 ||| fieldAt imm9 0
  | .xinj rd bidx imm8 => 0x14000000#32 ||| fieldAt rd 21 ||| fieldAt bidx 8 ||| fieldAt imm8 0
  | .getq rs1 => 0x15000000#32 ||| fieldAt rs1 18
  | .putq rd => 0x16000000#32 ||| fieldAt rd 21
  | .loadkm => 0x20000000#32
  | .round rnd => 0x21000000#32 ||| fieldAt rnd 0
  | .mix24 => 0x22000000#32
  | .ksgen => 0x23000000#32
  | .xorks => 0x24000000#32
  | .feedback => 0x25000000#32
  | .block => 0x26000000#32

/-- A row of the match and mask table of R123. -/
structure MatchRow where
  /-- The row's mnemonic. -/
  mnemonic : String
  /-- The fixed bits' values. -/
  pattern : BitVec 32
  /-- The fixed bits. -/
  mask : BitVec 32
deriving DecidableEq, Repr

/-- The match and mask table of R123, row by row. -/
def matchRows : List MatchRow := [
  ⟨"NOP", 0x01000000#32, 0xFFFFFFFF#32⟩,
  ⟨"GFMUL", 0x10000000#32, 0xFFFF0000#32⟩,
  ⟨"GFMULB", 0x11000000#32, 0xFF03FF00#32⟩,
  ⟨"XOR", 0x12000000#32, 0xFF007FFF#32⟩,
  ⟨"ROTL", 0x13000000#32, 0xFF03FE00#32⟩,
  ⟨"XINJ", 0x14000000#32, 0xFF1FC000#32⟩,
  ⟨"GETQ", 0x15000000#32, 0xFFE3FFFF#32⟩,
  ⟨"PUTQ", 0x16000000#32, 0xFF1FFFFF#32⟩,
  ⟨"LOADKM", 0x20000000#32, 0xFFFFFFFF#32⟩,
  ⟨"ROUND", 0x21000000#32, 0xFFFFFFE0#32⟩,
  ⟨"MIX24", 0x22000000#32, 0xFFFFFFFF#32⟩,
  ⟨"KSGEN", 0x23000000#32, 0xFFFFFFFF#32⟩,
  ⟨"XORKS", 0x24000000#32, 0xFFFFFFFF#32⟩,
  ⟨"FEEDBACK", 0x25000000#32, 0xFFFFFFFF#32⟩,
  ⟨"BLOCK", 0x26000000#32, 0xFFFFFFFF#32⟩]

/-- A word selects a row when `w & mask = match` (R123). -/
def MatchRow.selects (r : MatchRow) (w : BitVec 32) : Bool := w &&& r.mask == r.pattern

/-- The row a command belongs to, by its mnemonic in the table (R123). -/
def Instr.mnemonic : Instr → String
  | .nop => "NOP"
  | .gfmul _ _ => "GFMUL"
  | .gfmulb _ _ _ => "GFMULB"
  | .xor _ _ _ => "XOR"
  | .rotl _ _ _ => "ROTL"
  | .xinj _ _ _ => "XINJ"
  | .getq _ => "GETQ"
  | .putq _ => "PUTQ"
  | .loadkm => "LOADKM"
  | .round _ => "ROUND"
  | .mix24 => "MIX24"
  | .ksgen => "KSGEN"
  | .xorks => "XORKS"
  | .feedback => "FEEDBACK"
  | .block => "BLOCK"

/-! The pseudo-instructions of R128, each another spelling of one command. -/

/-- `CLR rd`: `XOR rd, rd, rd`. -/
def pseudoClr (rd : BitVec 3) : Instr := .xor rd rd rd
/-- `MOV rd, rs`: `ROTL rd, rs, 0`. -/
def pseudoMov (rd rs : BitVec 3) : Instr := .rotl rd rs 0#9
/-- `XORB0 rd, v`: `XINJ rd, 0, v`. -/
def pseudoXorb0 (rd : BitVec 3) (v : Byte) : Instr := .xinj rd 0#6 v
/-- `XORB63 rd, v`: `XINJ rd, 63, v`. -/
def pseudoXorb63 (rd : BitVec 3) (v : Byte) : Instr := .xinj rd 63#6 v

end Sys2Proof
end

