-- ==== Sys2Proof/Config.lean ====
section
/-! DEFINITION. What the spec leaves to the implementation (R6): three parameters, each an opaque constant, so that a claim
holds for every admissible value of it. -/

namespace Sys2Proof.Config

/-- One less than the capacity of the selector and key-constant memories (R6, D15; log 5). -/
opaque maxSelPred : Fin 8192

/-- MAX_SEL, the capacity of SEL and KC in entries: 1 <= MAX_SEL <= 8192 (R6, R53). -/
def maxSel : Nat := maxSelPred.val + 1

/-- XOF(m, n), the extendable-output hash behind the hash port: exactly n bytes, a function of (m, n) alone
(R6, R92; log 6). -/
opaque xof : List Byte → (n : Nat) → Vector Byte n

/-- STREAM(seed32, n), the host-side ChaCha20 stream generator: n bytes, a function of its arguments (R6, R250; log 7). -/
opaque stream : Vector Byte 32 → (n : Nat) → Vector Byte n

end Sys2Proof.Config
end

