-- ==== Sys2Proof/Machine/State.lean ====
section
/-! DEFINITION. The state of the unit and of the agents around it, as plain data; the reasons a step can stop; reset. -/

namespace Sys2Proof.Machine

/-- The error codes of R280, by name. -/
inductive ErrorCode where
  /-- 0x00: no error since ERR was cleared. -/
  | noError
  /-- 0x01: a command word with a reserved opcode. -/
  | illegalOpcode
  /-- 0x02: a command word with a 1 in a reserved bit. -/
  | reservedField
  /-- 0x03: a register field is 7. -/
  | badRegister
  /-- 0x04: ROUND with a round field of 24 or more. -/
  | badRound
  /-- 0x05: SEL_COUNT above MAX_SEL. -/
  | badSelCount
  /-- 0x06: strict mode and a table length other than 6144 and 1536. -/
  | invalidInputSize
  /-- 0x10: a host access to an unmapped byte, or across two regions. -/
  | busUnmapped
  /-- 0x11: a host access at an address that is no multiple of its width. -/
  | busMisaligned
  /-- 0x12: a 1- or 2-byte host write touching CMD. -/
  | busWidth
  /-- 0x13: a host write touching a read-only target. -/
  | busReadonly
deriving DecidableEq, Repr

/-- The width of a host access: 1, 2 or 4 bytes (R72). -/
inductive Width where
  | w8 | w16 | w32
deriving DecidableEq, Repr

/-- A host-bus access (R13, R71): `MemRead(addr, n)` or `MemWrite(addr, n, v)`; of `value` the low n bytes are written. -/
inductive Access where
  | read (addr : BitVec 16) (width : Width)
  | write (addr : BitVec 16) (width : Width) (value : BitVec 32)
deriving DecidableEq, Repr

/-- What the agents around the unit do, one item a step (R30, R85, R310; log 8, log 10, log 12). -/
inductive Event where
  /-- The host performs an access. -/
  | access (a : Access)
  /-- Reset is asserted. -/
  | reset
  /-- From here on the hash engine answers its requests, or does not. -/
  | hashEngine (answers : Bool)
deriving DecidableEq, Repr

/-- A request on the hash port: the byte string and the length asked for (R92). -/
structure HashRequest where
  /-- The byte string m. -/
  message : List Byte
  /-- The length n. -/
  length : Nat
deriving DecidableEq, Repr

/-- The state. RAM (KS, DIN, DOUT, KM, SBOX, RK, SEL, KC) is the sparse list `mem`, keyed by window address (R73); the last
four fields are those of the agents around the unit. One State is one unit (R297; log 21). -/
structure State where
  /-- R0..R6 (R32). -/
  regs : Regs
  /-- Which bytes of R0..R6 a host or command write has defined since reset (R58; log 1). -/
  regMarks : RegMarks
  /-- ACC (R34). -/
  acc : Vector Byte 128
  /-- ACCSUM (R35). -/
  accsum : BitVec 64
  /-- Q (R36). -/
  q : BitVec 64
  /-- GFR (R37). -/
  gfr : Byte
  /-- The defined bytes of the RAM regions, by rising window address (R38..R45, R58, R73). -/
  mem : List Host.Cell
  /-- SEL_COUNT (R46). -/
  selCount : BitVec 16
  /-- KC_COUNT (R47). -/
  kcCount : BitVec 16
  /-- SB_LEN (R48). -/
  sbLen : BitVec 16
  /-- RK_LEN (R49). -/
  rkLen : BitVec 16
  /-- BLKIDX (R50). -/
  blkIdx : BitVec 64
  /-- CTRL.STRICT (R54). -/
  strict : Bool
  /-- STATUS.ERR (R55). -/
  err : Bool
  /-- STATUS.RSKIP (R55). -/
  rskip : Bool
  /-- STATUS.ERRCODE (R55, R280). -/
  errCode : ErrorCode
  /-- What the host, the reset source and the hash engine do next, oldest first (R85, R310; log 8). -/
  events : List Event
  /-- The values the bus has returned to the host, newest first (R71, R79; log 9). -/
  answers : List (BitVec 32)
  /-- The requests issued on the hash port, newest first (R92; log 11). -/
  hashRequests : List HashRequest
  /-- Whether the hash engine answers (R85, R286; log 10). -/
  hashAnswers : Bool
deriving DecidableEq, Repr

/-- Why a run stops: the model faults of R286. Both are safe: the model stops where the hardware goes on or hangs. -/
inductive Fault where
  /-- A command or a host read reads a byte of RAM that is unspecified since reset, at this window address (R58, R286 (a)).
  Raised by every reader of RAM through `readByte` and `readBuffer`. Safe. -/
  | uninitRead (address : Nat)
  /-- KSGEN or BLOCK issued a hash request and the hash engine does not answer: the command has no completing step
  (R85, R286 (b)). Raised by `requestHash`. Safe. -/
  | hashHang
deriving DecidableEq, Repr

/-- Why an instruction has no meaning. -/
inductive Refusal where
  /-- The instruction of this mnemonic is not modelled; raised by an arm of `exec` alone. Safe. No arm raises it. -/
  | notModelled (mnemonic : String)
deriving DecidableEq, Repr

/-- The state right after reset (R59, R310): the values the spec gives; R0..R6 zero and undefined (log 1); no byte of RAM
defined (log 2); nothing pending, nothing answered, a hash engine that answers (log 22). -/
def State.reset : State where
  regs := Vector.replicate 7 (Vector.replicate 64 0#8)
  regMarks := Vector.replicate 7 (Vector.replicate 64 false)
  acc := Vector.replicate 128 0#8
  accsum := 0#64
  q := 0#64
  gfr := 0#8
  mem := []
  selCount := 0#16
  kcCount := 0#16
  sbLen := 0#16
  rkLen := 0#16
  blkIdx := 0#64
  strict := false
  err := false
  rskip := false
  errCode := .noError
  events := []
  answers := []
  hashRequests := []
  hashAnswers := true

/-- What an instruction or a step answers. -/
abbrev Result := Host.Outcome State Fault Refusal

end Sys2Proof.Machine
end

