-- ==== Sys2Proof/Machine/Ops.lean ====
section
/-! DEFINITION. The named operations that every family shares: byte arithmetic and byte orders, RAM, registers, the hash port,
recording an error and clearing it. -/

namespace Sys2Proof.Machine

/-! ## Byte arithmetic and byte orders (R11, R12) -/

/-- `shl8`: a plain left shift of a byte that discards the bits above bit 7 (R12). -/
def shl8 (b : Byte) (n : Nat) : Byte := b <<< n

/-- `shr8`: a right shift of a byte; a shift by 8 gives 0 (R12). -/
def shr8 (b : Byte) (n : Nat) : Byte := b >>> n

/-- `add64`: 64-bit wrapping addition (R12). -/
def add64 (a b : BitVec 64) : BitVec 64 := a + b

/-- Byte k of a value, byte 0 least significant: `(v >> 8k) & 0xFF` (R11, R71). -/
def byteOf {w : Nat} (v : BitVec w) (k : Nat) : Byte := v.extractLsb' (8 * k) 8

/-- `fromLE`: the number whose little-endian bytes these are (R11). -/
def fromLE : List Byte → Nat
  | [] => 0
  | b :: bs => b.toNat + 256 * fromLE bs

/-- `LE_n`: the n little-endian bytes of a value (R11). -/
def bytesLE {w : Nat} (n : Nat) (v : BitVec w) : List Byte := (List.range n).map fun k => byteOf v k

/-- `BE_n`: the n big-endian bytes of a value (R11). -/
def bytesBE {w : Nat} (n : Nat) (v : BitVec w) : List Byte := (List.range n).map fun k => byteOf v (n - 1 - k)

/-- A value with its byte k replaced (R81: a host write changes only the addressed bytes). -/
def setByteOf {w : Nat} (v : BitVec w) (k : Nat) (b : Byte) : BitVec w :=
  (v &&& ~~~((0xFF#w) <<< (8 * k))) ||| (b.setWidth w <<< (8 * k))

/-! ## RAM: a list of address and byte pairs in canonical form -/

/-- The RAM of the unit: its defined bytes (R58). -/
abbrev Memory := List Host.Cell

/-- The canonical form: addresses strictly rising. An unlisted address has no value, so no entry can equal it (log 2). -/
abbrev Memory.wf (m : Memory) : Prop := m.Pairwise fun x y => x.1 < y.1

/-- The byte at an address, if it is defined. An unlisted address has no value (R58). -/
def Memory.get? : Memory → Nat → Option Byte
  | [], _ => none
  | (k, b) :: m, a => if k = a then some b else Memory.get? m a

/-- Writing one byte keeps the list sorted and defines the byte (R58). -/
def Memory.set : Memory → Nat → Byte → Memory
  | [], a, b => [(a, b)]
  | (k, c) :: m, a, b =>
    if a < k then (a, b) :: (k, c) :: m else if a = k then (a, b) :: m else (k, c) :: Memory.set m a b

/-- Writing consecutive bytes from an address up. -/
def Memory.setList : Memory → Nat → List Byte → Memory
  | m, _, [] => m
  | m, a, b :: bs => Memory.setList (m.set a b) (a + 1) bs

/-! The bases and layouts of the RAM regions (R73..R77, R42, R43). -/

abbrev dinBase : Nat := 0x0040
abbrev doutBase : Nat := 0x0060
abbrev ksBase : Nat := 0x0080
abbrev regBase : Nat := 0x0100
abbrev accBase : Nat := 0x0300
abbrev kmBase : Nat := 0x0400
abbrev rkBase : Nat := 0x0800
abbrev sboxBase : Nat := 0x1000
abbrev selBase : Nat := 0x4000
abbrev kcBase : Nat := 0x8000

/-- The address of RK[r][j] (R43). -/
def rkAddr (r j : Nat) : Nat := rkBase + 64 * r + j

/-- The address of SBOX[r][k] (R42). -/
def sboxAddr (r k : Nat) : Nat := sboxBase + 256 * r + k

/-- The address of the low byte of SEL[p] (R44, R77). -/
def selAddr (p : Nat) : Nat := selBase + 2 * p

/-- The address of KC[p] (R45, R77). -/
def kcAddr (p : Nat) : Nat := kcBase + p

/-- The read of one byte of RAM: a model fault where it is undefined (R58). -/
def State.readByte (s : State) (a : Nat) : Except Fault Byte :=
  match Memory.get? s.mem a with
  | some b => .ok b
  | none => .error (.uninitRead a)

/-- The lowest undefined address among the n from `a` up. -/
def firstUndefined (m : Memory) (a : Nat) : Nat → Option Nat
  | 0 => none
  | n + 1 => match Memory.get? m a with
    | none => some a
    | some _ => firstUndefined m (a + 1) n

/-- The read of n consecutive bytes of RAM: a model fault at the lowest undefined one (R58; log 14). The default below is
never taken: every byte is defined by then. -/
def State.readBuffer (s : State) (a n : Nat) : Except Fault (Vector Byte n) :=
  match firstUndefined s.mem a n with
  | some u => .error (.uninitRead u)
  | none => .ok (Vector.ofFn fun i => (Memory.get? s.mem (a + i.val)).getD 0#8)

/-- Writing consecutive bytes of RAM. -/
def State.writeBuffer {n : Nat} (s : State) (a : Nat) (v : Vector Byte n) : State :=
  { s with mem := Memory.setList s.mem a v.toList }

/-! ## Registers (R9, R32, R58) -/

/-- `R[i]` (R9). -/
def State.reg (s : State) (i : Fin 7) : Reg512 := s.regs[i]

/-- `R[i] <- v`: the whole register is written and defined (R9, R58). -/
def State.setReg (s : State) (i : Fin 7) (v : Reg512) : State :=
  { s with
    regs := s.regs.set i v
    regMarks := s.regMarks.set i (Vector.replicate 64 true) }

/-- `R[i][j] <- b`: one byte is written and defined (R9, R58). -/
def State.setRegByte (s : State) (i : Fin 7) (j : Fin 64) (b : Byte) : State :=
  { s with
    regs := s.regs.set i (s.regs[i].set j b)
    regMarks := s.regMarks.set i (s.regMarks[i].set j true) }

/-- All seven registers are written and defined (R9, R58). -/
def State.setRegs (s : State) (rs : Regs) : State :=
  { s with
    regs := rs
    regMarks := Vector.replicate 7 (Vector.replicate 64 true) }

/-! ## The hash port (R92) -/

/-- One request on the hash port and its answer, exactly n bytes; a hang if the engine does not answer (R85, R92, R286). -/
def State.requestHash (s : State) (m : List Byte) (n : Nat) : Except Fault (Vector Byte n × State) :=
  if s.hashAnswers then
    .ok (Config.xof m n, { s with hashRequests := ⟨m, n⟩ :: s.hashRequests })
  else .error .hashHang

/-! ## Recording an error, and clearing it -/

/-- Recording an error (R283): the first code since the last clear is kept, ERR is set, nothing else is written. This is the
unit's whole exception entry (R288). -/
def State.raiseError (s : State) (c : ErrorCode) : State :=
  { s with
    errCode := if s.err then s.errCode else c
    err := true }

/-- The host's write-1-to-clear of STATUS (R55, R288): bit 0 clears ERR and ERRCODE, bit 1 clears RSKIP. This is the unit's
whole return from an exception (R288). -/
def State.clearStatus (s : State) (b : Byte) : State :=
  { s with
    err := if b.getLsbD 0 then false else s.err
    errCode := if b.getLsbD 0 then .noError else s.errCode
    rskip := if b.getLsbD 1 then false else s.rskip }

/-- A command's or an access's answer: its next state, or the model fault it met. -/
def answer : Except Fault State → Result
  | .ok s => .next s
  | .error f => .fault f

end Sys2Proof.Machine
end

