-- ==== Sys2Proof/Machine/Flags.lean ====
section
/-! DEFINITION. The flags: STATUS is the only flag register (R55, R60). Its ERR and ERRCODE are set by `State.raiseError` and
cleared by `State.clearStatus` (Ops); here are RSKIP, the codes' numbers and the whole word. -/

namespace Sys2Proof.Machine

/-- The number of an error code (R280). -/
def ErrorCode.code : ErrorCode → Byte
  | .noError => 0x00#8
  | .illegalOpcode => 0x01#8
  | .reservedField => 0x02#8
  | .badRegister => 0x03#8
  | .badRound => 0x04#8
  | .badSelCount => 0x05#8
  | .invalidInputSize => 0x06#8
  | .busUnmapped => 0x10#8
  | .busMisaligned => 0x11#8
  | .busWidth => 0x12#8
  | .busReadonly => 0x13#8

/-- A skipped round sets RSKIP and changes nothing else (R187). -/
def State.markSkipped (s : State) : State := { s with rskip := true }

/-- STATUS as a word: ERRCODE in bits 15:8, RSKIP in bit 1, ERR in bit 0, the rest 0 (R51, R55). -/
def State.statusWord (s : State) : BitVec 32 :=
  0#16 ++ s.errCode.code ++ 0#6 ++ BitVec.ofBool s.rskip ++ BitVec.ofBool s.err

end Sys2Proof.Machine
end

