-- ==== Sys2Proof/Machine/Operands.lean ====
section
/-! DEFINITION. The operand forms: register fields (R122), round fields (R121), and the check that ROUND, MIX24 and BLOCK share
(R281). Every other operand is an immediate taken as it stands (R121). -/

namespace Sys2Proof.Machine

/-- The register a 3-bit field names: 0..6 are R0..R6, 7 is none (R122). -/
def regIndex? (r : BitVec 3) : Option (Fin 7) :=
  if h : r.toNat < 7 then some ⟨r.toNat, h⟩ else none

/-- The round a 5-bit field names: 0..23; 24..31 are none (R121). -/
def roundIndex? (r : BitVec 5) : Option (Fin 24) :=
  if h : r.toNat < 24 then some ⟨r.toNat, h⟩ else none

/-- A command that goes on with the register a field names, or raises BAD_REGISTER (R122, R281 check 3). -/
def withReg (r : BitVec 3) (s : State) (k : Fin 7 → Result) : Result :=
  match regIndex? r with
  | some i => k i
  | none => .next (s.raiseError .badRegister)

/-- A command that goes on with the round a field names, or raises BAD_ROUND (R281 check 4). -/
def withRound (r : BitVec 5) (s : State) (k : Fin 24 → Result) : Result :=
  match roundIndex? r with
  | some i => k i
  | none => .next (s.raiseError .badRound)

/-- Strict mode rejects table lengths other than 6144 and 1536 (R54, R281 check 6). -/
def State.badInputSize (s : State) : Bool :=
  s.strict && (s.sbLen.toNat != 6144 || s.rkLen.toNat != 1536)

/-- Checks 5 and 6 of R281, in order, for ROUND, MIX24 and BLOCK. -/
def State.tableCheck (s : State) : Option ErrorCode :=
  if s.selCount.toNat > Config.maxSel then some .badSelCount
  else if s.badInputSize then some .invalidInputSize
  else none

/-- A command that goes on if checks 5 and 6 pass, and raises the first that fails otherwise (R281, R284). -/
def withTables (s : State) (k : Result) : Result :=
  match s.tableCheck with
  | some c => .next (s.raiseError c)
  | none => k

end Sys2Proof.Machine
end

