-- ==== Sys2Proof/Machine/Bus.lean ====
section
/-! DEFINITION. The host bus: the address map, the checks of an access, reads and writes of the window (20_memory.md), and the
control registers (10_state.md, section 7). The write to CMD is in Command.lean. -/

namespace Sys2Proof.Machine

/-- The bytes of an access: 1, 2 or 4 (R72). -/
def Width.bytes : Width → Nat
  | .w8 => 1
  | .w16 => 2
  | .w32 => 4

/-! ## The address map (R73) -/

/-- The regions of the window (R73). -/
inductive Region where
  | control | din | dout | ks | reg | acc | km | rk | sbox | sel | kc
deriving DecidableEq, Repr

/-- A row of the address map. -/
structure RegionRow where
  /-- Which region. -/
  region : Region
  /-- Its first address. -/
  base : Nat
  /-- Its size in bytes. -/
  size : Nat
deriving DecidableEq, Repr

/-- The address map of R73; every address outside it is unmapped. -/
def addressMap : List RegionRow := [
  ⟨.control, 0x0000, 64⟩,
  ⟨.din, dinBase, 32⟩,
  ⟨.dout, doutBase, 32⟩,
  ⟨.ks, ksBase, 32⟩,
  ⟨.reg, regBase, 448⟩,
  ⟨.acc, accBase, 128⟩,
  ⟨.km, kmBase, 448⟩,
  ⟨.rk, rkBase, 1536⟩,
  ⟨.sbox, sboxBase, 6144⟩,
  ⟨.sel, selBase, 2 * Config.maxSel⟩,
  ⟨.kc, kcBase, Config.maxSel⟩]

/-- The address lies in the row's range. -/
def RegionRow.holds (r : RegionRow) (a : Nat) : Bool := decide (r.base ≤ a) && decide (a - r.base < r.size)

/-- The region an address lies in, if it is mapped (R73). -/
def regionOf (a : Nat) : Option Region := (addressMap.find? fun r => r.holds a).map RegionRow.region

/-- The access is mapped: every byte it touches lies in one and the same region (R78). -/
def mapped (a n : Nat) : Bool := addressMap.any fun r => (List.range n).all fun k => r.holds (a + k)

/-- The bytes of the read-only control registers: ID, ACCSUM_LO, ACCSUM_HI, GFR, MAXSEL (R51, R80; log 18). -/
def readOnlyControl (a : Nat) : Bool :=
  a / 4 == 0x0C / 4 || a / 4 == 0x30 / 4 || a / 4 == 0x34 / 4 || a / 4 == 0x38 / 4 || a / 4 == 0x3C / 4

/-- The read-only bytes of the window: DOUT, KS, ACC and the read-only control registers (R80). -/
def readOnly (a : Nat) : Bool :=
  match regionOf a with
  | some .control => readOnlyControl a
  | some .dout => true
  | some .ks => true
  | some .acc => true
  | _ => false

/-- The RAM regions, whose bytes are unspecified after reset (R58), but for R, which is held in registers. -/
def ramByte (a : Nat) : Bool :=
  match regionOf a with
  | some .din => true
  | some .dout => true
  | some .ks => true
  | some .km => true
  | some .rk => true
  | some .sbox => true
  | some .sel => true
  | some .kc => true
  | _ => false

/-! ## The checks of an access (R282) -/

/-- The access touches a byte of CMD, 0x0000..0x0003 (R51, R56). -/
def touchesCmd (a n : Nat) : Bool := (List.range n).any fun k => decide (a + k < 4)

/-- The access touches a read-only byte (R80). -/
def touchesReadOnly (a n : Nat) : Bool := (List.range n).any fun k => readOnly (a + k)

/-- The first failing check of R282: alignment, mapping, then for a write the width of a CMD write and read-only targets. -/
def busCheck : Access → Option ErrorCode
  | .read addr width =>
    if addr.toNat % width.bytes ≠ 0 then some .busMisaligned
    else if !mapped addr.toNat width.bytes then some .busUnmapped
    else none
  | .write addr width _ =>
    if addr.toNat % width.bytes ≠ 0 then some .busMisaligned
    else if !mapped addr.toNat width.bytes then some .busUnmapped
    else if touchesCmd addr.toNat width.bytes && width.bytes < 4 then some .busWidth
    else if touchesReadOnly addr.toNat width.bytes then some .busReadonly
    else none

/-! ## Reading (R71, R82, R94) -/

/-- The ID register: "RUC" and version 1 (R52). -/
def idWord : BitVec 32 := 0x52554301#32

/-- The control register at word `k` of the control block, as it reads (R51): CMD and every reserved bit read 0. -/
def State.controlWord (s : State) (k : Nat) : BitVec 32 :=
  match k with
  | 1 => s.statusWord
  | 2 => (BitVec.ofBool s.strict).setWidth 32
  | 3 => idWord
  | 4 => s.selCount.setWidth 32
  | 5 => s.kcCount.setWidth 32
  | 6 => s.sbLen.setWidth 32
  | 7 => s.rkLen.setWidth 32
  | 8 => s.blkIdx.extractLsb' 0 32
  | 9 => s.blkIdx.extractLsb' 32 32
  | 10 => s.q.extractLsb' 0 32
  | 11 => s.q.extractLsb' 32 32
  | 12 => s.accsum.extractLsb' 0 32
  | 13 => s.accsum.extractLsb' 32 32
  | 14 => s.gfr.setWidth 32
  | 15 => BitVec.ofNat 32 Config.maxSel
  | _ => 0#32

/-- The register byte an address of the R region holds: register and byte (R74). -/
def regPos (a : Nat) : Fin 7 × Fin 64 := (Fin.ofNat 7 ((a - regBase) / 64), Fin.ofNat 64 ((a - regBase) % 64))

/-- The byte the host reads at an address: a control register's, a register's, ACC's, or a byte of RAM, which is a model
fault where it is undefined (R58). An unmapped byte reads 0 (R79). -/
def State.busByte (s : State) (a : Nat) : Except Fault Byte :=
  match regionOf a with
  | some .control => .ok (byteOf (s.controlWord (a / 4)) (a % 4))
  | some .reg => .ok (s.reg (regPos a).1)[(regPos a).2]
  | some .acc => .ok s.acc[Fin.ofNat 128 (a - accBase)]
  | some .din => s.readByte a
  | some .dout => s.readByte a
  | some .ks => s.readByte a
  | some .km => s.readByte a
  | some .rk => s.readByte a
  | some .sbox => s.readByte a
  | some .sel => s.readByte a
  | some .kc => s.readByte a
  | none => .ok 0#8

/-- The n bytes the host reads from an address up. -/
def State.busBytes (s : State) (a : Nat) : Nat → Except Fault (List Byte)
  | 0 => return []
  | n + 1 => do
    let b ← s.busByte a
    let bs ← s.busBytes (a + 1) n
    return b :: bs

/-- `MemRead(a, n)`: the bytes, little-endian (R71). -/
def State.busRead (s : State) (a n : Nat) : Except Fault (BitVec 32) := do
  let bs ← s.busBytes a n
  return BitVec.ofNat 32 (fromLE bs)

/-! ## Writing (R71, R81) -/

/-- A host write of one byte of a control register: writable fields take it, everything else ignores it (R51, R81; log 19). -/
def State.writeControl (s : State) (a : Nat) (b : Byte) : State :=
  match a / 4 with
  | 1 => if a % 4 = 0 then s.clearStatus b else s
  | 2 => if a % 4 = 0 then { s with strict := b.getLsbD 0 } else s
  | 4 => { s with selCount := setByteOf s.selCount (a % 4) b }
  | 5 => { s with kcCount := setByteOf s.kcCount (a % 4) b }
  | 6 => { s with sbLen := setByteOf s.sbLen (a % 4) b }
  | 7 => { s with rkLen := setByteOf s.rkLen (a % 4) b }
  | 8 => { s with blkIdx := setByteOf s.blkIdx (a % 4) b }
  | 9 => { s with blkIdx := setByteOf s.blkIdx (a % 4 + 4) b }
  | 10 => { s with q := setByteOf s.q (a % 4) b }
  | 11 => { s with q := setByteOf s.q (a % 4 + 4) b }
  | _ => s

/-- A host write of one byte of the window (R73, R81): into a control register, a register byte or a byte of RAM. Bytes that
the checks of R282 keep a write from are left as they are. -/
def State.busWriteByte (s : State) (a : Nat) (b : Byte) : State :=
  match regionOf a with
  | some .control => s.writeControl a b
  | some .reg => s.setRegByte (regPos a).1 (regPos a).2 b
  | some .din => { s with mem := Memory.set s.mem a b }
  | some .km => { s with mem := Memory.set s.mem a b }
  | some .rk => { s with mem := Memory.set s.mem a b }
  | some .sbox => { s with mem := Memory.set s.mem a b }
  | some .sel => { s with mem := Memory.set s.mem a b }
  | some .kc => { s with mem := Memory.set s.mem a b }
  | some .dout => s
  | some .ks => s
  | some .acc => s
  | none => s

/-- A host write of bytes from an address up. -/
def State.busWriteBytes (s : State) (a : Nat) : List Byte → State
  | [] => s
  | b :: bs => (s.busWriteByte a b).busWriteBytes (a + 1) bs

/-- `MemWrite(a, n, v)`: byte k of v goes to a + k (R71). -/
def State.busWrite (s : State) (a n : Nat) (v : BitVec 32) : State := s.busWriteBytes a (bytesLE n v)

/-- The value an access returns to the host (log 9). -/
def State.pushAnswer (s : State) (v : BitVec 32) : State := { s with answers := v :: s.answers }

end Sys2Proof.Machine
end

