-- ==== Sys2Proof/Machine/Feedback.lean ====
section
/-! DEFINITION. Ciphertext feedback: FEEDBACK (44_feedback.md). -/

namespace Sys2Proof.Machine

/-- The byte XORed into R[i][j], with the shift path as the source states it (R225). -/
def feedbackByte (ct : Vector Byte 32) (i : Fin 7) (j : Fin 64) : Byte :=
  let v := ct[j.val % 32]'(Nat.mod_lt _ (by decide))
  let sh := (i.val * 37) % 256
  if sh < 8 then shl8 v sh else v

/-- `feedback(ct)` on the registers (R225). -/
def feedbackRegs (ct : Vector Byte 32) (rs : Regs) : Regs :=
  Vector.ofFn fun i => Vector.ofFn fun j => (rs[i])[j] ^^^ feedbackByte ct i j

/-- The body of FEEDBACK: `feedback(DOUT)` (R226). -/
def feedbackBody (s : State) : Except Fault State := do
  let ct ← s.readBuffer doutBase 32
  return s.setRegs (feedbackRegs ct s.regs)

/-- FEEDBACK (R226). -/
def execFeedback (s : State) : Result := answer (feedbackBody s)

end Sys2Proof.Machine
end

