-- ==== Sys2Proof/Machine/Keystream.lean ====
section
/-! DEFINITION. Keystream extraction and the keystream XOR: KSGEN and XORKS (43_keystream.md). -/

namespace Sys2Proof.Machine

/-- The 16 bytes of "RUC-KEYSTREAM-V1" (R7; log 17). -/
def keystreamLiteral : List Byte :=
  [0x52#8, 0x55#8, 0x43#8, 0x2D#8, 0x4B#8, 0x45#8, 0x59#8, 0x53#8, 0x54#8, 0x52#8, 0x45#8, 0x41#8, 0x4D#8, 0x2D#8,
   0x56#8, 0x31#8]

/-- `ks_message()`: the registers in order, ACC, BE_8(BLKIDX), the literal (R210). -/
def State.ksMessage (s : State) : List Byte :=
  (s.regs.toList.map Vector.toList).flatten ++ s.acc.toList ++ bytesBE 8 s.blkIdx ++ keystreamLiteral

/-- The body of KSGEN: one request on the hash port, its answer into KS (R211). -/
def ksgenBody (s : State) : Except Fault State := do
  let (ks, s') ← s.requestHash s.ksMessage 32
  return s'.writeBuffer ksBase ks

/-- The body of XORKS: DOUT[j] <- DIN[j] ^ KS[j] (R212). -/
def xorksBody (s : State) : Except Fault State := do
  let din ← s.readBuffer dinBase 32
  let ks ← s.readBuffer ksBase 32
  return s.writeBuffer doutBase (Vector.ofFn fun j : Fin 32 => din[j] ^^^ ks[j])

/-- KSGEN (R211). -/
def execKsgen (s : State) : Result := answer (ksgenBody s)

/-- XORKS (R212). -/
def execXorks (s : State) : Result := answer (xorksBody s)

end Sys2Proof.Machine
end

