-- ==== Sys2Proof/Machine/Gf.lean ====
section
/-! DEFINITION. The GF(2^8) multiply unit: gf_mul and GFMUL (40_gf_mul.md). -/

namespace Sys2Proof.Machine

/-- One doubling in the field: shift left by one, and reduce by 0x1B if bit 7 left the byte (R140). -/
def gfDouble (a : Byte) : Byte :=
  if a.getLsbD 7 then shl8 a 1 ^^^ 0x1B#8 else shl8 a 1

/-- `n` iterations of the loop of R140 on the product so far, the shifted a and the remaining b. -/
def gfMulLoop : Nat → Byte → Byte → Byte → Byte
  | 0, p, _, _ => p
  | n + 1, p, a, b => gfMulLoop n (if b.getLsbD 0 then p ^^^ a else p) (gfDouble a) (shr8 b 1)

/-- `gf_mul(a, b)`: exactly eight iterations (R140). -/
def gfMul (a b : Byte) : Byte := gfMulLoop 8 0#8 a b

/-- GFMUL: GFR <- gf_mul(a8, b8) (R142). -/
def execGfmul (a8 b8 : Byte) (s : State) : Result := .next { s with gfr := gfMul a8 b8 }

end Sys2Proof.Machine
end

