-- ==== Sys2Proof/Machine/Alu.lean ====
section
/-! DEFINITION. The 512-bit register ALU: GFMULB, XOR, ROTL, XINJ, GETQ, PUTQ (41_register_alu.md). Each primitive is a function
on register values; each command reads all its sources before it writes (R9). -/

namespace Sys2Proof.Machine

/-- `gf_mul_register(reg, s)`: every byte times the same scalar (R150). -/
def gfMulRegister (v : Reg512) (c : Byte) : Reg512 := Vector.ofFn fun j => gfMul v[j] c

/-- `xor_512(a, b)`: byte-wise exclusive or (R152). -/
def xor512 (a b : Reg512) : Reg512 := Vector.ofFn fun j => a[j] ^^^ b[j]

/-- `rotate_left_512(reg, n)` by the per-byte formula of R154. -/
def rotateLeft512 (v : Reg512) (n : Nat) : Reg512 :=
  Vector.ofFn fun i =>
    let bs := n / 8
    let bt := n % 8
    let hi := shl8 (v[(i.val + bs) % 64]'(Nat.mod_lt _ (by decide))) bt
    let lo := if bt = 0 then 0#8 else shr8 (v[(i.val + bs + 1) % 64]'(Nat.mod_lt _ (by decide))) (8 - bt)
    hi ||| lo

/-- The zero register with byte j set to v (R157). -/
def oneByte (j : Fin 64) (v : Byte) : Reg512 := (Vector.replicate 64 0#8).set j v

/-- `inject(reg, j, v)`: XOR with the register that is v at byte j and zero elsewhere (R157). -/
def inject (r : Reg512) (j : Fin 64) (v : Byte) : Reg512 := xor512 r (oneByte j v)

/-- `bytes_to_u64(reg)`: the first eight bytes, little-endian (R159). -/
def bytesToU64 (v : Reg512) : BitVec 64 := BitVec.ofNat 64 (fromLE (v.toList.take 8))

/-- `u64_to_bytes(reg, q)`: bytes 0..7 become LE_8(q), bytes 8..63 stay (R161). -/
def u64ToBytes (v : Reg512) (q : BitVec 64) : Reg512 :=
  Vector.ofFn fun j => if j.val < 8 then byteOf q j.val else v[j]

/-- GFMULB (R151). -/
def execGfmulb (rd rs1 : BitVec 3) (imm8 : Byte) (s : State) : Result :=
  withReg rd s fun d => withReg rs1 s fun a =>
    .next (s.setReg d (gfMulRegister (s.reg a) imm8))

/-- XOR (R153). -/
def execXor (rd rs1 rs2 : BitVec 3) (s : State) : Result :=
  withReg rd s fun d => withReg rs1 s fun a => withReg rs2 s fun b =>
    .next (s.setReg d (xor512 (s.reg a) (s.reg b)))

/-- ROTL (R155). -/
def execRotl (rd rs1 : BitVec 3) (imm9 : BitVec 9) (s : State) : Result :=
  withReg rd s fun d => withReg rs1 s fun a =>
    .next (s.setReg d (rotateLeft512 (s.reg a) imm9.toNat))

/-- XINJ: one byte of the register is read, combined and written; the other 63 are untouched (R158; log 20). -/
def execXinj (rd : BitVec 3) (bidx : BitVec 6) (imm8 : Byte) (s : State) : Result :=
  withReg rd s fun d =>
    .next (s.setRegByte d bidx.toFin ((s.reg d)[bidx.toFin] ^^^ imm8))

/-- GETQ (R160). -/
def execGetq (rs1 : BitVec 3) (s : State) : Result :=
  withReg rs1 s fun a => .next { s with q := bytesToU64 (s.reg a) }

/-- PUTQ (R162). -/
def execPutq (rd : BitVec 3) (s : State) : Result :=
  withReg rd s fun d => .next (s.setReg d (u64ToBytes (s.reg d) s.q))

end Sys2Proof.Machine
end

