-- ==== Sys2Proof/Machine/Mixer.lean ====
section
/-! DEFINITION. The round function, the 24-round mixer and their commands ROUND and MIX24 (42_round_mixer.md). -/

namespace Sys2Proof.Machine

/-- What a round works on: the registers and the diagnostic sum (R186). -/
structure Cipher where
  /-- R0..R6. -/
  regs : Regs
  /-- ACCSUM. -/
  accsum : BitVec 64
deriving DecidableEq, Repr

/-! ## Reading the round's inputs (R180) -/

/-- SEL[p], stored as LE_2 (R44; log 4). -/
def State.readSel (s : State) (p : Nat) : Except Fault (BitVec 16) := do
  let lo ← s.readByte (selAddr p)
  let hi ← s.readByte (selAddr p + 1)
  return hi ++ lo

/-- RK[r][0..7] as LE_8 (R181). -/
def State.readRoundKey (s : State) (r : Nat) : Except Fault (BitVec 64) := do
  let v ← s.readBuffer (rkAddr r 0) 8
  return BitVec.ofNat 64 (fromLE v.toList)

/-- SBOX[r][k] (R42, R182). -/
def State.readSbox (s : State) (r : Nat) (k : Byte) : Except Fault Byte := s.readByte (sboxAddr r k.toNat)

/-- The key constant of position p: present if and only if p < KC_COUNT (R47, R180). -/
def State.readKc (s : State) (p : Nat) : Except Fault (Option Byte) :=
  if p < s.kcCount.toNat then do
    let b ← s.readByte (kcAddr p)
    return some b
  else return none

/-! ## One selector step (R181..R184) -/

/-- Step 1: the low 32 bits of R0 ^ sel ^ rk, mod 7 (R181). -/
def placeOf (r0 : BitVec 64) (sel : BitVec 16) (rkq : BitVec 64) : Fin 7 :=
  ⟨((r0 ^^^ sel.setWidth 64 ^^^ rkq) &&& 0xFFFFFFFF#64).toNat % 7, Nat.mod_lt _ (by decide)⟩

/-- Steps 2 and 3: the S-box index g (R182). -/
def sboxIndex (sel : BitVec 16) (stateByte : Byte) (kc : Option Byte) : Byte :=
  let temp := (sel.setWidth 32 * 2#32) &&& 0xFFFF#32
  let g := gfMul (byteOf temp 0) stateByte
  match kc with
  | some k => g ^^^ k
  | none => g

/-- Steps 5 and 6 on R[place]: scale by the result, and XOR the shifted result into byte 0 if sel mod 16 < 8 (R183). -/
def scaleAndInject (v : Reg512) (sel : BitVec 16) (result : Byte) : Reg512 :=
  let scaled := gfMulRegister v result
  let sh := sel.toNat % 16
  if sh < 8 then inject scaled 0 (shl8 result sh) else scaled

/-- Steps 7 to 9 on R[place], from the value after step 6, sbox[low] and the current next register (R183). -/
def finishPlace (v : Reg512) (sboxLow : Byte) (next : Reg512) : Reg512 :=
  xor512 (rotateLeft512 (inject v 63 sboxLow) 1) next

/-- One selector step at position p of round r: steps 1 to 10 in order (R181..R184; log 3). -/
def selectorStep (s : State) (r p : Nat) (c : Cipher) : Except Fault Cipher := do
  let sel ← s.readSel p
  let rkq ← s.readRoundKey r
  let place := placeOf (bytesToU64 c.regs[0]) sel rkq
  let kc ← s.readKc p
  let result ← s.readSbox r (sboxIndex sel (c.regs[place])[0] kc)
  let v := scaleAndInject c.regs[place] sel result
  let sboxLow ← s.readSbox r v[63]
  return {
    regs := c.regs.set place (finishPlace v sboxLow c.regs[place + 1])
    accsum := add64 c.accsum (result.setWidth 64) }

/-- The selector steps from position p on, `n` of them, in list order (R186, R316 (a)). -/
def selectorsFrom (s : State) (r : Nat) : Nat → Nat → Cipher → Except Fault Cipher
  | _, 0, c => return c
  | p, n + 1, c => do
    let c' ← selectorStep s r p c
    selectorsFrom s r (p + 1) n c'

/-! ## Diffusion, the round, the skip (R185..R187) -/

/-- Diffusion at index i: two XORs into R[i], the second after the first (R185). -/
def diffuseAt (rs : Regs) (i : Fin 7) : Regs :=
  let rs1 := rs.set i (xor512 rs[i] rs[i + 1])
  rs1.set i (xor512 rs1[i] rs1[i + 2])

/-- Diffusion: indices 0..6 in increasing order, mutating in place (R185, R316 (b)). -/
def diffuse (rs : Regs) : Regs := (List.finRange 7).foldl diffuseAt rs

/-- Round r is valid: its S-box slice and its round-key slice lie inside the supplied buffers (R49). -/
def State.roundValid (s : State) (r : Nat) : Bool :=
  decide (256 * (r + 1) ≤ s.sbLen.toNat) && decide (64 * (r + 1) ≤ s.rkLen.toNat)

/-- `round(r)`: the selector steps, then diffusion (R186). -/
def roundBody (s : State) (r : Nat) : Except Fault State := do
  let c ← selectorsFrom s r 0 s.selCount.toNat ⟨s.regs, s.accsum⟩
  return { s.setRegs (diffuse c.regs) with accsum := c.accsum }

/-- A valid round runs; one that is not valid is skipped and sets RSKIP (R187). -/
def roundOrSkip (s : State) (r : Nat) : Except Fault State :=
  if s.roundValid r then roundBody s r else return s.markSkipped

/-- The rounds from r on, `n` of them, in increasing order (R189). -/
def roundsFrom : Nat → Nat → State → Except Fault State
  | _, 0, s => return s
  | r, n + 1, s => do
    let s' ← roundOrSkip s r
    roundsFrom (r + 1) n s'

/-- The body of MIX24: rounds 0..23 (R189). -/
def mixBody (s : State) : Except Fault State := roundsFrom 0 24 s

/-- ROUND (R188). -/
def execRound (rnd : BitVec 5) (s : State) : Result :=
  withRound rnd s fun r => withTables s (answer (roundOrSkip s r.val))

/-- MIX24 (R189). -/
def execMix24 (s : State) : Result := withTables s (answer (mixBody s))

end Sys2Proof.Machine
end

