-- ==== Sys2Proof/Machine/Sequencer.lean ====
section
/-! DEFINITION. The block sequencer and NOP: LOADKM, BLOCK, NOP (45_block_sequencer.md). -/

namespace Sys2Proof.Machine

/-- The registers of a fresh block: R[i][j] = KM[64i + j] (R33). -/
def regsOfKm (km : Vector Byte 448) : Regs :=
  Vector.ofFn fun i => Vector.ofFn fun j => km[64 * i.val + j.val]'(by omega)

/-- The body of LOADKM (R235). -/
def loadkmBody (s : State) : Except Fault State := do
  let km ← s.readBuffer kmBase 448
  return { s.setRegs (regsOfKm km) with
    acc := Vector.replicate 128 0#8
    accsum := 0#64 }

/-- The body of BLOCK: source steps 1 and 4 to 7 (R236). -/
def blockBody (s : State) : Except Fault State := do
  let s1 ← loadkmBody s
  let s2 ← mixBody s1
  let s3 ← ksgenBody s2
  let s4 ← xorksBody s3
  feedbackBody s4

/-- LOADKM (R235). -/
def execLoadkm (s : State) : Result := answer (loadkmBody s)

/-- BLOCK: every check before any state changes, then the body (R236, R284). -/
def execBlock (s : State) : Result := withTables s (answer (blockBody s))

/-- NOP (R237). -/
def execNop (s : State) : Result := .next s

end Sys2Proof.Machine
end

