-- ==== Sys2Proof/Machine/Dispatch.lean ====
section
/-! DEFINITION. The dispatch: one arm per command, each one call of its meaning. -/

namespace Sys2Proof.Machine

/-- The meaning of a decoded command, its remaining checks (R281, checks 3 to 6) included. -/
def exec (i : Instr) (s : State) : Host.Outcome State Fault Refusal :=
  match i with
  | .nop => Sys2Proof.Machine.execNop s
  | .gfmul a8 b8 => Sys2Proof.Machine.execGfmul a8 b8 s
  | .gfmulb rd rs1 imm8 => Sys2Proof.Machine.execGfmulb rd rs1 imm8 s
  | .xor rd rs1 rs2 => Sys2Proof.Machine.execXor rd rs1 rs2 s
  | .rotl rd rs1 imm9 => Sys2Proof.Machine.execRotl rd rs1 imm9 s
  | .xinj rd bidx imm8 => Sys2Proof.Machine.execXinj rd bidx imm8 s
  | .getq rs1 => Sys2Proof.Machine.execGetq rs1 s
  | .putq rd => Sys2Proof.Machine.execPutq rd s
  | .loadkm => Sys2Proof.Machine.execLoadkm s
  | .round rnd => Sys2Proof.Machine.execRound rnd s
  | .mix24 => Sys2Proof.Machine.execMix24 s
  | .ksgen => Sys2Proof.Machine.execKsgen s
  | .xorks => Sys2Proof.Machine.execXorks s
  | .feedback => Sys2Proof.Machine.execFeedback s
  | .block => Sys2Proof.Machine.execBlock s

end Sys2Proof.Machine
end

