-- ==== Sys2Proof/Machine/Command.lean ====
section
/-! DEFINITION. What one step performs: a command word, a host access, reset, a change of the hash engine. -/

namespace Sys2Proof.Machine

/-- The error a rejected command word raises (R124, R125, R281). A short word cannot reach the unit (R126): it is the CMD write
that raises BUS_WIDTH. -/
def errorOfDecode : DecodeError → ErrorCode
  | .illegalOpcode => .illegalOpcode
  | .reservedField => .reservedField
  | .shortWord => .busWidth

/-- A word written to CMD: the checks of R281 in order, then the command (R56, R110). -/
def runCommand (w : BitVec 32) (s : State) : Result :=
  match decode w with
  | .ok i => exec i s
  | .error e => .next (s.raiseError (errorOfDecode e))

/-- A failed access records its error; a failed read returns 0, a failed write stores nothing (R79, R283). -/
def failedAccess (a : Access) (c : ErrorCode) (s : State) : State :=
  match a with
  | .read _ _ => (s.raiseError c).pushAnswer 0#32
  | .write _ _ _ => s.raiseError c

/-- An access that passed its checks: a read answers, a write to CMD issues a command, any other write stores (R56, R71). -/
def passedAccess (a : Access) (s : State) : Result :=
  match a with
  | .read addr width =>
    match s.busRead addr.toNat width.bytes with
    | .ok v => .next (s.pushAnswer v)
    | .error f => .fault f
  | .write addr width value =>
    if addr.toNat = 0 then runCommand value s
    else .next (s.busWrite addr.toNat width.bytes value)

/-- One host access (R85, R282). -/
def performAccess (a : Access) (s : State) : Result :=
  match busCheck a with
  | some c => .next (failedAccess a c s)
  | none => passedAccess a s

/-- The reset event: every piece of the unit's state takes its reset value; the agents around it keep theirs (R310; log 12). -/
def State.resetUnit (s : State) : State :=
  { State.reset with
    events := s.events
    answers := s.answers
    hashRequests := s.hashRequests
    hashAnswers := s.hashAnswers }

/-- One event (R30; log 8). -/
def performEvent (e : Event) (s : State) : Result :=
  match e with
  | .access a => performAccess a s
  | .reset => .next s.resetUnit
  | .hashEngine b => .next { s with hashAnswers := b }

/-- One step: the oldest pending event is taken off and performed; with none pending the unit is idle and keeps all state
(R85, R296). -/
def stepOnce (s : State) : Result :=
  match s.events with
  | [] => .next s
  | e :: rest => performEvent e { s with events := rest }

/-- The host access that writes a command word to CMD (R56). -/
def commandWrite (w : BitVec 32) : Event := .access (.write 0#16 .w32 w)

/-- `n` steps, stopping at the first stop. -/
def runSteps : Nat → State → Result
  | 0, s => .next s
  | n + 1, s =>
    match stepOnce s with
    | .next s' => runSteps n s'
    | .fault f => .fault f
    | .refused r => .refused r

/-- The host performs these accesses and nothing else: they become the pending events, and are all performed. -/
def runEvents (es : List Event) (s : State) : Result := runSteps es.length { s with events := es }

end Sys2Proof.Machine
end

