-- ==== Sys2Proof/Machine/Step.lean ====
section
/-! DEFINITION. The step, and where its next instruction is placed. -/

namespace Sys2Proof.Machine

/-- One step of the machine (R85). -/
def step (s : State) : Host.Outcome State Fault Refusal := Sys2Proof.Machine.stepOnce s

/-- The state whose next step runs the command word `w`: the write of that word to CMD is the oldest pending host access
(R56, R126; log 8). Bits from `nbits` on are 0. -/
def State.withFetchWord (s : State) (nbits w : Nat) : State :=
  { s with events := Sys2Proof.Machine.commandWrite (BitVec.ofNat 32 (w % 2 ^ nbits)) :: s.events }

end Sys2Proof.Machine
end

