-- ==== Sys2Proof/Machine/HostProc.lean ====
section
/-! DEFINITION. The host's procedures (47_host_preprocessing.md): selector ordering, key constants, and the batch as the list of
host accesses it issues. They run on the host, not in the unit (R4 (c)); no command calls them (log 15, log 16). -/

namespace Sys2Proof.Machine

/-! ## Selector ordering (R251..R253) -/

/-- The 24 bytes of "RUC-SELECTOR-PRIORITY-V1" (R7; log 17). -/
def selectorLiteral : List Byte :=
  [0x52#8, 0x55#8, 0x43#8, 0x2D#8, 0x53#8, 0x45#8, 0x4C#8, 0x45#8, 0x43#8, 0x54#8, 0x4F#8, 0x52#8, 0x2D#8, 0x50#8,
   0x52#8, 0x49#8, 0x4F#8, 0x52#8, 0x49#8, 0x54#8, 0x59#8, 0x2D#8, 0x56#8, 0x31#8]

/-- The selector seed of a block (R251). -/
def selectorSeed (key iv : List Byte) (b : BitVec 64) : Vector Byte 32 :=
  Config.xof (key ++ iv ++ bytesBE 8 b ++ selectorLiteral) 32

/-- The 32-bit priorities of n selectors, LE_4 each, from the stream bytes (R252, steps 2 and 3). -/
def priorities (stream : List Byte) (n : Nat) : List Nat :=
  (List.range n).map fun i => fromLE ((stream.drop (4 * i)).take 4)

/-- The stable ascending sort by priority: ties keep their original order (R252 steps 4 and 5, R253). -/
def stableOrder (ps : List Nat) (sels : List (BitVec 16)) : List (BitVec 16) :=
  ((ps.zip sels).insertionSort fun x y => x.1 ≤ y.1).map Prod.snd

/-- `order_selectors(sels, key, iv, b)` (R252). -/
def orderSelectors (sels : List (BitVec 16)) (key iv : List Byte) (b : BitVec 64) : List (BitVec 16) :=
  stableOrder (priorities (Config.stream (selectorSeed key iv b) (4 * sels.length)).toList sels.length) sels

/-- The key constants of an ordered selector list: one byte of XOF(LE_2(sel) || key) a position (R254). -/
def keyConstants (o : List (BitVec 16)) (key : List Byte) : List Byte :=
  o.map fun sel => (Config.xof (bytesLE 2 sel ++ key) 1)[0]

/-! ## The batch (R255..R259) -/

/-- The arguments of `encrypt_batch` (R255). -/
structure BatchArgs where
  /-- The bytes to encrypt or decrypt. -/
  plaintext : List Byte
  /-- The key bytes. -/
  key : List Byte
  /-- The iv bytes. -/
  iv : List Byte
  /-- The start block index. -/
  start : Nat
  /-- The key material. -/
  keyMaterial : List Byte
  /-- The selector list. -/
  selectors : List (BitVec 16)
  /-- The flattened S-boxes. -/
  sboxes : List Byte
  /-- The flattened round keys. -/
  roundKeys : List Byte
deriving DecidableEq, Repr

/-- The inputs the host admits: 448 bytes of key material, at most MAX_SEL selectors (R258, U10, U11). -/
def BatchArgs.admitted (x : BatchArgs) : Bool :=
  x.keyMaterial.length == 448 && decide (x.selectors.length ≤ Config.maxSel)

/-- The blocks of a batch: whole blocks only (R256). -/
def BatchArgs.blocks (x : BatchArgs) : Nat := x.plaintext.length / 32

/-- The 64-bit block index of block p, modulo 2^64 (R257). -/
def BatchArgs.blockIndex (x : BatchArgs) (p : Nat) : BitVec 64 := BitVec.ofNat 64 (x.start + p)

/-- Byte writes of a buffer from an address up (R258; log 16). -/
def writeEvents : Nat → List Byte → List Event
  | _, [] => []
  | a, b :: bs => .access (.write (BitVec.ofNat 16 a) .w8 (b.setWidth 32)) :: writeEvents (a + 1) bs

/-- A 32-bit write of a control register. -/
def writeWord (a : Nat) (v : BitVec 32) : Event := .access (.write (BitVec.ofNat 16 a) .w32 v)

/-- Byte reads of n bytes from an address up. -/
def readEvents : Nat → Nat → List Event
  | _, 0 => []
  | a, n + 1 => .access (.read (BitVec.ofNat 16 a) .w8) :: readEvents (a + 1) n

/-- Loading the tables and choosing CTRL.STRICT, once a batch (R255, R258, R260). -/
def BatchArgs.loadEvents (x : BatchArgs) (strict : Bool) : List Event :=
  writeEvents kmBase x.keyMaterial ++ writeEvents sboxBase (x.sboxes.take 6144)
    ++ writeEvents rkBase (x.roundKeys.take 1536)
    ++ [writeWord 0x18 (BitVec.ofNat 32 (min x.sboxes.length 65535)),
        writeWord 0x1C (BitVec.ofNat 32 (min x.roundKeys.length 65535)),
        writeWord 0x08 (if strict then 1#32 else 0#32)]

/-- The accesses of block p up to its command: SEL, KC, the counts, BLKIDX, DIN, BLOCK (R255). -/
def BatchArgs.commandEvents (x : BatchArgs) (p : Nat) : List Event :=
  let b := x.blockIndex p
  let o := orderSelectors x.selectors x.key x.iv b
  writeEvents selBase (o.map (bytesLE 2 ·)).flatten
    ++ [writeWord 0x10 (BitVec.ofNat 32 x.selectors.length)]
    ++ writeEvents kcBase (keyConstants o x.key)
    ++ [writeWord 0x14 (BitVec.ofNat 32 x.selectors.length),
        writeWord 0x20 (b.extractLsb' 0 32), writeWord 0x24 (b.extractLsb' 32 32)]
    ++ writeEvents dinBase ((x.plaintext.drop (32 * p)).take 32)
    ++ [commandWrite 0x26000000#32]

/-- The read of the output block (R255). -/
def outputEvents : List Event := readEvents doutBase 32

/-- The accesses of all blocks, in increasing order (R255). -/
def BatchArgs.blockEvents (x : BatchArgs) : List Event :=
  ((List.range x.blocks).map fun p => x.commandEvents p ++ outputEvents).flatten

/-- What a procedure of the host ends in: an answer, or the stop of the unit. -/
abbrev HostRun (α : Type) := Host.Outcome α Fault Refusal

/-- One part of a procedure after another; a stop stays a stop. -/
def thenRun {α β : Type} (r : HostRun α) (k : α → HostRun β) : HostRun β :=
  match r with
  | .next a => k a
  | .fault f => .fault f
  | .refused x => .refused x

/-- The host performs these accesses and gets the values that they answer, in order, and the unit as they leave it. -/
def ask (es : List Event) (s : State) : HostRun (List (BitVec 32) × State) :=
  thenRun (runEvents es { s with answers := [] }) fun t => .next (t.answers.reverse, t)

/-- The bytes that byte reads answered. -/
def bytesOf (answers : List (BitVec 32)) : List Byte := answers.map (·.setWidth 8)

/-- `encrypt_batch` with the unit in state s, permissive: the bytes of DOUT the host has read, in order; none where the host
refuses the inputs (R255, R256, R258). -/
def encryptBatch (x : BatchArgs) (s : State) : Option (HostRun (List Byte)) :=
  if x.admitted then
    some (thenRun (ask (x.loadEvents false ++ x.blockEvents) s) fun r => .next (bytesOf r.1))
  else none

/-- `decrypt_batch`: identical signature and behaviour (R259). -/
def decryptBatch (x : BatchArgs) (s : State) : Option (HostRun (List Byte)) := encryptBatch x s

/-! ## The strict entry (R260, R291, R313, R319) -/

/-- When the host reads STATUS to see a strict error: after each BLOCK, or once at the end (R260, R319). -/
inductive StatusCheck where
  | eachBlock | atEnd
deriving DecidableEq, Repr

/-- What the host has at the end of a strict batch: the output, and the STATUS words it has read, in order. -/
structure BatchReport where
  /-- The bytes of DOUT. -/
  output : List Byte
  /-- STATUS, each time the host read it. -/
  statuses : List (BitVec 32)
deriving DecidableEq, Repr

/-- The read of STATUS (R260). -/
def statusRead : Event := .access (.read 0x0004#16 .w32)

/-- STATUS.ERR in a word read from STATUS (R55). -/
def errIn (status : BitVec 32) : Bool := status.getLsbD 0

/-- The blocks of a strict batch with a look at STATUS after each BLOCK: the host reads DOUT only where ERR is clear, and ends at
the first block that raised an error (R260, R319; log 23). The default below is never taken: the last access is a read. -/
def strictBlocks (x : BatchArgs) : List Nat → State → HostRun BatchReport
  | [], _ => .next ⟨[], []⟩
  | p :: ps, s =>
    thenRun (ask (x.commandEvents p ++ [statusRead]) s) fun c =>
      let status := c.1.getLastD 0#32
      if errIn status then .next ⟨[], [status]⟩
      else
        thenRun (ask outputEvents c.2) fun d =>
          thenRun (strictBlocks x ps d.2) fun rest =>
            .next ⟨bytesOf d.1 ++ rest.output, status :: rest.statuses⟩

/-- The blocks of a strict batch with one look at STATUS at the end: the host has read DOUT after every BLOCK, stale where the
BLOCK raised an error (R260, R291). -/
def strictAtEnd (x : BatchArgs) (s : State) : HostRun BatchReport :=
  thenRun (ask x.blockEvents s) fun d =>
    thenRun (ask [statusRead] d.2) fun e => .next ⟨bytesOf d.1, e.1⟩

/-- `encrypt_batch` by the strict entry: STATUS is cleared and CTRL.STRICT set before the batch, and the host sees STATUS (R260,
R313 step 4). -/
def encryptBatchStrict (check : StatusCheck) (x : BatchArgs) (s : State) : Option (HostRun BatchReport) :=
  if x.admitted then
    some (thenRun (ask (writeWord 0x04 3#32 :: x.loadEvents true) s) fun l =>
      match check with
      | .eachBlock => strictBlocks x (List.range x.blocks) l.2
      | .atEnd => strictAtEnd x l.2)
  else none

/-- `decrypt_batch` by the strict entry (R259, R260). -/
def decryptBatchStrict (check : StatusCheck) (x : BatchArgs) (s : State) : Option (HostRun BatchReport) :=
  encryptBatchStrict check x s

end Sys2Proof.Machine
end

