-- ==== Sys2Proof/Safety.lean ====
section
/-! DEFINITION. What counts as a safe run, in the terms claims use: no command and no host read reads a byte that is unspecified
since reset (R58, R312). For RAM the step itself faults; for R0..R6, which hold a value from reset (log 1), this predicate is
where the spec's UninitRead is said. -/

namespace Sys2Proof.Machine

/-- The byte at a window address has been written since reset, or is of a kind that is defined from reset (R58). -/
def State.isDefined (s : State) (a : Nat) : Bool :=
  match regionOf a with
  | some .reg => (s.regMarks[(regPos a).1])[(regPos a).2]
  | _ => if ramByte a then (Memory.get? s.mem a).isSome else true

/-- n consecutive addresses from a up. -/
def addresses (a n : Nat) : List Nat := (List.range n).map fun k => a + k

/-- The addresses of the bytes of the register a field names; none if it names nothing. -/
def regAddresses (r : BitVec 3) : List Nat :=
  match regIndex? r with
  | some i => addresses (regBase + 64 * i.val) 64
  | none => []

/-- SBOX[r][*] and RK[r][0..7] of a round, if the round is valid (R312). -/
def roundAddresses (s : State) (r : Nat) : List Nat :=
  if s.roundValid r then addresses (sboxAddr r 0) 256 ++ addresses (rkAddr r 0) 8 else []

/-- SEL[0..SEL_COUNT-1] and KC[0..min(SEL_COUNT, KC_COUNT)-1] (R312). -/
def selectorAddresses (s : State) : List Nat :=
  addresses (selAddr 0) (2 * s.selCount.toNat) ++ addresses (kcAddr 0) (min s.selCount.toNat s.kcCount.toNat)

/-- What must be defined before a command: the table of R312. -/
def required (i : Instr) (s : State) : List Nat :=
  match i with
  | .nop => []
  | .gfmul _ _ => []
  | .gfmulb _ rs1 _ => regAddresses rs1
  | .xor _ rs1 rs2 => regAddresses rs1 ++ regAddresses rs2
  | .rotl _ rs1 _ => regAddresses rs1
  | .xinj rd _ _ => regAddresses rd
  | .getq rs1 => regAddresses rs1
  | .putq rd => regAddresses rd
  | .loadkm => addresses kmBase 448
  | .round rnd => addresses regBase 448 ++ roundAddresses s rnd.toNat ++ selectorAddresses s
  | .mix24 => addresses regBase 448 ++ ((List.range 24).map (roundAddresses s)).flatten ++ selectorAddresses s
  | .ksgen => addresses regBase 448
  | .xorks => addresses dinBase 32 ++ addresses ksBase 32
  | .feedback => addresses doutBase 32 ++ addresses regBase 448
  | .block => addresses kmBase 448 ++ ((List.range 24).map (roundAddresses s)).flatten ++ selectorAddresses s
      ++ addresses dinBase 32

/-- The registers a command's fields name, all of them (R281 check 3). -/
def registerFields : Instr → List (BitVec 3)
  | .nop => []
  | .gfmul _ _ => []
  | .gfmulb rd rs1 _ => [rd, rs1]
  | .xor rd rs1 rs2 => [rd, rs1, rs2]
  | .rotl rd rs1 _ => [rd, rs1]
  | .xinj rd _ _ => [rd]
  | .getq rs1 => [rs1]
  | .putq rd => [rd]
  | .loadkm => []
  | .round _ => []
  | .mix24 => []
  | .ksgen => []
  | .xorks => []
  | .feedback => []
  | .block => []

/-- The commands that read the tables (R281 checks 5 and 6). -/
def usesTables : Instr → Bool
  | .nop => false
  | .gfmul _ _ => false
  | .gfmulb _ _ _ => false
  | .xor _ _ _ => false
  | .rotl _ _ _ => false
  | .xinj _ _ _ => false
  | .getq _ => false
  | .putq _ => false
  | .loadkm => false
  | .round _ => true
  | .mix24 => true
  | .ksgen => false
  | .xorks => false
  | .feedback => false
  | .block => true

/-- The command is ROUND with a round field of 24 or more (R281 check 4). -/
def namesNoRound : Instr → Bool
  | .nop => false
  | .gfmul _ _ => false
  | .gfmulb _ _ _ => false
  | .xor _ _ _ => false
  | .rotl _ _ _ => false
  | .xinj _ _ _ => false
  | .getq _ => false
  | .putq _ => false
  | .loadkm => false
  | .round rnd => decide (24 ≤ rnd.toNat)
  | .mix24 => false
  | .ksgen => false
  | .xorks => false
  | .feedback => false
  | .block => false

/-- Checks 3 to 6 of R281 as one list, in order: the first that a decoded command fails. The meanings make these checks in
their own places; that they agree with this list is a claim (R281, R284). -/
def commandCheck (i : Instr) (s : State) : Option ErrorCode :=
  if (registerFields i).any (· == 7#3) then some .badRegister
  else if namesNoRound i then some .badRound
  else if usesTables i && decide (Config.maxSel < s.selCount.toNat) then some .badSelCount
  else if usesTables i && s.strict && !(s.sbLen == 6144#16 && s.rkLen == 1536#16) then some .invalidInputSize
  else none

/-- Everything R312 asks for before the command is defined. -/
def State.ready (s : State) (i : Instr) : Bool := (required i s).all s.isDefined

/-- The first thing the next step would read that is unspecified, if there is one: a command's requirement (R312) or a byte of
a host read (R58). An access or a command that is turned away reads nothing (R284). -/
def State.undefinedRead (s : State) : Option Nat :=
  match s.events with
  | .access (.read addr width) :: _ =>
    if (busCheck (.read addr width)).isSome then none
    else (addresses addr.toNat width.bytes).find? fun a => !s.isDefined a
  | .access (.write addr width value) :: _ =>
    if (busCheck (.write addr width value)).isSome || addr.toNat != 0 then none
    else match decode value with
      | .ok i => if (commandCheck i s).isSome then none else (required i s).find? fun a => !s.isDefined a
      | .error _ => none
  | _ => none

/-- A step is safe if it reads nothing unspecified: then what it answers does not rest on the reset value log 1 chose. -/
def State.safeStep (s : State) : Bool := s.undefinedRead.isNone

/-- A run of n steps is safe if each of its steps is. -/
def safeRun : Nat → State → Bool
  | 0, _ => true
  | n + 1, s => s.safeStep && match step s with
    | .next s' => safeRun n s'
    | .fault _ => false
    | .refused _ => false

end Sys2Proof.Machine
end

