-- ==== Sys2Proof/Certificates/Slice0/Obligations.lean ====
section
/-! DEFINITION. The statements, and the words they are written in. The words are the claims' own: where a claim says what a command
computes, it says it by a formula of the spec and not by the definition the model runs. -/

namespace Sys2Proof.Claim
open Sys2Proof.Machine

/-! ## Words about frames -/

/-- Every byte of the window at an address with P reads the same. -/
def SameBytes (P : Nat → Prop) (s t : State) : Prop := ∀ a, P a → t.busByte a = s.busByte a

/-- The address lies outside the n bytes from `base` up. -/
def Outside (base n a : Nat) : Prop := a < base ∨ base + n ≤ a

/-- Nothing but register d is different: every other register and its marks, every other field of the state, and every byte
of the window outside the register's 64 bytes. -/
def OnlyRegister (d : Fin 7) (s t : State) : Prop :=
  t = { s with regs := t.regs, regMarks := t.regMarks }
    ∧ (∀ i, i ≠ d → t.regs[i] = s.regs[i] ∧ t.regMarks[i] = s.regMarks[i])
    ∧ SameBytes (Outside (0x0100 + 64 * d.val) 64) s t

/-- All 64 bytes of every register are defined. -/
def allMarked : RegMarks := Vector.replicate 7 (Vector.replicate 64 true)

/-- Only the registers, their marks and the diagnostic sum may differ, and of the window only the bytes of R and ACCSUM. -/
def OnlyCipherState (s t : State) : Prop :=
  t = { s with regs := t.regs, regMarks := t.regMarks, accsum := t.accsum }
    ∧ SameBytes (fun a => Outside 0x0100 448 a ∧ Outside 0x0030 8 a) s t

/-! ## Words about GF(2^8) and registers -/

/-- Times x in the field, by numbers: double modulo 256, and XOR 0x1B if bit 7 was set (R140). -/
def timesX (a : Byte) : Byte :=
  if 128 ≤ a.toNat then BitVec.ofNat 8 (2 * a.toNat) ^^^ 0x1B#8 else BitVec.ofNat 8 (2 * a.toNat)

/-- Times x^k in the field. -/
def timesXPow : Nat → Byte → Byte
  | 0, a => a
  | k + 1, a => timesXPow k (timesX a)

/-- The field product as a sum: a * x^k for every set bit k of b (R140). -/
def fieldProduct (a b : Byte) : Byte :=
  (List.range 8).foldl (fun p k => if b.getLsbD k then p ^^^ timesXPow k a else p) 0#8

/-- `big`: the 512-bit value of a register, byte 0 most significant (R10). -/
def big (v : Reg512) : Nat := ∑ j : Fin 64, v[j].toNat * 2 ^ (8 * (63 - j.val))

/-- The first n bytes of a register as a little-endian number (R159). -/
def littleEndian (v : Reg512) (n : Nat) : Nat := ∑ k ∈ Finset.range n, v[Fin.ofNat 64 k].toNat * 2 ^ (8 * k)

/-! ## Words about the round: a reference written on tables as functions -/

/-- What a block's rounds read: an S-box and the four bytes of a round key that matter for each round, and the selectors with
their key constants in list order (R180). -/
structure Tables where
  /-- The S-box of round r. -/
  sbox : Nat → Byte → Byte
  /-- Bytes 0..3 of the round key of round r, little-endian. -/
  roundKey : Nat → BitVec 32
  /-- The selectors and their key constants. -/
  sels : List (BitVec 16 × Option Byte)

/-- Round r is valid for these lengths (R49). -/
def ValidRound (s : State) (r : Nat) : Prop := 256 * (r + 1) ≤ s.sbLen.toNat ∧ 64 * (r + 1) ≤ s.rkLen.toNat

/-- The RAM holds round r's tables: the whole S-box, and bytes 0..7 of the round key, of which 0..3 matter (R181, R312). -/
def RoundTablesIn (s : State) (T : Tables) (r : Nat) : Prop :=
  (∀ k : Byte, s.busByte (0x1000 + 256 * r + k.toNat) = .ok (T.sbox r k))
    ∧ (∀ j, j < 4 → s.busByte (0x0800 + 64 * r + j) = .ok (byteOf (T.roundKey r) j))
    ∧ (∀ j, 4 ≤ j → j < 8 → ∃ b, s.busByte (0x0800 + 64 * r + j) = .ok b)

/-- The RAM holds the selector list, LE_2 each, and a key constant for exactly the positions below KC_COUNT (R44, R47). -/
def SelectorsIn (s : State) (T : Tables) : Prop :=
  T.sels.length = s.selCount.toNat
    ∧ ∀ p : Fin T.sels.length,
        s.busByte (0x4000 + 2 * p.val) = .ok (byteOf (T.sels[p]).1 0)
        ∧ s.busByte (0x4000 + 2 * p.val + 1) = .ok (byteOf (T.sels[p]).1 1)
        ∧ (∀ k, (T.sels[p]).2 = some k → p.val < s.kcCount.toNat ∧ s.busByte (0x8000 + p.val) = .ok k)
        ∧ ((T.sels[p]).2 = none → s.kcCount.toNat ≤ p.val)

/-- Checks 5 and 6 of R281 pass. -/
def TableChecksPass (s : State) : Prop :=
  s.selCount.toNat ≤ Config.maxSel ∧ (s.strict = true → s.sbLen.toNat = 6144 ∧ s.rkLen.toNat = 1536)

/-- The place of a selector: the low 32 bits of R0, the selector and the round key, mod 7 (R181). -/
def place (r0 : Reg512) (rk : BitVec 32) (sel : BitVec 16) : Fin 7 :=
  Fin.ofNat 7 (BitVec.ofNat 32 (littleEndian r0 4) ^^^ sel.setWidth 32 ^^^ rk).toNat

/-- What the first selector step of a round reads but for the S-box: SEL[0], bytes 0..3 of the round key, KC[0] if present. -/
structure FirstSelector where
  /-- SEL[0]. -/
  sel : BitVec 16
  /-- Bytes 0..3 of the round key, little-endian. -/
  roundKey : BitVec 32
  /-- The key constant of position 0. -/
  kc : Option Byte

/-- There is a selector, and the RAM holds these for round r (R44, R47, R181). -/
def FirstSelector.In (f : FirstSelector) (s : State) (r : Nat) : Prop :=
  0 < s.selCount.toNat
    ∧ s.busByte 0x4000 = .ok (byteOf f.sel 0) ∧ s.busByte 0x4001 = .ok (byteOf f.sel 1)
    ∧ (∀ j, j < 4 → s.busByte (0x0800 + 64 * r + j) = .ok (byteOf f.roundKey j))
    ∧ (∀ j, 4 ≤ j → j < 8 → ∃ b, s.busByte (0x0800 + 64 * r + j) = .ok b)
    ∧ (∀ k, f.kc = some k → 0 < s.kcCount.toNat ∧ s.busByte 0x8000 = .ok k)
    ∧ (f.kc = none → s.kcCount.toNat = 0)

/-- The register it works on, as it stands (R181). -/
def FirstSelector.old (f : FirstSelector) (s : State) : Reg512 := s.regs[place s.regs[0] f.roundKey f.sel]

/-- The S-box index of step 4 (R182). -/
def FirstSelector.index (f : FirstSelector) (s : State) : Byte :=
  fieldProduct (BitVec.ofNat 8 (2 * f.sel.toNat)) (f.old s)[0] ^^^ f.kc.getD 0#8

/-- The S-box index of step 7, from the result of step 4: byte 63 after the scaling, which step 6 leaves (R183). -/
def FirstSelector.low (f : FirstSelector) (s : State) (result : Byte) : Byte := fieldProduct (f.old s)[63] result

/-- One selector step on registers and sum, byte by byte (R181..R184). -/
def refStep (sbox : Byte → Byte) (rk : BitVec 32) (c : Regs × BitVec 64) (e : BitVec 16 × Option Byte) :
    Regs × BitVec 64 :=
  let pl := place c.1[0] rk e.1
  let old := c.1[pl]
  let g := fieldProduct (BitVec.ofNat 8 (2 * e.1.toNat)) old[0] ^^^ e.2.getD 0#8
  let result := sbox g
  let sh := e.1.toNat % 16
  let flip := if sh < 8 then BitVec.ofNat 8 (result.toNat * 2 ^ sh) else 0#8
  let v6 : Reg512 := Vector.ofFn fun j => fieldProduct old[j] result ^^^ (if j = 0 then flip else 0#8)
  let v7 : Reg512 := Vector.ofFn fun j => v6[j] ^^^ (if j = 63 then sbox v6[63] else 0#8)
  let v8 : Reg512 := Vector.ofFn fun j => BitVec.ofNat 8 (2 * v7[j].toNat + v7[j + 1].toNat / 128)
  let v9 : Reg512 := Vector.ofFn fun j => v8[j] ^^^ (c.1[pl + 1])[j]
  (c.1.set pl v9, c.2 + result.setWidth 64)

/-- Diffusion in closed form: R0..R4 see old values only, R5 sees the new R0, R6 the new R0 and R1 (R185). -/
def refDiffuse (rs : Regs) : Regs :=
  let n0 : Reg512 := Vector.ofFn fun j => (rs[0])[j] ^^^ (rs[1])[j] ^^^ (rs[2])[j]
  let n1 : Reg512 := Vector.ofFn fun j => (rs[1])[j] ^^^ (rs[2])[j] ^^^ (rs[3])[j]
  let n2 : Reg512 := Vector.ofFn fun j => (rs[2])[j] ^^^ (rs[3])[j] ^^^ (rs[4])[j]
  let n3 : Reg512 := Vector.ofFn fun j => (rs[3])[j] ^^^ (rs[4])[j] ^^^ (rs[5])[j]
  let n4 : Reg512 := Vector.ofFn fun j => (rs[4])[j] ^^^ (rs[5])[j] ^^^ (rs[6])[j]
  let n5 : Reg512 := Vector.ofFn fun j => (rs[5])[j] ^^^ (rs[6])[j] ^^^ n0[j]
  let n6 : Reg512 := Vector.ofFn fun j => (rs[6])[j] ^^^ n0[j] ^^^ n1[j]
  #v[n0, n1, n2, n3, n4, n5, n6]

/-- Round r: the selectors in list order, then diffusion (R186). -/
def refRound (T : Tables) (c : Regs × BitVec 64) (r : Nat) : Regs × BitVec 64 :=
  let d := T.sels.foldl (refStep (T.sbox r) (T.roundKey r)) c
  (refDiffuse d.1, d.2)

/-- How many of the 24 rounds are valid: a first run of them, since validity falls with r (R49). -/
def validRounds (s : State) : Nat := min 24 (min (s.sbLen.toNat / 256) (s.rkLen.toNat / 64))

/-- The rounds of MIX24: the valid ones, in increasing order (R187, R189). -/
def refMix (T : Tables) (n : Nat) (c : Regs × BitVec 64) : Regs × BitVec 64 := (List.range n).foldl (refRound T) c

/-- The 600-byte message of R210 from registers and a block index, ACC being zero. -/
def message (rs : Regs) (acc : List Byte) (idx : BitVec 64) : List Byte :=
  rs[0].toList ++ rs[1].toList ++ rs[2].toList ++ rs[3].toList ++ rs[4].toList ++ rs[5].toList ++ rs[6].toList ++ acc
    ++ [byteOf idx 7, byteOf idx 6, byteOf idx 5, byteOf idx 4, byteOf idx 3, byteOf idx 2, byteOf idx 1, byteOf idx 0]
    ++ [0x52#8, 0x55#8, 0x43#8, 0x2D#8, 0x4B#8, 0x45#8, 0x59#8, 0x53#8, 0x54#8, 0x52#8, 0x45#8, 0x41#8, 0x4D#8, 0x2D#8,
        0x56#8, 0x31#8]

/-- The registers of fresh key material: register i takes the i-th slice of 64 bytes (R33). -/
def slices (km : Vector Byte 448) : Regs :=
  Vector.ofFn fun i => Vector.ofFn fun j => km[Fin.ofNat 448 (64 * i.val + j.val)]

/-- Every register XORed with the block twice over: feedback in the form of R227. -/
def fedBack (ct : Vector Byte 32) (rs : Regs) : Regs :=
  Vector.ofFn fun i => Vector.ofFn fun j => (rs[i])[j] ^^^ ct[Fin.ofNat 32 j.val]

/-- n bytes of the window from an address up hold this vector. -/
def Holds {n : Nat} (s : State) (a : Nat) (v : Vector Byte n) : Prop := ∀ j : Fin n, s.busByte (a + j.val) = .ok v[j]

/-! ## Words about the whole machine -/

/-- The invariant: RAM in canonical form and inside the RAM regions, ERR clear exactly when no code is recorded, ACC zero
(R34, R55, R73). -/
def Invariant (s : State) : Prop :=
  Memory.wf s.mem
    ∧ (∀ c ∈ s.mem, ramByte c.1 = true)
    ∧ (s.err = false ↔ s.errCode = .noError)
    ∧ (∀ j : Fin 128, s.acc[j] = 0#8)

/-- A result followed by another meaning; a stop stays a stop. -/
def andThen (r : Result) (k : State → Result) : Result :=
  match r with
  | .next s => k s
  | .fault f => .fault f
  | .refused x => .refused x

/-- The commands one after another. -/
def execAll : List Instr → State → Result
  | [], s => .next s
  | i :: is, s => andThen (exec i s) (execAll is)

/-- The regions the host may write (R73), the control block apart. -/
def HostWritable (a : Nat) : Prop :=
  regionOf a = some .din ∨ regionOf a = some .reg ∨ regionOf a = some .km ∨ regionOf a = some .rk
    ∨ regionOf a = some .sbox ∨ regionOf a = some .sel ∨ regionOf a = some .kc

/-- The bytes only the host writes: DIN, KM, RK, SBOX, SEL, KC (R39, R41..R45). -/
def HostOnly (a : Nat) : Prop :=
  regionOf a = some .din ∨ regionOf a = some .km ∨ regionOf a = some .rk
    ∨ regionOf a = some .sbox ∨ regionOf a = some .sel ∨ regionOf a = some .kc

/-- The indices in ascending order of priority, ties in their original order (R253). -/
def StablePerm (ps perm : List Nat) : Prop :=
  perm.Perm (List.range ps.length)
    ∧ perm.Pairwise fun u v => ps.getD u 0 < ps.getD v 0 ∨ (ps.getD u 0 = ps.getD v 0 ∧ u < v)

/-- The opcodes of R123. -/
def definedOpcodes : List (BitVec 8) :=
  [0x01#8, 0x10#8, 0x11#8, 0x12#8, 0x13#8, 0x14#8, 0x15#8, 0x16#8, 0x20#8, 0x21#8, 0x22#8, 0x23#8, 0x24#8, 0x25#8, 0x26#8]

/-- The checks of R281 on a command word, in order, said of the word's bits: register fields at the places each format gives
them (R113..R119), the round field at bits 4:0 (R120). -/
def wordCheck (w : BitVec 32) (s : State) : Option ErrorCode :=
  let op := (w >>> 24).toNat
  let rdBad := w &&& 0x00E00000#32 = 0x00E00000#32
  let rs1Bad := w &&& 0x001C0000#32 = 0x001C0000#32
  let rs2Bad := w &&& 0x00038000#32 = 0x00038000#32
  let tables := op = 0x21 ∨ op = 0x22 ∨ op = 0x26
  if BitVec.ofNat 8 op ∉ definedOpcodes then some .illegalOpcode
  else if ∀ r ∈ matchRows, r.selects w = false then some .reservedField
  else if (op ∈ [0x11, 0x12, 0x13, 0x14, 0x16] ∧ rdBad) ∨ (op ∈ [0x11, 0x12, 0x13, 0x15] ∧ rs1Bad) ∨ (op = 0x12 ∧ rs2Bad)
    then some .badRegister
  else if op = 0x21 ∧ 24 ≤ (w &&& 0x1F#32).toNat then some .badRound
  else if tables ∧ Config.maxSel < s.selCount.toNat then some .badSelCount
  else if tables ∧ s.strict = true ∧ (s.sbLen ≠ 6144#16 ∨ s.rkLen ≠ 1536#16) then some .invalidInputSize
  else none

end Sys2Proof.Claim

open Sys2Proof Sys2Proof.Machine Sys2Proof.Claim

/-! ## Encoding -/

/-- R112..R120, R123: decoding the word of a command gives the command back, with every value of every field, the register
fields 7 and the round fields 24..31 among them. -/
def Obligations.DecodeEncodeRoundTrip : Prop := ∀ i : Instr, decode (encode i) = .ok i

/-- R126: each word stands for at most one command: a word that decodes is the encoding of what it decodes to. -/
def Obligations.EncodeDecodeRoundTrip : Prop := ∀ (w : BitVec 32) (i : Instr), decode w = .ok i → encode i = w

/-- R123: a word decodes exactly when it matches a row of the match and mask table, and then to that row's mnemonic. -/
def Obligations.DecodeFollowsMatchTable : Prop :=
  ∀ w : BitVec 32,
    (∀ i, decode w = .ok i → ∃ r ∈ matchRows, r.selects w = true ∧ r.mnemonic = i.mnemonic)
      ∧ (∀ r ∈ matchRows, r.selects w = true → ∃ i, decode w = .ok i ∧ i.mnemonic = r.mnemonic)

/-- R124, R125: a reserved opcode is ILLEGAL_OPCODE; with a defined opcode, a 1 in a reserved bit is RESERVED_FIELD; each
changes nothing but STATUS. -/
def Obligations.ReservedWordsRaiseErrors : Prop :=
  ∀ (w : BitVec 32) (s : State),
    ((opField w = 0x00#8 ∨ (0x02#8 ≤ opField w ∧ opField w ≤ 0x0F#8) ∨ (0x17#8 ≤ opField w ∧ opField w ≤ 0x1F#8)
        ∨ 0x27#8 ≤ opField w) → runCommand w s = .next (s.raiseError .illegalOpcode))
      ∧ (opField w ∈ definedOpcodes → (∀ r ∈ matchRows, r.selects w = false) →
          runCommand w s = .next (s.raiseError .reservedField))

/-- R127: the words written out from the assembler table decode to their commands. -/
def Obligations.SampleWordsDecode : Prop :=
  decode 0x01000000#32 = .ok .nop
    ∧ decode 0x10005783#32 = .ok (.gfmul 0x57#8 0x83#8)
    ∧ decode 0x11440002#32 = .ok (.gfmulb 2#3 1#3 0x02#8)
    ∧ decode 0x128C8000#32 = .ok (.xor 4#3 3#3 1#3)
    ∧ decode 0x13680009#32 = .ok (.rotl 3#3 2#3 9#9)
    ∧ decode 0x14603F5A#32 = .ok (.xinj 3#3 63#6 0x5A#8)
    ∧ decode 0x15100000#32 = .ok (.getq 4#3)
    ∧ decode 0x16A00000#32 = .ok (.putq 5#3)
    ∧ decode 0x21000017#32 = .ok (.round 23#5)
    ∧ decode 0x26000000#32 = .ok .block

/-! ## The step -/

/-- R85, R110, R296: a pending write of a word to CMD that decodes runs exactly that command on the state without the event; one
that does not decode records its error; with nothing pending nothing changes. That pending accesses are a list of State is the model's
choice (log 8). -/
def Obligations.StepRunsTheDecodedCommand : Prop :=
  ∀ (s : State) (w : BitVec 32) (rest : List Event),
    (∀ i, decode w = .ok i →
        step { s with events := commandWrite w :: rest } = exec i { s with events := rest })
      ∧ (decode w = .error .illegalOpcode →
        step { s with events := commandWrite w :: rest } = .next ({ s with events := rest }.raiseError .illegalOpcode))
      ∧ (decode w = .error .reservedField →
        step { s with events := commandWrite w :: rest } = .next ({ s with events := rest }.raiseError .reservedField))
      ∧ step { s with events := [] } = .next { s with events := [] }

/-- R85, R310: any other pending event is performed on the state without it. That events are a list of State, that the agents'
fields outlive a reset and that the engine's silence is an event are the model's choices (log 8, log 10, log 12). -/
def Obligations.StepPerformsTheOldestEvent : Prop :=
  ∀ (s : State) (rest : List Event),
    (∀ a, step { s with events := .access a :: rest } = performAccess a { s with events := rest })
      ∧ (∀ b, step { s with events := .hashEngine b :: rest } = .next { s with events := rest, hashAnswers := b })
      ∧ step { s with events := .reset :: rest } = .next { State.reset with
          events := rest, answers := s.answers, hashRequests := s.hashRequests, hashAnswers := s.hashAnswers }

/-- R237, R124: NOP changes nothing, a set STATUS.ERR included; the all-zero word is not NOP but ILLEGAL_OPCODE. -/
def Obligations.NopChangesNothing : Prop :=
  ∀ s : State, exec .nop s = .next s ∧ runCommand 0x01000000#32 s = .next s
    ∧ runCommand 0x00000000#32 s = .next (s.raiseError .illegalOpcode)

/-! ## GF(2^8) -/

/-- R140, R142: GFMUL puts the field product of its operands, a * x^k for every set bit k of b, into GFR and changes nothing
else; the only byte of the window that may differ is GFR's. -/
def Obligations.GfmulWritesTheProduct : Prop :=
  ∀ (a b : Byte) (s : State), ∃ t, exec (.gfmul a b) s = .next t
    ∧ t = { s with gfr := fieldProduct a b } ∧ SameBytes (fun x => x ≠ 0x0038) s t

/-- R140, R141: the laws of the field. The source states gf_mul(a, 0) = 0, gf_mul(1, b) = b and commutativity; gf_mul(a, 1) = a,
gf_mul(0, b) = 0, associativity and distributivity over XOR it does not state: R141 derives them from R140. -/
def Obligations.GfMulFieldLaws : Prop :=
  ∀ a b c : Byte, gfMul a 0#8 = 0#8 ∧ gfMul 1#8 b = b ∧ gfMul a b = gfMul b a ∧ gfMul a 1#8 = a ∧ gfMul 0#8 b = 0#8
    ∧ gfMul (gfMul a b) c = gfMul a (gfMul b c)
    ∧ gfMul a (b ^^^ c) = gfMul a b ^^^ gfMul a c
    ∧ gfMul (a ^^^ b) c = gfMul a c ^^^ gfMul b c

/-! ## The register ALU -/

/-- R150, R151: GFMULB multiplies every byte of the source by the scalar; only the destination register changes. -/
def Obligations.GfmulbScalesEveryByte : Prop :=
  ∀ (rd rs1 : BitVec 3) (c : Byte) (s : State) (d a : Fin 7), rd.toNat = d.val → rs1.toNat = a.val →
    ∃ t, exec (.gfmulb rd rs1 c) s = .next t
      ∧ (∀ j : Fin 64, (t.regs[d])[j] = gfMul (s.regs[a])[j] c)
      ∧ t.regMarks[d] = Vector.replicate 64 true ∧ OnlyRegister d s t

/-- R152, R153: XOR is byte-wise; only the destination register changes. -/
def Obligations.XorCombinesBytes : Prop :=
  ∀ (rd rs1 rs2 : BitVec 3) (s : State) (d a b : Fin 7),
    rd.toNat = d.val → rs1.toNat = a.val → rs2.toNat = b.val →
    ∃ t, exec (.xor rd rs1 rs2) s = .next t
      ∧ (∀ j : Fin 64, (t.regs[d])[j] = (s.regs[a])[j] ^^^ (s.regs[b])[j])
      ∧ t.regMarks[d] = Vector.replicate 64 true ∧ OnlyRegister d s t

/-- R10, R154, R155: ROTL rotates the register left as a 512-bit integer with byte 0 most significant; only the destination
register changes. -/
def Obligations.RotlRotatesLeft : Prop :=
  ∀ (rd rs1 : BitVec 3) (n : BitVec 9) (s : State) (d a : Fin 7), rd.toNat = d.val → rs1.toNat = a.val →
    ∃ t, exec (.rotl rd rs1 n) s = .next t
      ∧ big t.regs[d] = big s.regs[a] * 2 ^ n.toNat % 2 ^ 512 + big s.regs[a] * 2 ^ n.toNat / 2 ^ 512
      ∧ t.regMarks[d] = Vector.replicate 64 true ∧ OnlyRegister d s t

/-- R154: the per-byte formula for every natural number n, which the rule states, and the rotation of the 512-bit number that it
amounts to, which the rule marks as derived from the formula. -/
def Obligations.RotationFormula : Prop :=
  ∀ (v : Reg512) (n : Nat),
    (∀ i : Fin 64, (rotateLeft512 v n)[i] =
      (v[Fin.ofNat 64 (i.val + n / 8)] <<< (n % 8))
        ||| (if n % 8 = 0 then 0#8 else v[Fin.ofNat 64 (i.val + n / 8 + 1)] >>> (8 - n % 8)))
      ∧ big (rotateLeft512 v n) = big v * 2 ^ (n % 512) % 2 ^ 512 + big v * 2 ^ (n % 512) / 2 ^ 512

/-- R154..R156: rotation by 512 is the identity, rotations depend on n mod 512 only, 512 single-bit rotations are the identity
(R156), and rotations compose by adding their amounts. The last is in no rule: it follows from the formula of R154, of which
R155 derives the case n and then 512 - n. -/
def Obligations.RotationPeriodicity : Prop :=
  ∀ (v : Reg512) (m n : Nat),
    rotateLeft512 v 512 = v
      ∧ rotateLeft512 v n = rotateLeft512 v (n % 512)
      ∧ (fun u => rotateLeft512 u 1)^[512] v = v
      ∧ rotateLeft512 (rotateLeft512 v m) n = rotateLeft512 v (m + n)

/-- R157, R158: XINJ XORs its byte into one byte of the register; the other 63 and everything else are unchanged. That the command
defines that one byte alone is the model's reading (log 20). -/
def Obligations.XinjChangesOneByte : Prop :=
  ∀ (rd : BitVec 3) (j : BitVec 6) (v : Byte) (s : State) (d : Fin 7), rd.toNat = d.val →
    ∃ t, exec (.xinj rd j v) s = .next t
      ∧ (t.regs[d])[j.toFin] = (s.regs[d])[j.toFin] ^^^ v
      ∧ (∀ k : Fin 64, k ≠ j.toFin → (t.regs[d])[k] = (s.regs[d])[k] ∧ (t.regMarks[d])[k] = (s.regMarks[d])[k])
      ∧ (t.regMarks[d])[j.toFin] = true
      ∧ OnlyRegister d s t
      ∧ SameBytes (fun a => a ≠ 0x0100 + 64 * d.val + j.toNat) s t

/-- R159, R160: GETQ takes bytes 0..7 of the register, little-endian, into Q; only Q and its eight window bytes may differ. -/
def Obligations.GetqExtractsLittleEndian : Prop :=
  ∀ (rs1 : BitVec 3) (s : State) (a : Fin 7), rs1.toNat = a.val →
    ∃ t, exec (.getq rs1) s = .next t
      ∧ t.q.toNat = littleEndian s.regs[a] 8
      ∧ t = { s with q := t.q } ∧ SameBytes (Outside 0x0028 8) s t

/-- R161, R162: PUTQ puts LE_8(Q) into bytes 0..7 of the register and leaves bytes 8..63; only that register changes. That it defines
all 64 bytes, those it leaves included, is the model's reading (log 20). -/
def Obligations.PutqInsertsLittleEndian : Prop :=
  ∀ (rd : BitVec 3) (s : State) (d : Fin 7), rd.toNat = d.val →
    ∃ t, exec (.putq rd) s = .next t
      ∧ littleEndian t.regs[d] 8 = s.q.toNat
      ∧ (∀ j : Fin 64, 8 ≤ j.val → (t.regs[d])[j] = (s.regs[d])[j])
      ∧ t.regMarks[d] = Vector.replicate 64 true ∧ OnlyRegister d s t

/-! ## The round and the mixer -/

/-- R187: a round whose tables are undersized changes nothing but RSKIP in permissive mode; in strict mode it is not skipped, the
command is rejected. -/
def Obligations.UndersizedRoundIsSkipped : Prop :=
  ∀ (rnd : BitVec 5) (s : State), rnd.toNat < 24 → s.selCount.toNat ≤ Config.maxSel →
    (s.sbLen.toNat < 256 * (rnd.toNat + 1) ∨ s.rkLen.toNat < 64 * (rnd.toNat + 1)) →
    (s.strict = false → exec (.round rnd) s = .next { s with rskip := true })
      ∧ (s.strict = true → exec (.round rnd) s = .next (s.raiseError .invalidInputSize))

/-- R185, R186, R188: with an empty selector list a valid round is the diffusion pass alone: R0..R4 from old values, R5 with the
new R0, R6 with the new R0 and R1; ACCSUM is unchanged. -/
def Obligations.EmptyRoundDiffuses : Prop :=
  ∀ (rnd : BitVec 5) (s : State), rnd.toNat < 24 → s.selCount = 0#16 → ValidRound s rnd.toNat →
    (s.strict = true → s.sbLen.toNat = 6144 ∧ s.rkLen.toNat = 1536) →
    ∃ t, exec (.round rnd) s = .next t
      ∧ (∀ j : Fin 64,
          (t.regs[0])[j] = (s.regs[0])[j] ^^^ (s.regs[1])[j] ^^^ (s.regs[2])[j]
          ∧ (t.regs[1])[j] = (s.regs[1])[j] ^^^ (s.regs[2])[j] ^^^ (s.regs[3])[j]
          ∧ (t.regs[2])[j] = (s.regs[2])[j] ^^^ (s.regs[3])[j] ^^^ (s.regs[4])[j]
          ∧ (t.regs[3])[j] = (s.regs[3])[j] ^^^ (s.regs[4])[j] ^^^ (s.regs[5])[j]
          ∧ (t.regs[4])[j] = (s.regs[4])[j] ^^^ (s.regs[5])[j] ^^^ (s.regs[6])[j]
          ∧ (t.regs[5])[j] = (s.regs[5])[j] ^^^ (s.regs[6])[j] ^^^ (t.regs[0])[j]
          ∧ (t.regs[6])[j] = (s.regs[6])[j] ^^^ (t.regs[0])[j] ^^^ (t.regs[1])[j])
      ∧ t.accsum = s.accsum ∧ t.regMarks = allMarked ∧ OnlyCipherState s t

/-- R181..R186, R188: a valid round is the reference round on the tables the RAM holds: the selectors in list order, each step as
the formulas say, then diffusion; only R0..R6 and ACCSUM change. -/
def Obligations.RoundRefinesReference : Prop :=
  ∀ (rnd : BitVec 5) (s : State) (T : Tables), rnd.toNat < 24 → TableChecksPass s → ValidRound s rnd.toNat →
    RoundTablesIn s T rnd.toNat → SelectorsIn s T →
    ∃ t, exec (.round rnd) s = .next t
      ∧ t.regs = (refRound T (s.regs, s.accsum) rnd.toNat).1
      ∧ t.accsum = (refRound T (s.regs, s.accsum) rnd.toNat).2
      ∧ t.regMarks = allMarked ∧ OnlyCipherState s t

/-- R187, R189: MIX24 runs the valid rounds in increasing order on the tables the RAM holds and sets RSKIP exactly when a round is
skipped; only R0..R6, ACCSUM and RSKIP change. -/
def Obligations.MixRefinesReference : Prop :=
  ∀ (s : State) (T : Tables), TableChecksPass s →
    (∀ r, r < 24 → ValidRound s r → RoundTablesIn s T r) → SelectorsIn s T →
    ∃ t, exec .mix24 s = .next t
      ∧ t.regs = (refMix T (validRounds s) (s.regs, s.accsum)).1
      ∧ t.accsum = (refMix T (validRounds s) (s.regs, s.accsum)).2
      ∧ t.rskip = (s.rskip || decide (s.sbLen.toNat < 6144 ∨ s.rkLen.toNat < 1536))
      ∧ t.regMarks = (if validRounds s = 0 then s.regMarks else allMarked)
      ∧ t = { s with regs := t.regs, regMarks := t.regMarks, accsum := t.accsum, rskip := t.rskip }
      ∧ SameBytes (fun a => Outside 0x0100 448 a ∧ Outside 0x0030 8 a ∧ a ≠ 0x0004) s t

/-- R189: MIX24 is ROUND 0 to ROUND 23 in increasing order, whatever the state, once the two table checks pass. -/
def Obligations.MixIsTheRoundsInOrder : Prop :=
  ∀ s : State, TableChecksPass s →
    exec .mix24 s = execAll ((List.range 24).map fun r => Instr.round (BitVec.ofNat 5 r)) s

/-- R190 (b): the round key enters through its bytes 0..3 alone: changing defined bytes 4..63 of it changes no result. -/
def Obligations.RoundKeyTailIsIgnored : Prop :=
  ∀ (rnd : BitVec 5) (s t : State) (j : Nat) (b c : Byte),
    4 ≤ j → j < 64 → rnd.toNat < 24 → s.busByte (0x0800 + 64 * rnd.toNat + j) = .ok b →
    exec (.round rnd) s = .next t →
    ∃ u, exec (.round rnd) { s with mem := Memory.set s.mem (0x0800 + 64 * rnd.toNat + j) c } = .next u
      ∧ u.regs = t.regs ∧ u.accsum = t.accsum ∧ u.rskip = t.rskip ∧ u.err = t.err ∧ u.errCode = t.errCode

/-! ## Keystream, feedback, block -/

/-- R92, R210, R211: KSGEN sends the 600-byte message once and stores the 32-byte answer in KS; nothing else changes but the
model's own list of requests (log 10, log 11). The literal's bytes are the ASCII codes of R7, general knowledge there (log 17). -/
def Obligations.KsgenStoresTheAnswer : Prop :=
  ∀ s : State, s.hashAnswers = true →
    ∃ t, exec .ksgen s = .next t
      ∧ (message s.regs s.acc.toList s.blkIdx).length = 600
      ∧ Holds t 0x0080 (Config.xof (message s.regs s.acc.toList s.blkIdx) 32)
      ∧ t.hashRequests = ⟨message s.regs s.acc.toList s.blkIdx, 32⟩ :: s.hashRequests
      ∧ t = { s with mem := t.mem, hashRequests := t.hashRequests } ∧ SameBytes (Outside 0x0080 32) s t

/-- R85, R286 (b): a hash engine that does not answer leaves KSGEN without a completing step, and no effect is claimed (log 10). -/
def Obligations.SilentHashEngineHangs : Prop :=
  ∀ s : State, s.hashAnswers = false → exec .ksgen s = .fault .hashHang

/-- R212: XORKS puts DIN ^ KS into DOUT; only DOUT changes. -/
def Obligations.XorksCombinesDinAndKs : Prop :=
  ∀ (s : State) (din ks : Vector Byte 32), Holds s 0x0040 din → Holds s 0x0080 ks →
    ∃ t, exec .xorks s = .next t
      ∧ (∀ j : Fin 32, t.busByte (0x0060 + j.val) = .ok (din[j] ^^^ ks[j]))
      ∧ t = { s with mem := t.mem } ∧ SameBytes (Outside 0x0060 32) s t

/-- R213: writing DIN ^ KS back into DIN and issuing XORKS again gives the first DIN in DOUT. -/
def Obligations.XorksIsItsOwnInverse : Prop :=
  ∀ (s t : State) (din dout : Vector Byte 32), Holds s 0x0040 din → exec .xorks s = .next t → Holds t 0x0060 dout →
    ∃ u, exec .xorks (t.writeBuffer 0x0040 dout) = .next u ∧ Holds u 0x0060 din

/-- R225..R227: FEEDBACK XORs DOUT[j mod 32] into every R[i][j], unshifted, as R227 derives from R225; only R0..R6 change. -/
def Obligations.FeedbackXorsTheBlock : Prop :=
  ∀ (s : State) (ct : Vector Byte 32), Holds s 0x0060 ct →
    ∃ t, exec .feedback s = .next t
      ∧ (∀ (i : Fin 7) (j : Fin 64), (t.regs[i])[j] = (s.regs[i])[j] ^^^ ct[Fin.ofNat 32 j.val])
      ∧ t.regMarks = allMarked
      ∧ t = { s with regs := t.regs, regMarks := t.regMarks } ∧ SameBytes (Outside 0x0100 448) s t

/-- R226: a second FEEDBACK with the same DOUT restores the registers. -/
def Obligations.FeedbackTwiceRestores : Prop :=
  ∀ s t : State, exec .feedback s = .next t → ∃ u, exec .feedback t = .next u ∧ u.regs = s.regs

/-- R33, R235: LOADKM loads the registers from KM and zeroes ACC and ACCSUM; nothing else changes. -/
def Obligations.LoadkmBuildsFreshState : Prop :=
  ∀ (s : State) (km : Vector Byte 448), Holds s 0x0400 km →
    ∃ t, exec .loadkm s = .next t
      ∧ (∀ (i : Fin 7) (j : Fin 64), (t.regs[i])[j] = km[Fin.ofNat 448 (64 * i.val + j.val)])
      ∧ (∀ k : Fin 128, t.acc[k] = 0#8) ∧ t.accsum = 0#64 ∧ t.regMarks = allMarked
      ∧ t = { s with regs := t.regs, regMarks := t.regMarks, acc := t.acc, accsum := t.accsum }
      ∧ SameBytes (fun a => Outside 0x0100 448 a ∧ Outside 0x0300 128 a ∧ Outside 0x0030 8 a) s t

/-- R236: BLOCK computes the whole pipeline: fresh registers from KM, the valid rounds, one hash request, DOUT = DIN ^ KS,
feedback; with the frame of everything it does not write. The list of requests and the engine that answers are the model's
fields (log 10, log 11); the literal's bytes are the ASCII codes of R7, general knowledge there (log 17). -/
def Obligations.BlockComputesThePipeline : Prop :=
  ∀ (s : State) (T : Tables) (km : Vector Byte 448) (din : Vector Byte 32), TableChecksPass s → s.hashAnswers = true →
    (∀ r, r < 24 → ValidRound s r → RoundTablesIn s T r) → SelectorsIn s T → Holds s 0x0400 km → Holds s 0x0040 din →
    ∃ t, exec .block s = .next t ∧
      let c := refMix T (validRounds s) (slices km, 0#64)
      let m := message c.1 (List.replicate 128 0#8) s.blkIdx
      let ks := Config.xof m 32
      let dout : Vector Byte 32 := Vector.ofFn fun j => din[j] ^^^ ks[j]
      Holds t 0x0080 ks ∧ Holds t 0x0060 dout
        ∧ t.regs = fedBack dout c.1 ∧ t.accsum = c.2
        ∧ t.rskip = (s.rskip || decide (s.sbLen.toNat < 6144 ∨ s.rkLen.toNat < 1536))
        ∧ t.hashRequests = ⟨m, 32⟩ :: s.hashRequests
        ∧ t = { s with regs := t.regs, regMarks := allMarked, acc := Vector.replicate 128 0#8, accsum := t.accsum
                       mem := t.mem, rskip := t.rskip, hashRequests := t.hashRequests }
        ∧ SameBytes (fun a => Outside 0x0060 64 a ∧ Outside 0x0100 448 a ∧ Outside 0x0300 128 a ∧ Outside 0x0030 8 a
            ∧ a ≠ 0x0004) s t

/-- R238: BLOCK equals LOADKM; MIX24; KSGEN; XORKS; FEEDBACK when the table checks pass, stops included. -/
def Obligations.BlockIsTheFiveCommands : Prop :=
  ∀ s : State, TableChecksPass s → exec .block s = execAll [.loadkm, .mix24, .ksgen, .xorks, .feedback] s

/-- R236: two BLOCKs in a row give the same DOUT and the same KS. -/
def Obligations.BlockRepeatsItsOutput : Prop :=
  ∀ (s t : State), TableChecksPass s → exec .block s = .next t →
    ∃ u, exec .block t = .next u ∧ SameBytes (fun a => 0x0060 ≤ a ∧ a < 0x00A0) t u

/-- R213, R236, R261: a BLOCK on its own output, at the same block index and tables, gives the input block back. -/
def Obligations.BlockDecryptsItself : Prop :=
  ∀ (s t : State) (din dout : Vector Byte 32), TableChecksPass s → Holds s 0x0040 din → exec .block s = .next t →
    Holds t 0x0060 dout →
    ∃ u, exec .block (t.writeBuffer 0x0040 dout) = .next u ∧ Holds u 0x0060 din

/-! ## Errors and stops -/

/-- R126, R281: a command word raises the first check it fails, in the order of the rule, and that changes nothing but ERR and
ERRCODE; a word that fails none stands for one command, which is performed. -/
def Obligations.CommandChecksInOrder : Prop :=
  ∀ (w : BitVec 32) (s : State),
    (∀ c, wordCheck w s = some c → ∃ t, runCommand w s = .next t ∧ t.err = true
        ∧ t.errCode = (if s.err then s.errCode else c) ∧ t = { s with err := t.err, errCode := t.errCode })
      ∧ (wordCheck w s = none → ∃ i, decode w = .ok i ∧ i.wf = true ∧ runCommand w s = exec i s)

/-- R283, R284: the first of checks 3 to 6 of R281 that a command fails is recorded, and nothing else changes. -/
def Obligations.FailedChecksArePrecise : Prop :=
  ∀ (i : Instr) (s : State) (c : ErrorCode), commandCheck i s = some c →
    ∃ t, exec i s = .next t ∧ t.err = true ∧ t.errCode = (if s.err then s.errCode else c)
      ∧ t = { s with err := t.err, errCode := t.errCode }
      ∧ SameBytes (fun a => a ≠ 0x0004 ∧ a ≠ 0x0005) s t

/-- R110, R284, R312: a command whose checks pass, whose reads are defined and whose hash request is answered completes: it answers
a next state and records no error. What that state holds, the statements of the commands say. The engine that answers is a
field of the model (log 10). -/
def Obligations.CheckedCommandsComplete : Prop :=
  ∀ (i : Instr) (s : State), commandCheck i s = none → s.ready i = true → s.hashAnswers = true →
    ∃ t, exec i s = .next t ∧ t.err = s.err ∧ t.errCode = s.errCode

/-- R58, R286: no command is refused, and one that faults has read a byte of RAM that is undefined, or waits for a silent hash
engine. The two stops are model faults of R286 (log 2, log 10). -/
def Obligations.CommandStopsAreModelFaults : Prop :=
  ∀ (i : Instr) (s : State),
    (∀ x, exec i s ≠ .refused x)
      ∧ (∀ a, exec i s = .fault (.uninitRead a) → ramByte a = true ∧ Memory.get? s.mem a = none)
      ∧ (exec i s = .fault .hashHang → s.hashAnswers = false ∧ (i = .ksgen ∨ i = .block))

/-- R58, R180..R183, R286 (a), R312: undefined bytes of RAM that stop a command. LOADKM, XORKS and FEEDBACK stop on a byte of their
buffers, and BLOCK on KM (its other reads are not said here); a valid ROUND, and so MIX24, on a byte of SEL, of KC for a position
below KC_COUNT, or of bytes 0..7 of the round key when there is a selector; ROUND on the two S-box entries that its first
selector looks up (those of later selectors are not said here), at exactly their addresses. That a round stops on an entry of
SEL with one of its two bytes undefined is the model's choice (log 4: R58 marks an entry whole). Which bytes stop a command, and
which of several the fault names, are log 3 and log 14. -/
def Obligations.UndefinedBuffersStopCommands : Prop :=
  ∀ (s : State),
    (∀ k, k < 448 → Memory.get? s.mem (0x0400 + k) = none →
        (∃ a, exec .loadkm s = .fault (.uninitRead a))
        ∧ (TableChecksPass s → ∃ a, exec .block s = .fault (.uninitRead a)))
      ∧ (∀ k, k < 32 → Memory.get? s.mem (0x0040 + k) = none ∨ Memory.get? s.mem (0x0080 + k) = none →
          ∃ a, exec .xorks s = .fault (.uninitRead a))
      ∧ (∀ k, k < 32 → Memory.get? s.mem (0x0060 + k) = none → ∃ a, exec .feedback s = .fault (.uninitRead a))
      ∧ (∀ (rnd : BitVec 5) (k : Nat), rnd.toNat < 24 → TableChecksPass s → ValidRound s rnd.toNat →
          (k < 2 * s.selCount.toNat ∧ Memory.get? s.mem (0x4000 + k) = none)
            ∨ (k < s.selCount.toNat ∧ k < s.kcCount.toNat ∧ Memory.get? s.mem (0x8000 + k) = none)
            ∨ (k < 8 ∧ 0 < s.selCount.toNat ∧ Memory.get? s.mem (0x0800 + 64 * rnd.toNat + k) = none) →
          (∃ a, exec (.round rnd) s = .fault (.uninitRead a)) ∧ ∃ a, exec .mix24 s = .fault (.uninitRead a))
      ∧ (∀ (rnd : BitVec 5) (f : FirstSelector), rnd.toNat < 24 → TableChecksPass s → ValidRound s rnd.toNat →
          f.In s rnd.toNat →
          (Memory.get? s.mem (0x1000 + 256 * rnd.toNat + (f.index s).toNat) = none →
            exec (.round rnd) s = .fault (.uninitRead (0x1000 + 256 * rnd.toNat + (f.index s).toNat)))
          ∧ ∀ b, s.busByte (0x1000 + 256 * rnd.toNat + (f.index s).toNat) = .ok b →
              Memory.get? s.mem (0x1000 + 256 * rnd.toNat + (f.low s b).toNat) = none →
              exec (.round rnd) s = .fault (.uninitRead (0x1000 + 256 * rnd.toNat + (f.low s b).toNat)))

/-- R55, R288: ERR, ERRCODE and RSKIP are sticky: no command clears them, and the code is that of the first error. -/
def Obligations.StatusIsStickyUnderCommands : Prop :=
  ∀ (i : Instr) (s t : State), exec i s = .next t →
    (s.err = true → t.err = true ∧ t.errCode = s.errCode) ∧ (s.rskip = true → t.rskip = true)

/-- R55, R288, R310: only a reset or a host write of STATUS with bit 0 set clears ERR, and only a reset or one with bit 1 set clears
RSKIP. That such a write covers byte 0x0004, in every width, is the model's reading of narrow writes (log 19; events: log 8). -/
def Obligations.OnlyHostClearsErr : Prop :=
  ∀ (s t : State) (e : Event) (rest : List Event), s.events = e :: rest → step s = .next t →
    (s.err = true → t.err = false → e = .reset ∨ ∃ w v, e = .access (.write 0x0004#16 w v) ∧ v.getLsbD 0 = true)
      ∧ (s.rskip = true → t.rskip = false → e = .reset ∨ ∃ w v, e = .access (.write 0x0004#16 w v) ∧ v.getLsbD 1 = true)

/-- R39, R41..R50, R54: no command writes DIN, KM, RK, SBOX, SEL or KC, the counts, the lengths, BLKIDX or CTRL, nor what belongs to
the agents around the unit, but for the hash requests. -/
def Obligations.CommandsLeaveHostInputs : Prop :=
  ∀ (i : Instr) (s t : State), exec i s = .next t →
    t = { s with regs := t.regs, regMarks := t.regMarks, acc := t.acc, accsum := t.accsum, q := t.q, gfr := t.gfr
                 mem := t.mem, err := t.err, rskip := t.rskip, errCode := t.errCode, hashRequests := t.hashRequests }
      ∧ SameBytes HostOnly s t

/-- R92: KSGEN issues one request, of 600 bytes for 32 bytes, BLOCK at most one of that shape, and no other command uses the
port. Said of the model's list of requests (log 11). -/
def Obligations.HashPortUse : Prop :=
  ∀ (i : Instr) (s t : State), exec i s = .next t →
    (i = .ksgen ∨ i = .block ∧ commandCheck .block s = none →
      ∃ m, t.hashRequests = ⟨m, 32⟩ :: s.hashRequests ∧ m.length = 600)
    ∧ (¬ (i = .ksgen ∨ i = .block ∧ commandCheck .block s = none) → t.hashRequests = s.hashRequests)

/-! ## The host bus -/

/-- R73, R77: the unmapped addresses of the window are exactly the gaps of the map. -/
def Obligations.UnmappedAddressesAreTheGaps : Prop :=
  ∀ a, a < 0x10000 →
    (regionOf a = none ↔
      (0x00A0 ≤ a ∧ a < 0x0100) ∨ (0x02C0 ≤ a ∧ a < 0x0300) ∨ (0x0380 ≤ a ∧ a < 0x0400) ∨ (0x05C0 ≤ a ∧ a < 0x0800)
        ∨ (0x0E00 ≤ a ∧ a < 0x1000) ∨ (0x2800 ≤ a ∧ a < 0x4000)
        ∨ (0x4000 + 2 * Config.maxSel ≤ a ∧ a < 0x8000) ∨ 0x8000 + Config.maxSel ≤ a)

/-- R72, R78, R79, R282: a misaligned access records BUS_MISALIGNED, an aligned one with an unmapped byte BUS_UNMAPPED; a failed
read answers 0, a failed write stores nothing. What a read answers goes onto the model's list of answers (log 9). -/
def Obligations.BadAddressesAreReported : Prop :=
  ∀ (s : State) (addr : BitVec 16) (w : Width) (v : BitVec 32),
    (addr.toNat % w.bytes ≠ 0 →
        performAccess (.read addr w) s = .next ((s.raiseError .busMisaligned).pushAnswer 0#32)
        ∧ performAccess (.write addr w v) s = .next (s.raiseError .busMisaligned))
      ∧ (addr.toNat % w.bytes = 0 → (∃ k, k < w.bytes ∧ regionOf (addr.toNat + k) = none) →
        performAccess (.read addr w) s = .next ((s.raiseError .busUnmapped).pushAnswer 0#32)
        ∧ performAccess (.write addr w v) s = .next (s.raiseError .busUnmapped))

/-- R56, R80, R282: a narrow write into CMD records BUS_WIDTH and issues no command; a write into DOUT, KS, ACC, ID, ACCSUM, GFR or
MAXSEL records BUS_READONLY; neither stores anything. That the reserved bytes of GFR's and MAXSEL's words are read-only too is
the model's reading (log 18). -/
def Obligations.ForbiddenWritesStoreNothing : Prop :=
  ∀ (s : State) (addr : BitVec 16) (w : Width) (v : BitVec 32), addr.toNat % w.bytes = 0 →
    (addr.toNat < 4 → w ≠ .w32 → performAccess (.write addr w v) s = .next (s.raiseError .busWidth))
      ∧ ((0x0060 ≤ addr.toNat ∧ addr.toNat < 0x00A0) ∨ (0x0300 ≤ addr.toNat ∧ addr.toNat < 0x0380)
          ∨ (0x000C ≤ addr.toNat ∧ addr.toNat < 0x0010) ∨ (0x0030 ≤ addr.toNat ∧ addr.toNat < 0x0040) →
        performAccess (.write addr w v) s = .next (s.raiseError .busReadonly))

/-- R283: recording an error keeps the first code since the last clear, sets ERR and writes nothing else. -/
def Obligations.FirstErrorCodeIsKept : Prop :=
  ∀ (s : State) (c : ErrorCode),
    (s.err = false → s.raiseError c = { s with err := true, errCode := c })
      ∧ (s.err = true → s.raiseError c = s)

/-- R58, R71, R82, R286 (a): a read that passes its checks answers its bytes, least significant first, changes nothing but what the
host has been told, and answers the same again; one that touches an undefined byte of RAM is UninitRead, at an undefined byte
of its own (log 14). What a read answers goes onto the model's list of answers (log 9). -/
def Obligations.ReadsAnswerBytesInOrder : Prop :=
  ∀ (s : State) (addr : BitVec 16) (w : Width), busCheck (.read addr w) = none →
    (∀ f : Nat → Byte, (∀ k, k < w.bytes → s.busByte (addr.toNat + k) = .ok (f k)) →
      ∃ v, performAccess (.read addr w) s = .next { s with answers := v :: s.answers }
        ∧ v.toNat = ∑ k ∈ Finset.range w.bytes, (f k).toNat * 2 ^ (8 * k)
        ∧ performAccess (.read addr w) { s with answers := v :: s.answers }
            = .next { s with answers := v :: v :: s.answers })
      ∧ (∀ k, k < w.bytes → ramByte (addr.toNat + k) = true → Memory.get? s.mem (addr.toNat + k) = none →
        ∃ j, j < w.bytes ∧ Memory.get? s.mem (addr.toNat + j) = none
          ∧ performAccess (.read addr w) s = .fault (.uninitRead (addr.toNat + j)))

/-- R34, R51, R52, R53, R55, R56, R74, R75: what the sixteen control registers read as, reserved bits 0; and that a byte read at
0x0100 + 64i + j answers R[i][j], and one at 0x0300 + j answers ACC[j] (answers: log 9). -/
def Obligations.ControlRegistersReadAsMapped : Prop :=
  ∀ (s : State),
    let rd := fun a => performAccess (.read a .w32) s
    rd 0x0000#16 = .next (s.pushAnswer 0#32)
      ∧ rd 0x0004#16 = .next (s.pushAnswer (0#16 ++ s.errCode.code ++ 0#6 ++ BitVec.ofBool s.rskip ++ BitVec.ofBool s.err))
      ∧ rd 0x0008#16 = .next (s.pushAnswer (0#31 ++ BitVec.ofBool s.strict))
      ∧ rd 0x000C#16 = .next (s.pushAnswer 0x52554301#32)
      ∧ rd 0x0010#16 = .next (s.pushAnswer (0#16 ++ s.selCount))
      ∧ rd 0x0014#16 = .next (s.pushAnswer (0#16 ++ s.kcCount))
      ∧ rd 0x0018#16 = .next (s.pushAnswer (0#16 ++ s.sbLen))
      ∧ rd 0x001C#16 = .next (s.pushAnswer (0#16 ++ s.rkLen))
      ∧ rd 0x0020#16 = .next (s.pushAnswer (s.blkIdx.extractLsb' 0 32))
      ∧ rd 0x0024#16 = .next (s.pushAnswer (s.blkIdx.extractLsb' 32 32))
      ∧ rd 0x0028#16 = .next (s.pushAnswer (s.q.extractLsb' 0 32))
      ∧ rd 0x002C#16 = .next (s.pushAnswer (s.q.extractLsb' 32 32))
      ∧ rd 0x0030#16 = .next (s.pushAnswer (s.accsum.extractLsb' 0 32))
      ∧ rd 0x0034#16 = .next (s.pushAnswer (s.accsum.extractLsb' 32 32))
      ∧ rd 0x0038#16 = .next (s.pushAnswer (0#24 ++ s.gfr))
      ∧ rd 0x003C#16 = .next (s.pushAnswer (BitVec.ofNat 32 Config.maxSel))
      ∧ (∀ (i : Fin 7) (j : Fin 64), performAccess (.read (BitVec.ofNat 16 (0x0100 + 64 * i.val + j.val)) .w8) s
          = .next (s.pushAnswer (0#24 ++ (s.regs[i])[j])))
      ∧ (∀ j : Fin 128, performAccess (.read (BitVec.ofNat 16 (0x0300 + j.val)) .w8) s
          = .next (s.pushAnswer (0#24 ++ s.acc[j])))

/-- R46..R50, R54, R81: what a 4-byte write of a writable control register does, reserved bits ignored; and that a byte write
touches only its byte. -/
def Obligations.ControlRegisterWrites : Prop :=
  ∀ (s : State) (v : BitVec 32),
    let wr := fun a => performAccess (.write a .w32 v) s
    wr 0x0008#16 = .next { s with strict := v.getLsbD 0 }
      ∧ wr 0x0010#16 = .next { s with selCount := v.setWidth 16 }
      ∧ wr 0x0014#16 = .next { s with kcCount := v.setWidth 16 }
      ∧ wr 0x0018#16 = .next { s with sbLen := v.setWidth 16 }
      ∧ wr 0x001C#16 = .next { s with rkLen := v.setWidth 16 }
      ∧ wr 0x0020#16 = .next { s with blkIdx := s.blkIdx.extractLsb' 32 32 ++ v }
      ∧ wr 0x0024#16 = .next { s with blkIdx := v ++ s.blkIdx.extractLsb' 0 32 }
      ∧ wr 0x0028#16 = .next { s with q := s.q.extractLsb' 32 32 ++ v }
      ∧ wr 0x002C#16 = .next { s with q := v ++ s.q.extractLsb' 0 32 }
      ∧ performAccess (.write 0x0019#16 .w8 v) s = .next { s with sbLen := v.setWidth 8 ++ s.sbLen.setWidth 8 }
      ∧ performAccess (.write 0x001A#16 .w16 v) s = .next s

/-- R55, R288: a 4-byte write of STATUS is write-1-to-clear: bit 0 clears ERR and ERRCODE, bit 1 clears RSKIP, nothing else of the
write counts. -/
def Obligations.StatusWriteOneToClear : Prop :=
  ∀ (s : State) (v : BitVec 32),
    performAccess (.write 0x0004#16 .w32 v) s = .next { s with
      err := s.err && !v.getLsbD 0
      errCode := if v.getLsbD 0 then .noError else s.errCode
      rskip := s.rskip && !v.getLsbD 1 }

/-- R71, R74, R76, R77, R86: a write that passes its checks into a region the host may write is read back by a read of the same
address and width, defines exactly its bytes, and leaves every other byte and every other field as it was; a byte write at
0x0100 + 64i + j writes R[i][j]. The two bytes of an entry of SEL are defined apart by the model's choice (log 4; answers: log 9). -/
def Obligations.WritesAreReadBack : Prop :=
  (∀ (s : State) (addr : BitVec 16) (w : Width) (v : BitVec 32), busCheck (.write addr w v) = none →
    HostWritable addr.toNat →
    ∃ t, performAccess (.write addr w v) s = .next t
      ∧ performAccess (.read addr w) t = .next (t.pushAnswer (v &&& BitVec.ofNat 32 (2 ^ (8 * w.bytes) - 1)))
      ∧ (∀ k, k < w.bytes → t.isDefined (addr.toNat + k) = true)
      ∧ t = { s with regs := t.regs, regMarks := t.regMarks, mem := t.mem }
      ∧ SameBytes (Outside addr.toNat w.bytes) s t
      ∧ (∀ a, Outside addr.toNat w.bytes a → a < 0x10000 → t.isDefined a = s.isDefined a))
  ∧ ∀ (s : State) (i : Fin 7) (j : Fin 64) (v : BitVec 32),
      ∃ t, performAccess (.write (BitVec.ofNat 16 (0x0100 + 64 * i.val + j.val)) .w8 v) s = .next t
        ∧ (t.regs[i])[j] = v.setWidth 8 ∧ (t.regMarks[i])[j] = true
        ∧ (∀ (i' : Fin 7) (j' : Fin 64), (i', j') ≠ (i, j) →
            (t.regs[i'])[j'] = (s.regs[i'])[j'] ∧ (t.regMarks[i'])[j'] = (s.regMarks[i'])[j'])
        ∧ t = { s with regs := t.regs, regMarks := t.regMarks }

/-! ## Reset and the invariant -/

/-- R58, R59: what reset leaves, the values the spec gives: every byte of R and of the RAM regions undefined, the rest zero. -/
def Obligations.ResetValues : Prop :=
  (∀ j : Fin 128, State.reset.acc[j] = 0#8)
    ∧ State.reset.accsum = 0#64 ∧ State.reset.q = 0#64 ∧ State.reset.gfr = 0#8
    ∧ State.reset.selCount = 0#16 ∧ State.reset.kcCount = 0#16 ∧ State.reset.sbLen = 0#16 ∧ State.reset.rkLen = 0#16
    ∧ State.reset.blkIdx = 0#64 ∧ State.reset.strict = false
    ∧ State.reset.err = false ∧ State.reset.rskip = false ∧ State.reset.errCode.code = 0x00#8
    ∧ State.reset.controlWord 3 = 0x52554301#32 ∧ State.reset.controlWord 15 = BitVec.ofNat 32 Config.maxSel
    ∧ (∀ a, regionOf a = some .reg ∨ ramByte a = true → State.reset.isDefined a = false)

/-- The invariant holds at reset. -/
def Obligations.ResetMeetsTheInvariant : Prop := Invariant State.reset

/-- R34, R55, R73: every step from a state that meets the invariant leads to one that meets it, whatever is pending. -/
def Obligations.EveryStepKeepsTheInvariant : Prop := ∀ s t : State, Invariant s → step s = .next t → Invariant t

/-! ## The host's procedures -/

/-- R252, R253: the ordered list is the list permuted by the one stable ascending permutation of its priorities. -/
def Obligations.SelectorOrderIsStable : Prop :=
  ∀ (ps : List Nat) (sels : List (BitVec 16)), ps.length = sels.length →
    (stableOrder ps sels).Perm sels
      ∧ ∃ perm : List Nat, StablePerm ps perm ∧ (∀ other, StablePerm ps other → other = perm)
          ∧ stableOrder ps sels = perm.map (fun i => sels.getD i 0#16)

/-- R256: a batch's output is the whole blocks of its input, 32 bytes each, whatever the unit's state before. The host's
procedures are the model's functions over its accesses (log 15, log 16). -/
def Obligations.BatchOutputLength : Prop :=
  ∀ (x : BatchArgs) (s : State) (out : List Byte), encryptBatch x s = some (.next out) →
    out.length = x.plaintext.length / 32 * 32

/-- R255, R259, R261: a batch the host admits, with a hash engine that answers, completes from every state, and running the identical
batch on its output gives the whole blocks of the input back (log 10, log 15, log 16). -/
def Obligations.BatchRoundTrip : Prop :=
  ∀ (x : BatchArgs) (s s' : State), x.admitted = true → s.hashAnswers = true → s'.hashAnswers = true →
    ∃ out, encryptBatch x s = some (.next out)
      ∧ decryptBatch { x with plaintext := out } s' = some (.next (x.plaintext.take (x.plaintext.length / 32 * 32)))

/-- R260, R291: the strict entry shows its error. With S-boxes or round keys of another length than 6144 and 1536 bytes, the host
that looks at STATUS after each BLOCK reads INVALID_INPUT_SIZE after the first and reads no DOUT; the host that looks once at
the end reads it there, and DOUT as it was before the batch for every block. With tables of those lengths the output is that of
the permissive batch, and every STATUS the host reads is 0. That the host clears STATUS first and ends at the first error it
sees is the model's choice (log 23; the batch: log 10, log 15, log 16). -/
def Obligations.StrictBatchShowsItsError : Prop :=
  ∀ (x : BatchArgs) (s : State), x.admitted = true →
    (x.sboxes.length ≠ 6144 ∨ x.roundKeys.length ≠ 1536 → 0 < x.blocks →
        encryptBatchStrict .eachBlock x s = some (.next ⟨[], [0x00000601#32]⟩)
        ∧ ∀ dout : Vector Byte 32, Holds s 0x0060 dout →
            encryptBatchStrict .atEnd x s
              = some (.next ⟨(List.replicate x.blocks dout.toList).flatten, [0x00000601#32]⟩))
      ∧ (x.sboxes.length = 6144 → x.roundKeys.length = 1536 → s.hashAnswers = true →
        ∃ out, encryptBatch x s = some (.next out)
          ∧ encryptBatchStrict .eachBlock x s = some (.next ⟨out, List.replicate x.blocks 0#32⟩)
          ∧ encryptBatchStrict .atEnd x s = some (.next ⟨out, [0#32]⟩))
end

