-- ==== Sys2Proof/Laws/Memory.lean ====
section
/-! SUPPORT. The laws of RAM: a read after a write, the frame of a write, and the canonical form, for one byte, for a list of bytes
and for a buffer. -/

namespace Sys2Proof.Machine

/-! ## One byte -/

@[simp] theorem Memory.get?_nil (a : Nat) : Memory.get? [] a = none := rfl

theorem Memory.get?_cons (k : Nat) (b : Byte) (m : Memory) (a : Nat) :
    Memory.get? ((k, b) :: m) a = if k = a then some b else Memory.get? m a := rfl

@[simp] theorem Memory.get?_set_same (m : Memory) (a : Nat) (b : Byte) : Memory.get? (Memory.set m a b) a = some b := by
  induction m with
  | nil => simp [Memory.set, Memory.get?]
  | cons c m ih =>
    obtain ⟨k, c⟩ := c
    simp only [Memory.set]
    split
    · simp [Memory.get?]
    · split
      · simp [Memory.get?]
      · rename_i h1 h2
        simp [Memory.get?, ih, Ne.symm h2]

theorem Memory.get?_set_ne (m : Memory) {a x : Nat} (b : Byte) (h : x ≠ a) :
    Memory.get? (Memory.set m a b) x = Memory.get? m x := by
  induction m with
  | nil => simp [Memory.set, Memory.get?, Ne.symm h]
  | cons c m ih =>
    obtain ⟨k, c⟩ := c
    simp only [Memory.set]
    split
    · simp [Memory.get?, Ne.symm h]
    · split
      · rename_i h1 h2
        subst h2
        simp [Memory.get?, Ne.symm h]
      · simp [Memory.get?, ih]

theorem Memory.get?_set (m : Memory) (a x : Nat) (b : Byte) :
    Memory.get? (Memory.set m a b) x = if x = a then some b else Memory.get? m x := by
  split
  · next h => subst h; exact Memory.get?_set_same m x b
  · next h => exact Memory.get?_set_ne m b h

/-- Every entry after a write is an old one or the written one. -/
theorem Memory.mem_set {m : Memory} {a : Nat} {b : Byte} {c : Host.Cell} (h : c ∈ Memory.set m a b) :
    c = (a, b) ∨ c ∈ m := by
  induction m with
  | nil => simpa [Memory.set] using h
  | cons d m ih =>
    obtain ⟨k, d⟩ := d
    simp only [Memory.set] at h
    split at h
    · simpa using h
    · split at h
      · rcases List.mem_cons.1 h with h | h
        · exact .inl h
        · exact .inr (List.mem_cons_of_mem _ h)
      · rcases List.mem_cons.1 h with h | h
        · exact .inr (h ▸ List.mem_cons_self)
        · rcases ih h with h | h
          · exact .inl h
          · exact .inr (List.mem_cons_of_mem _ h)

/-- A write keeps the canonical form. -/
theorem Memory.wf_set {m : Memory} (h : Memory.wf m) (a : Nat) (b : Byte) : Memory.wf (Memory.set m a b) := by
  induction m with
  | nil => simp [Memory.set, Memory.wf]
  | cons d m ih =>
    obtain ⟨k, d⟩ := d
    obtain ⟨hk, hm⟩ := List.pairwise_cons.1 h
    simp only [Memory.set]
    split
    · next hlt =>
      refine List.pairwise_cons.2 ⟨fun c hc => ?_, h⟩
      rcases List.mem_cons.1 hc with rfl | hc
      · exact hlt
      · exact lt_trans hlt (hk c hc)
    · split
      · next heq => subst heq; exact List.pairwise_cons.2 ⟨hk, hm⟩
      · next hge hne =>
        refine List.pairwise_cons.2 ⟨fun c hc => ?_, ih hm⟩
        rcases Memory.mem_set hc with rfl | hc
        · show k < a
          omega
        · exact hk c hc

/-! ## Consecutive bytes -/

/-- After a write of a list, the written addresses hold the list and every other address is as before. -/
theorem Memory.get?_setList (m : Memory) (a x : Nat) (bs : List Byte) :
    Memory.get? (Memory.setList m a bs) x = if a ≤ x ∧ x < a + bs.length then bs[x - a]? else Memory.get? m x := by
  induction bs generalizing m a with
  | nil =>
    have h : ¬ (a ≤ x ∧ x < a + ([] : List Byte).length) := by simp
    rw [if_neg h]; rfl
  | cons b bs ih =>
    rw [Memory.setList, ih, Memory.get?_set]
    simp only [List.length_cons]
    by_cases h1 : x = a
    · subst h1
      rw [if_neg (by omega), if_pos rfl, if_pos (by omega)]
      simp
    · by_cases h2 : a + 1 ≤ x ∧ x < a + 1 + bs.length
      · rw [if_pos h2, if_pos (by omega)]
        obtain ⟨k, hk⟩ : ∃ k, x - a = k + 1 := ⟨x - a - 1, by omega⟩
        rw [hk, List.getElem?_cons_succ]
        congr 1
        omega
      · rw [if_neg h2, if_neg h1, if_neg (by omega)]

theorem Memory.mem_setList {m : Memory} {a : Nat} {bs : List Byte} {c : Host.Cell} (h : c ∈ Memory.setList m a bs) :
    (a ≤ c.1 ∧ c.1 < a + bs.length) ∨ c ∈ m := by
  induction bs generalizing m a with
  | nil => exact .inr h
  | cons b bs ih =>
    rcases ih h with h | h
    · left; simp only [List.length_cons]; omega
    · rcases Memory.mem_set h with rfl | h
      · left; simp
      · exact .inr h

theorem Memory.wf_setList {m : Memory} (h : Memory.wf m) (a : Nat) (bs : List Byte) :
    Memory.wf (Memory.setList m a bs) := by
  induction bs generalizing m a with
  | nil => exact h
  | cons b bs ih => exact ih (Memory.wf_set h a b) (a + 1)

/-- A write of a buffer of n bytes, byte by byte. -/
theorem State.get?_writeBuffer {n : Nat} (s : State) (a : Nat) (v : Vector Byte n) (x : Nat) :
    Memory.get? (s.writeBuffer a v).mem x =
      if h : a ≤ x ∧ x < a + n then some (v[x - a]'(by omega)) else Memory.get? s.mem x := by
  show Memory.get? (Memory.setList s.mem a v.toList) x = _
  rw [Memory.get?_setList]
  by_cases h : a ≤ x ∧ x < a + n
  · rw [dif_pos h, if_pos (by simpa using h)]
    rw [List.getElem?_eq_getElem (by simp; omega)]
    simp
  · rw [dif_neg h, if_neg (by simpa using h)]

theorem State.get?_writeBuffer_fin {n : Nat} (s : State) (a : Nat) (v : Vector Byte n) (j : Fin n) :
    Memory.get? (s.writeBuffer a v).mem (a + j.val) = some v[j] := by
  rw [State.get?_writeBuffer, dif_pos (by omega)]
  simp

theorem State.get?_writeBuffer_outside {n : Nat} (s : State) (a : Nat) (v : Vector Byte n) {x : Nat}
    (h : x < a ∨ a + n ≤ x) : Memory.get? (s.writeBuffer a v).mem x = Memory.get? s.mem x := by
  rw [State.get?_writeBuffer, dif_neg (by omega)]

/-! ## Reading -/

/-- Reading a byte answers it exactly when it is defined. -/
theorem State.readByte_eq_ok {s : State} {a : Nat} {b : Byte} :
    s.readByte a = .ok b ↔ Memory.get? s.mem a = some b := by
  unfold State.readByte
  split
  · next h => simp [h]
  · next h => simp [h]

/-- Reading a byte faults exactly when it is undefined, at its own address. -/
theorem State.readByte_eq_error {s : State} {a : Nat} {f : Fault} :
    s.readByte a = .error f ↔ Memory.get? s.mem a = none ∧ f = .uninitRead a := by
  unfold State.readByte
  split
  · next h => simp [h]
  · next h => simp [h, eq_comm]

theorem firstUndefined_eq_none {m : Memory} {a n : Nat} :
    firstUndefined m a n = none ↔ ∀ i, i < n → (Memory.get? m (a + i)).isSome := by
  induction n generalizing a with
  | zero => simp [firstUndefined]
  | succ n ih =>
    simp only [firstUndefined]
    split
    · next h =>
      constructor
      · intro e; cases e
      · intro e; simpa [h] using e 0 (by omega)
    · next b h =>
      rw [ih]
      constructor
      · intro e i hi
        rcases i with _ | i
        · simp [h]
        · have := e i (by omega)
          rwa [show a + 1 + i = a + (i + 1) by omega] at this
      · intro e i hi
        have := e (i + 1) (by omega)
        rwa [show a + (i + 1) = a + 1 + i by omega] at this

theorem firstUndefined_eq_some {m : Memory} {a n u : Nat} (h : firstUndefined m a n = some u) :
    a ≤ u ∧ u < a + n ∧ Memory.get? m u = none := by
  induction n generalizing a with
  | zero => simp [firstUndefined] at h
  | succ n ih =>
    simp only [firstUndefined] at h
    split at h
    · next hn => cases h; exact ⟨le_rfl, by omega, hn⟩
    · obtain ⟨h1, h2, h3⟩ := ih h
      exact ⟨by omega, by omega, h3⟩

/-- Reading a buffer answers a vector exactly when it holds the bytes of RAM one by one. -/
theorem State.readBuffer_eq_ok {s : State} {a n : Nat} {v : Vector Byte n} :
    s.readBuffer a n = .ok v ↔ ∀ i : Fin n, Memory.get? s.mem (a + i.val) = some v[i] := by
  unfold State.readBuffer
  split
  · next u h =>
    obtain ⟨h1, h2, h3⟩ := firstUndefined_eq_some h
    constructor
    · intro e; cases e
    · intro e
      have := e ⟨u - a, by omega⟩
      rw [show a + (u - a) = u by omega, h3] at this
      cases this
  · next h =>
    have hd := firstUndefined_eq_none.1 h
    constructor
    · intro e i
      cases e
      have := hd i.val i.isLt
      obtain ⟨b, hb⟩ := Option.isSome_iff_exists.1 this
      simp [hb]
    · intro e
      congr 1
      ext i hi
      have := e ⟨i, hi⟩
      simp only at this
      simp [this]

/-- Reading a buffer faults only at an undefined address of the buffer. -/
theorem State.readBuffer_eq_error {s : State} {a n : Nat} {f : Fault} (h : s.readBuffer a n = .error f) :
    ∃ u, f = .uninitRead u ∧ a ≤ u ∧ u < a + n ∧ Memory.get? s.mem u = none := by
  unfold State.readBuffer at h
  split at h
  · next u hu => cases h; exact ⟨u, rfl, firstUndefined_eq_some hu⟩
  · cases h

/-- Reading a buffer depends on its own bytes of RAM only. -/
theorem State.readBuffer_congr {s t : State} {a n : Nat}
    (h : ∀ i, i < n → Memory.get? t.mem (a + i) = Memory.get? s.mem (a + i)) :
    t.readBuffer a n = s.readBuffer a n := by
  have hf : ∀ k b, (∀ i, i < k → Memory.get? t.mem (b + i) = Memory.get? s.mem (b + i)) →
      firstUndefined t.mem b k = firstUndefined s.mem b k := by
    intro k
    induction k with
    | zero => intro b _; rfl
    | succ k ih =>
      intro b hb
      have h0 := hb 0 (by omega)
      simp only [Nat.add_zero] at h0
      simp only [firstUndefined, h0]
      rw [ih (b + 1) fun i hi => by
        have := hb (i + 1) (by omega)
        rwa [show b + (i + 1) = b + 1 + i by omega] at this]
  unfold State.readBuffer
  rw [hf n a h]
  split
  · rfl
  · congr 1
    ext i hi
    simp [h i hi]

/-- A buffer just written reads back. -/
theorem State.readBuffer_writeBuffer {n : Nat} (s : State) (a : Nat) (v : Vector Byte n) :
    (s.writeBuffer a v).readBuffer a n = .ok v :=
  State.readBuffer_eq_ok.2 fun i => State.get?_writeBuffer_fin s a v i

/-- The empty RAM is in canonical form, and so is the RAM of reset. -/
theorem Memory.wf_nil : Memory.wf ([] : Memory) := List.Pairwise.nil

theorem State.reset_mem_wf : Memory.wf State.reset.mem := Memory.wf_nil

end Sys2Proof.Machine
end

