-- ==== Sys2Proof/Laws/State.lean ====
section
/-! SUPPORT. One lemma per field per update of the state, so that no proof unfolds a record update. -/

namespace Sys2Proof.Machine

/-! `setReg` -/

@[simp] theorem State.setReg_regs (s : State) (i : Fin 7) (v : Reg512) : (s.setReg i v).regs = s.regs.set i v := rfl
@[simp] theorem State.setReg_regMarks (s : State) (i : Fin 7) (v : Reg512) : (s.setReg i v).regMarks = s.regMarks.set i (Vector.replicate 64 true) := rfl
@[simp] theorem State.setReg_acc (s : State) (i : Fin 7) (v : Reg512) : (s.setReg i v).acc = s.acc := rfl
@[simp] theorem State.setReg_accsum (s : State) (i : Fin 7) (v : Reg512) : (s.setReg i v).accsum = s.accsum := rfl
@[simp] theorem State.setReg_q (s : State) (i : Fin 7) (v : Reg512) : (s.setReg i v).q = s.q := rfl
@[simp] theorem State.setReg_gfr (s : State) (i : Fin 7) (v : Reg512) : (s.setReg i v).gfr = s.gfr := rfl
@[simp] theorem State.setReg_mem (s : State) (i : Fin 7) (v : Reg512) : (s.setReg i v).mem = s.mem := rfl
@[simp] theorem State.setReg_selCount (s : State) (i : Fin 7) (v : Reg512) : (s.setReg i v).selCount = s.selCount := rfl
@[simp] theorem State.setReg_kcCount (s : State) (i : Fin 7) (v : Reg512) : (s.setReg i v).kcCount = s.kcCount := rfl
@[simp] theorem State.setReg_sbLen (s : State) (i : Fin 7) (v : Reg512) : (s.setReg i v).sbLen = s.sbLen := rfl
@[simp] theorem State.setReg_rkLen (s : State) (i : Fin 7) (v : Reg512) : (s.setReg i v).rkLen = s.rkLen := rfl
@[simp] theorem State.setReg_blkIdx (s : State) (i : Fin 7) (v : Reg512) : (s.setReg i v).blkIdx = s.blkIdx := rfl
@[simp] theorem State.setReg_strict (s : State) (i : Fin 7) (v : Reg512) : (s.setReg i v).strict = s.strict := rfl
@[simp] theorem State.setReg_err (s : State) (i : Fin 7) (v : Reg512) : (s.setReg i v).err = s.err := rfl
@[simp] theorem State.setReg_rskip (s : State) (i : Fin 7) (v : Reg512) : (s.setReg i v).rskip = s.rskip := rfl
@[simp] theorem State.setReg_errCode (s : State) (i : Fin 7) (v : Reg512) : (s.setReg i v).errCode = s.errCode := rfl
@[simp] theorem State.setReg_events (s : State) (i : Fin 7) (v : Reg512) : (s.setReg i v).events = s.events := rfl
@[simp] theorem State.setReg_answers (s : State) (i : Fin 7) (v : Reg512) : (s.setReg i v).answers = s.answers := rfl
@[simp] theorem State.setReg_hashRequests (s : State) (i : Fin 7) (v : Reg512) : (s.setReg i v).hashRequests = s.hashRequests := rfl
@[simp] theorem State.setReg_hashAnswers (s : State) (i : Fin 7) (v : Reg512) : (s.setReg i v).hashAnswers = s.hashAnswers := rfl

/-! `setRegByte` -/

@[simp] theorem State.setRegByte_regs (s : State) (i : Fin 7) (j : Fin 64) (b : Byte) : (s.setRegByte i j b).regs = s.regs.set i (s.regs[i].set j b) := rfl
@[simp] theorem State.setRegByte_regMarks (s : State) (i : Fin 7) (j : Fin 64) (b : Byte) : (s.setRegByte i j b).regMarks = s.regMarks.set i (s.regMarks[i].set j true) := rfl
@[simp] theorem State.setRegByte_acc (s : State) (i : Fin 7) (j : Fin 64) (b : Byte) : (s.setRegByte i j b).acc = s.acc := rfl
@[simp] theorem State.setRegByte_accsum (s : State) (i : Fin 7) (j : Fin 64) (b : Byte) : (s.setRegByte i j b).accsum = s.accsum := rfl
@[simp] theorem State.setRegByte_q (s : State) (i : Fin 7) (j : Fin 64) (b : Byte) : (s.setRegByte i j b).q = s.q := rfl
@[simp] theorem State.setRegByte_gfr (s : State) (i : Fin 7) (j : Fin 64) (b : Byte) : (s.setRegByte i j b).gfr = s.gfr := rfl
@[simp] theorem State.setRegByte_mem (s : State) (i : Fin 7) (j : Fin 64) (b : Byte) : (s.setRegByte i j b).mem = s.mem := rfl
@[simp] theorem State.setRegByte_selCount (s : State) (i : Fin 7) (j : Fin 64) (b : Byte) : (s.setRegByte i j b).selCount = s.selCount := rfl
@[simp] theorem State.setRegByte_kcCount (s : State) (i : Fin 7) (j : Fin 64) (b : Byte) : (s.setRegByte i j b).kcCount = s.kcCount := rfl
@[simp] theorem State.setRegByte_sbLen (s : State) (i : Fin 7) (j : Fin 64) (b : Byte) : (s.setRegByte i j b).sbLen = s.sbLen := rfl
@[simp] theorem State.setRegByte_rkLen (s : State) (i : Fin 7) (j : Fin 64) (b : Byte) : (s.setRegByte i j b).rkLen = s.rkLen := rfl
@[simp] theorem State.setRegByte_blkIdx (s : State) (i : Fin 7) (j : Fin 64) (b : Byte) : (s.setRegByte i j b).blkIdx = s.blkIdx := rfl
@[simp] theorem State.setRegByte_strict (s : State) (i : Fin 7) (j : Fin 64) (b : Byte) : (s.setRegByte i j b).strict = s.strict := rfl
@[simp] theorem State.setRegByte_err (s : State) (i : Fin 7) (j : Fin 64) (b : Byte) : (s.setRegByte i j b).err = s.err := rfl
@[simp] theorem State.setRegByte_rskip (s : State) (i : Fin 7) (j : Fin 64) (b : Byte) : (s.setRegByte i j b).rskip = s.rskip := rfl
@[simp] theorem State.setRegByte_errCode (s : State) (i : Fin 7) (j : Fin 64) (b : Byte) : (s.setRegByte i j b).errCode = s.errCode := rfl
@[simp] theorem State.setRegByte_events (s : State) (i : Fin 7) (j : Fin 64) (b : Byte) : (s.setRegByte i j b).events = s.events := rfl
@[simp] theorem State.setRegByte_answers (s : State) (i : Fin 7) (j : Fin 64) (b : Byte) : (s.setRegByte i j b).answers = s.answers := rfl
@[simp] theorem State.setRegByte_hashRequests (s : State) (i : Fin 7) (j : Fin 64) (b : Byte) : (s.setRegByte i j b).hashRequests = s.hashRequests := rfl
@[simp] theorem State.setRegByte_hashAnswers (s : State) (i : Fin 7) (j : Fin 64) (b : Byte) : (s.setRegByte i j b).hashAnswers = s.hashAnswers := rfl

/-! `setRegs` -/

@[simp] theorem State.setRegs_regs (s : State) (rs : Regs) : (s.setRegs rs).regs = rs := rfl
@[simp] theorem State.setRegs_regMarks (s : State) (rs : Regs) : (s.setRegs rs).regMarks = Vector.replicate 7 (Vector.replicate 64 true) := rfl
@[simp] theorem State.setRegs_acc (s : State) (rs : Regs) : (s.setRegs rs).acc = s.acc := rfl
@[simp] theorem State.setRegs_accsum (s : State) (rs : Regs) : (s.setRegs rs).accsum = s.accsum := rfl
@[simp] theorem State.setRegs_q (s : State) (rs : Regs) : (s.setRegs rs).q = s.q := rfl
@[simp] theorem State.setRegs_gfr (s : State) (rs : Regs) : (s.setRegs rs).gfr = s.gfr := rfl
@[simp] theorem State.setRegs_mem (s : State) (rs : Regs) : (s.setRegs rs).mem = s.mem := rfl
@[simp] theorem State.setRegs_selCount (s : State) (rs : Regs) : (s.setRegs rs).selCount = s.selCount := rfl
@[simp] theorem State.setRegs_kcCount (s : State) (rs : Regs) : (s.setRegs rs).kcCount = s.kcCount := rfl
@[simp] theorem State.setRegs_sbLen (s : State) (rs : Regs) : (s.setRegs rs).sbLen = s.sbLen := rfl
@[simp] theorem State.setRegs_rkLen (s : State) (rs : Regs) : (s.setRegs rs).rkLen = s.rkLen := rfl
@[simp] theorem State.setRegs_blkIdx (s : State) (rs : Regs) : (s.setRegs rs).blkIdx = s.blkIdx := rfl
@[simp] theorem State.setRegs_strict (s : State) (rs : Regs) : (s.setRegs rs).strict = s.strict := rfl
@[simp] theorem State.setRegs_err (s : State) (rs : Regs) : (s.setRegs rs).err = s.err := rfl
@[simp] theorem State.setRegs_rskip (s : State) (rs : Regs) : (s.setRegs rs).rskip = s.rskip := rfl
@[simp] theorem State.setRegs_errCode (s : State) (rs : Regs) : (s.setRegs rs).errCode = s.errCode := rfl
@[simp] theorem State.setRegs_events (s : State) (rs : Regs) : (s.setRegs rs).events = s.events := rfl
@[simp] theorem State.setRegs_answers (s : State) (rs : Regs) : (s.setRegs rs).answers = s.answers := rfl
@[simp] theorem State.setRegs_hashRequests (s : State) (rs : Regs) : (s.setRegs rs).hashRequests = s.hashRequests := rfl
@[simp] theorem State.setRegs_hashAnswers (s : State) (rs : Regs) : (s.setRegs rs).hashAnswers = s.hashAnswers := rfl

/-! `writeBuffer` -/

@[simp] theorem State.writeBuffer_regs {n : Nat} (s : State) (a : Nat) (v : Vector Byte n) : (s.writeBuffer a v).regs = s.regs := rfl
@[simp] theorem State.writeBuffer_regMarks {n : Nat} (s : State) (a : Nat) (v : Vector Byte n) : (s.writeBuffer a v).regMarks = s.regMarks := rfl
@[simp] theorem State.writeBuffer_acc {n : Nat} (s : State) (a : Nat) (v : Vector Byte n) : (s.writeBuffer a v).acc = s.acc := rfl
@[simp] theorem State.writeBuffer_accsum {n : Nat} (s : State) (a : Nat) (v : Vector Byte n) : (s.writeBuffer a v).accsum = s.accsum := rfl
@[simp] theorem State.writeBuffer_q {n : Nat} (s : State) (a : Nat) (v : Vector Byte n) : (s.writeBuffer a v).q = s.q := rfl
@[simp] theorem State.writeBuffer_gfr {n : Nat} (s : State) (a : Nat) (v : Vector Byte n) : (s.writeBuffer a v).gfr = s.gfr := rfl
@[simp] theorem State.writeBuffer_mem {n : Nat} (s : State) (a : Nat) (v : Vector Byte n) : (s.writeBuffer a v).mem = Memory.setList s.mem a v.toList := rfl
@[simp] theorem State.writeBuffer_selCount {n : Nat} (s : State) (a : Nat) (v : Vector Byte n) : (s.writeBuffer a v).selCount = s.selCount := rfl
@[simp] theorem State.writeBuffer_kcCount {n : Nat} (s : State) (a : Nat) (v : Vector Byte n) : (s.writeBuffer a v).kcCount = s.kcCount := rfl
@[simp] theorem State.writeBuffer_sbLen {n : Nat} (s : State) (a : Nat) (v : Vector Byte n) : (s.writeBuffer a v).sbLen = s.sbLen := rfl
@[simp] theorem State.writeBuffer_rkLen {n : Nat} (s : State) (a : Nat) (v : Vector Byte n) : (s.writeBuffer a v).rkLen = s.rkLen := rfl
@[simp] theorem State.writeBuffer_blkIdx {n : Nat} (s : State) (a : Nat) (v : Vector Byte n) : (s.writeBuffer a v).blkIdx = s.blkIdx := rfl
@[simp] theorem State.writeBuffer_strict {n : Nat} (s : State) (a : Nat) (v : Vector Byte n) : (s.writeBuffer a v).strict = s.strict := rfl
@[simp] theorem State.writeBuffer_err {n : Nat} (s : State) (a : Nat) (v : Vector Byte n) : (s.writeBuffer a v).err = s.err := rfl
@[simp] theorem State.writeBuffer_rskip {n : Nat} (s : State) (a : Nat) (v : Vector Byte n) : (s.writeBuffer a v).rskip = s.rskip := rfl
@[simp] theorem State.writeBuffer_errCode {n : Nat} (s : State) (a : Nat) (v : Vector Byte n) : (s.writeBuffer a v).errCode = s.errCode := rfl
@[simp] theorem State.writeBuffer_events {n : Nat} (s : State) (a : Nat) (v : Vector Byte n) : (s.writeBuffer a v).events = s.events := rfl
@[simp] theorem State.writeBuffer_answers {n : Nat} (s : State) (a : Nat) (v : Vector Byte n) : (s.writeBuffer a v).answers = s.answers := rfl
@[simp] theorem State.writeBuffer_hashRequests {n : Nat} (s : State) (a : Nat) (v : Vector Byte n) : (s.writeBuffer a v).hashRequests = s.hashRequests := rfl
@[simp] theorem State.writeBuffer_hashAnswers {n : Nat} (s : State) (a : Nat) (v : Vector Byte n) : (s.writeBuffer a v).hashAnswers = s.hashAnswers := rfl

/-! `raiseError` -/

@[simp] theorem State.raiseError_regs (s : State) (c : ErrorCode) : (s.raiseError c).regs = s.regs := rfl
@[simp] theorem State.raiseError_regMarks (s : State) (c : ErrorCode) : (s.raiseError c).regMarks = s.regMarks := rfl
@[simp] theorem State.raiseError_acc (s : State) (c : ErrorCode) : (s.raiseError c).acc = s.acc := rfl
@[simp] theorem State.raiseError_accsum (s : State) (c : ErrorCode) : (s.raiseError c).accsum = s.accsum := rfl
@[simp] theorem State.raiseError_q (s : State) (c : ErrorCode) : (s.raiseError c).q = s.q := rfl
@[simp] theorem State.raiseError_gfr (s : State) (c : ErrorCode) : (s.raiseError c).gfr = s.gfr := rfl
@[simp] theorem State.raiseError_mem (s : State) (c : ErrorCode) : (s.raiseError c).mem = s.mem := rfl
@[simp] theorem State.raiseError_selCount (s : State) (c : ErrorCode) : (s.raiseError c).selCount = s.selCount := rfl
@[simp] theorem State.raiseError_kcCount (s : State) (c : ErrorCode) : (s.raiseError c).kcCount = s.kcCount := rfl
@[simp] theorem State.raiseError_sbLen (s : State) (c : ErrorCode) : (s.raiseError c).sbLen = s.sbLen := rfl
@[simp] theorem State.raiseError_rkLen (s : State) (c : ErrorCode) : (s.raiseError c).rkLen = s.rkLen := rfl
@[simp] theorem State.raiseError_blkIdx (s : State) (c : ErrorCode) : (s.raiseError c).blkIdx = s.blkIdx := rfl
@[simp] theorem State.raiseError_strict (s : State) (c : ErrorCode) : (s.raiseError c).strict = s.strict := rfl
@[simp] theorem State.raiseError_err (s : State) (c : ErrorCode) : (s.raiseError c).err = true := rfl
@[simp] theorem State.raiseError_rskip (s : State) (c : ErrorCode) : (s.raiseError c).rskip = s.rskip := rfl
@[simp] theorem State.raiseError_errCode (s : State) (c : ErrorCode) : (s.raiseError c).errCode = if s.err then s.errCode else c := rfl
@[simp] theorem State.raiseError_events (s : State) (c : ErrorCode) : (s.raiseError c).events = s.events := rfl
@[simp] theorem State.raiseError_answers (s : State) (c : ErrorCode) : (s.raiseError c).answers = s.answers := rfl
@[simp] theorem State.raiseError_hashRequests (s : State) (c : ErrorCode) : (s.raiseError c).hashRequests = s.hashRequests := rfl
@[simp] theorem State.raiseError_hashAnswers (s : State) (c : ErrorCode) : (s.raiseError c).hashAnswers = s.hashAnswers := rfl

/-! `clearStatus` -/

@[simp] theorem State.clearStatus_regs (s : State) (b : Byte) : (s.clearStatus b).regs = s.regs := rfl
@[simp] theorem State.clearStatus_regMarks (s : State) (b : Byte) : (s.clearStatus b).regMarks = s.regMarks := rfl
@[simp] theorem State.clearStatus_acc (s : State) (b : Byte) : (s.clearStatus b).acc = s.acc := rfl
@[simp] theorem State.clearStatus_accsum (s : State) (b : Byte) : (s.clearStatus b).accsum = s.accsum := rfl
@[simp] theorem State.clearStatus_q (s : State) (b : Byte) : (s.clearStatus b).q = s.q := rfl
@[simp] theorem State.clearStatus_gfr (s : State) (b : Byte) : (s.clearStatus b).gfr = s.gfr := rfl
@[simp] theorem State.clearStatus_mem (s : State) (b : Byte) : (s.clearStatus b).mem = s.mem := rfl
@[simp] theorem State.clearStatus_selCount (s : State) (b : Byte) : (s.clearStatus b).selCount = s.selCount := rfl
@[simp] theorem State.clearStatus_kcCount (s : State) (b : Byte) : (s.clearStatus b).kcCount = s.kcCount := rfl
@[simp] theorem State.clearStatus_sbLen (s : State) (b : Byte) : (s.clearStatus b).sbLen = s.sbLen := rfl
@[simp] theorem State.clearStatus_rkLen (s : State) (b : Byte) : (s.clearStatus b).rkLen = s.rkLen := rfl
@[simp] theorem State.clearStatus_blkIdx (s : State) (b : Byte) : (s.clearStatus b).blkIdx = s.blkIdx := rfl
@[simp] theorem State.clearStatus_strict (s : State) (b : Byte) : (s.clearStatus b).strict = s.strict := rfl
@[simp] theorem State.clearStatus_err (s : State) (b : Byte) : (s.clearStatus b).err = if b.getLsbD 0 then false else s.err := rfl
@[simp] theorem State.clearStatus_rskip (s : State) (b : Byte) : (s.clearStatus b).rskip = if b.getLsbD 1 then false else s.rskip := rfl
@[simp] theorem State.clearStatus_errCode (s : State) (b : Byte) : (s.clearStatus b).errCode = if b.getLsbD 0 then .noError else s.errCode := rfl
@[simp] theorem State.clearStatus_events (s : State) (b : Byte) : (s.clearStatus b).events = s.events := rfl
@[simp] theorem State.clearStatus_answers (s : State) (b : Byte) : (s.clearStatus b).answers = s.answers := rfl
@[simp] theorem State.clearStatus_hashRequests (s : State) (b : Byte) : (s.clearStatus b).hashRequests = s.hashRequests := rfl
@[simp] theorem State.clearStatus_hashAnswers (s : State) (b : Byte) : (s.clearStatus b).hashAnswers = s.hashAnswers := rfl

/-! `markSkipped` -/

@[simp] theorem State.markSkipped_regs (s : State) : s.markSkipped.regs = s.regs := rfl
@[simp] theorem State.markSkipped_regMarks (s : State) : s.markSkipped.regMarks = s.regMarks := rfl
@[simp] theorem State.markSkipped_acc (s : State) : s.markSkipped.acc = s.acc := rfl
@[simp] theorem State.markSkipped_accsum (s : State) : s.markSkipped.accsum = s.accsum := rfl
@[simp] theorem State.markSkipped_q (s : State) : s.markSkipped.q = s.q := rfl
@[simp] theorem State.markSkipped_gfr (s : State) : s.markSkipped.gfr = s.gfr := rfl
@[simp] theorem State.markSkipped_mem (s : State) : s.markSkipped.mem = s.mem := rfl
@[simp] theorem State.markSkipped_selCount (s : State) : s.markSkipped.selCount = s.selCount := rfl
@[simp] theorem State.markSkipped_kcCount (s : State) : s.markSkipped.kcCount = s.kcCount := rfl
@[simp] theorem State.markSkipped_sbLen (s : State) : s.markSkipped.sbLen = s.sbLen := rfl
@[simp] theorem State.markSkipped_rkLen (s : State) : s.markSkipped.rkLen = s.rkLen := rfl
@[simp] theorem State.markSkipped_blkIdx (s : State) : s.markSkipped.blkIdx = s.blkIdx := rfl
@[simp] theorem State.markSkipped_strict (s : State) : s.markSkipped.strict = s.strict := rfl
@[simp] theorem State.markSkipped_err (s : State) : s.markSkipped.err = s.err := rfl
@[simp] theorem State.markSkipped_rskip (s : State) : s.markSkipped.rskip = true := rfl
@[simp] theorem State.markSkipped_errCode (s : State) : s.markSkipped.errCode = s.errCode := rfl
@[simp] theorem State.markSkipped_events (s : State) : s.markSkipped.events = s.events := rfl
@[simp] theorem State.markSkipped_answers (s : State) : s.markSkipped.answers = s.answers := rfl
@[simp] theorem State.markSkipped_hashRequests (s : State) : s.markSkipped.hashRequests = s.hashRequests := rfl
@[simp] theorem State.markSkipped_hashAnswers (s : State) : s.markSkipped.hashAnswers = s.hashAnswers := rfl

/-! `pushAnswer` -/

@[simp] theorem State.pushAnswer_regs (s : State) (v : BitVec 32) : (s.pushAnswer v).regs = s.regs := rfl
@[simp] theorem State.pushAnswer_regMarks (s : State) (v : BitVec 32) : (s.pushAnswer v).regMarks = s.regMarks := rfl
@[simp] theorem State.pushAnswer_acc (s : State) (v : BitVec 32) : (s.pushAnswer v).acc = s.acc := rfl
@[simp] theorem State.pushAnswer_accsum (s : State) (v : BitVec 32) : (s.pushAnswer v).accsum = s.accsum := rfl
@[simp] theorem State.pushAnswer_q (s : State) (v : BitVec 32) : (s.pushAnswer v).q = s.q := rfl
@[simp] theorem State.pushAnswer_gfr (s : State) (v : BitVec 32) : (s.pushAnswer v).gfr = s.gfr := rfl
@[simp] theorem State.pushAnswer_mem (s : State) (v : BitVec 32) : (s.pushAnswer v).mem = s.mem := rfl
@[simp] theorem State.pushAnswer_selCount (s : State) (v : BitVec 32) : (s.pushAnswer v).selCount = s.selCount := rfl
@[simp] theorem State.pushAnswer_kcCount (s : State) (v : BitVec 32) : (s.pushAnswer v).kcCount = s.kcCount := rfl
@[simp] theorem State.pushAnswer_sbLen (s : State) (v : BitVec 32) : (s.pushAnswer v).sbLen = s.sbLen := rfl
@[simp] theorem State.pushAnswer_rkLen (s : State) (v : BitVec 32) : (s.pushAnswer v).rkLen = s.rkLen := rfl
@[simp] theorem State.pushAnswer_blkIdx (s : State) (v : BitVec 32) : (s.pushAnswer v).blkIdx = s.blkIdx := rfl
@[simp] theorem State.pushAnswer_strict (s : State) (v : BitVec 32) : (s.pushAnswer v).strict = s.strict := rfl
@[simp] theorem State.pushAnswer_err (s : State) (v : BitVec 32) : (s.pushAnswer v).err = s.err := rfl
@[simp] theorem State.pushAnswer_rskip (s : State) (v : BitVec 32) : (s.pushAnswer v).rskip = s.rskip := rfl
@[simp] theorem State.pushAnswer_errCode (s : State) (v : BitVec 32) : (s.pushAnswer v).errCode = s.errCode := rfl
@[simp] theorem State.pushAnswer_events (s : State) (v : BitVec 32) : (s.pushAnswer v).events = s.events := rfl
@[simp] theorem State.pushAnswer_answers (s : State) (v : BitVec 32) : (s.pushAnswer v).answers = v :: s.answers := rfl
@[simp] theorem State.pushAnswer_hashRequests (s : State) (v : BitVec 32) : (s.pushAnswer v).hashRequests = s.hashRequests := rfl
@[simp] theorem State.pushAnswer_hashAnswers (s : State) (v : BitVec 32) : (s.pushAnswer v).hashAnswers = s.hashAnswers := rfl

/-! `resetUnit`: the fields of the agents around the unit stay, every other takes its reset value. -/

@[simp] theorem State.resetUnit_regs (s : State) : s.resetUnit.regs = State.reset.regs := rfl
@[simp] theorem State.resetUnit_regMarks (s : State) : s.resetUnit.regMarks = State.reset.regMarks := rfl
@[simp] theorem State.resetUnit_acc (s : State) : s.resetUnit.acc = State.reset.acc := rfl
@[simp] theorem State.resetUnit_accsum (s : State) : s.resetUnit.accsum = State.reset.accsum := rfl
@[simp] theorem State.resetUnit_q (s : State) : s.resetUnit.q = State.reset.q := rfl
@[simp] theorem State.resetUnit_gfr (s : State) : s.resetUnit.gfr = State.reset.gfr := rfl
@[simp] theorem State.resetUnit_mem (s : State) : s.resetUnit.mem = State.reset.mem := rfl
@[simp] theorem State.resetUnit_selCount (s : State) : s.resetUnit.selCount = State.reset.selCount := rfl
@[simp] theorem State.resetUnit_kcCount (s : State) : s.resetUnit.kcCount = State.reset.kcCount := rfl
@[simp] theorem State.resetUnit_sbLen (s : State) : s.resetUnit.sbLen = State.reset.sbLen := rfl
@[simp] theorem State.resetUnit_rkLen (s : State) : s.resetUnit.rkLen = State.reset.rkLen := rfl
@[simp] theorem State.resetUnit_blkIdx (s : State) : s.resetUnit.blkIdx = State.reset.blkIdx := rfl
@[simp] theorem State.resetUnit_strict (s : State) : s.resetUnit.strict = State.reset.strict := rfl
@[simp] theorem State.resetUnit_err (s : State) : s.resetUnit.err = State.reset.err := rfl
@[simp] theorem State.resetUnit_rskip (s : State) : s.resetUnit.rskip = State.reset.rskip := rfl
@[simp] theorem State.resetUnit_errCode (s : State) : s.resetUnit.errCode = State.reset.errCode := rfl
@[simp] theorem State.resetUnit_events (s : State) : s.resetUnit.events = s.events := rfl
@[simp] theorem State.resetUnit_answers (s : State) : s.resetUnit.answers = s.answers := rfl
@[simp] theorem State.resetUnit_hashRequests (s : State) : s.resetUnit.hashRequests = s.hashRequests := rfl
@[simp] theorem State.resetUnit_hashAnswers (s : State) : s.resetUnit.hashAnswers = s.hashAnswers := rfl

/-- The register a `setReg` writes reads back. -/
@[simp] theorem State.reg_setReg (s : State) (i : Fin 7) (v : Reg512) : (s.setReg i v).reg i = v := by
  simp [State.reg]

/-- Every other register reads as before. -/
theorem State.reg_setReg_ne (s : State) {i k : Fin 7} (v : Reg512) (h : k ≠ i) : (s.setReg i v).reg k = s.reg k := by
  have : i.val ≠ k.val := fun e => h (Fin.ext e.symm)
  simp [State.reg, this]

end Sys2Proof.Machine
end

