-- ==== Sys2Proof/Laws/Bus.lean ====
section
/-! SUPPORT. The address map as inequalities, and what the host reads and writes, region by region. -/

namespace Sys2Proof.Machine

theorem maxSel_pos : 1 ≤ Config.maxSel := by unfold Config.maxSel; omega

theorem maxSel_le : Config.maxSel ≤ 8192 := by
  unfold Config.maxSel
  have := Config.maxSelPred.isLt
  omega

/-! ## The region of an address -/

/-- The map of R73 as a chain of ranges in rising order. -/
theorem regionOf_eq (a : Nat) : regionOf a =
    if a < 0x40 then some .control
    else if a < 0x60 then some .din
    else if a < 0x80 then some .dout
    else if a < 0xA0 then some .ks
    else if 0x100 ≤ a ∧ a < 0x2C0 then some .reg
    else if 0x300 ≤ a ∧ a < 0x380 then some .acc
    else if 0x400 ≤ a ∧ a < 0x5C0 then some .km
    else if 0x800 ≤ a ∧ a < 0xE00 then some .rk
    else if 0x1000 ≤ a ∧ a < 0x2800 then some .sbox
    else if 0x4000 ≤ a ∧ a < 0x4000 + 2 * Config.maxSel then some .sel
    else if 0x8000 ≤ a ∧ a < 0x8000 + Config.maxSel then some .kc
    else none := by
  have hm := maxSel_le
  unfold regionOf addressMap
  simp only [List.find?_cons, List.find?_nil, RegionRow.holds]
  by_cases h1 : a < 0x40
  · simp [h1]
  by_cases h2 : a < 0x60
  · have e1 : ¬ (a - 0 < 64) := by omega
    have e2 : 0x40 ≤ a ∧ a - 0x40 < 32 := by omega
    simp [h1, h2, e2]
  by_cases h3 : a < 0x80
  · have e2 : ¬ (a - 0x40 < 32) := by omega
    have e3 : 0x60 ≤ a ∧ a - 0x60 < 32 := by omega
    simp [h1, h2, h3, e2, e3]
  by_cases h4 : a < 0xA0
  · have e2 : ¬ (a - 0x40 < 32) := by omega
    have e3 : ¬ (a - 0x60 < 32) := by omega
    have e4 : 0x80 ≤ a ∧ a - 0x80 < 32 := by omega
    simp [h1, h2, h3, h4, e2, e3, e4]
  have e2 : ¬ (a - 0x40 < 32) := by omega
  have e3 : ¬ (a - 0x60 < 32) := by omega
  have e4 : ¬ (a - 0x80 < 32) := by omega
  have r1 : (decide (0x100 ≤ a) && decide (a - 0x100 < 448)) = decide (0x100 ≤ a ∧ a < 0x2C0) := by
    rw [Bool.eq_iff_iff]; simp; omega
  have r2 : (decide (0x300 ≤ a) && decide (a - 0x300 < 128)) = decide (0x300 ≤ a ∧ a < 0x380) := by
    rw [Bool.eq_iff_iff]; simp; omega
  have r3 : (decide (0x400 ≤ a) && decide (a - 0x400 < 448)) = decide (0x400 ≤ a ∧ a < 0x5C0) := by
    rw [Bool.eq_iff_iff]; simp; omega
  have r4 : (decide (0x800 ≤ a) && decide (a - 0x800 < 1536)) = decide (0x800 ≤ a ∧ a < 0xE00) := by
    rw [Bool.eq_iff_iff]; simp; omega
  have r5 : (decide (0x1000 ≤ a) && decide (a - 0x1000 < 6144)) = decide (0x1000 ≤ a ∧ a < 0x2800) := by
    rw [Bool.eq_iff_iff]; simp; omega
  have r6 : (decide (0x4000 ≤ a) && decide (a - 0x4000 < 2 * Config.maxSel))
      = decide (0x4000 ≤ a ∧ a < 0x4000 + 2 * Config.maxSel) := by
    rw [Bool.eq_iff_iff]; simp; omega
  have r7 : (decide (0x8000 ≤ a) && decide (a - 0x8000 < Config.maxSel))
      = decide (0x8000 ≤ a ∧ a < 0x8000 + Config.maxSel) := by
    rw [Bool.eq_iff_iff]; simp; omega
  simp only [r1, r2, r3, r4, r5, r6, r7]
  simp only [h1, h2, h3, h4, e2, e3, e4, Nat.sub_zero, decide_false, Bool.and_false, if_false]
  by_cases h5 : 0x100 ≤ a ∧ a < 0x2C0
  · simp [h5]
  by_cases h6 : 0x300 ≤ a ∧ a < 0x380
  · simp [h5, h6]
  by_cases h7 : 0x400 ≤ a ∧ a < 0x5C0
  · simp [h5, h6, h7]
  by_cases h8 : 0x800 ≤ a ∧ a < 0xE00
  · simp [h5, h6, h7, h8]
  by_cases h9 : 0x1000 ≤ a ∧ a < 0x2800
  · simp [h5, h6, h7, h8, h9]
  by_cases h10 : 0x4000 ≤ a ∧ a < 0x4000 + 2 * Config.maxSel
  · simp [h5, h6, h7, h8, h9, h10]
  by_cases h11 : 0x8000 ≤ a ∧ a < 0x8000 + Config.maxSel
  · simp [h5, h6, h7, h8, h9, h10, h11]
  · simp [h5, h6, h7, h8, h9, h10, h11]

/-- The range a region's addresses lie in. -/
theorem regionOf_eq_some {a : Nat} {r : Region} : regionOf a = some r ↔
    match r with
    | .control => a < 0x40
    | .din => 0x40 ≤ a ∧ a < 0x60
    | .dout => 0x60 ≤ a ∧ a < 0x80
    | .ks => 0x80 ≤ a ∧ a < 0xA0
    | .reg => 0x100 ≤ a ∧ a < 0x2C0
    | .acc => 0x300 ≤ a ∧ a < 0x380
    | .km => 0x400 ≤ a ∧ a < 0x5C0
    | .rk => 0x800 ≤ a ∧ a < 0xE00
    | .sbox => 0x1000 ≤ a ∧ a < 0x2800
    | .sel => 0x4000 ≤ a ∧ a < 0x4000 + 2 * Config.maxSel
    | .kc => 0x8000 ≤ a ∧ a < 0x8000 + Config.maxSel := by
  have hm := maxSel_le
  rw [regionOf_eq]
  by_cases h1 : a < 0x40
  · rw [if_pos h1]; cases r <;> simp <;> omega
  rw [if_neg h1]
  by_cases h2 : a < 0x60
  · rw [if_pos h2]; cases r <;> simp <;> omega
  rw [if_neg h2]
  by_cases h3 : a < 0x80
  · rw [if_pos h3]; cases r <;> simp <;> omega
  rw [if_neg h3]
  by_cases h4 : a < 0xA0
  · rw [if_pos h4]; cases r <;> simp <;> omega
  rw [if_neg h4]
  by_cases h5 : 0x100 ≤ a ∧ a < 0x2C0
  · rw [if_pos h5]; cases r <;> simp <;> omega
  rw [if_neg h5]
  by_cases h6 : 0x300 ≤ a ∧ a < 0x380
  · rw [if_pos h6]; cases r <;> simp <;> omega
  rw [if_neg h6]
  by_cases h7 : 0x400 ≤ a ∧ a < 0x5C0
  · rw [if_pos h7]; cases r <;> simp <;> omega
  rw [if_neg h7]
  by_cases h8 : 0x800 ≤ a ∧ a < 0xE00
  · rw [if_pos h8]; cases r <;> simp <;> omega
  rw [if_neg h8]
  by_cases h9 : 0x1000 ≤ a ∧ a < 0x2800
  · rw [if_pos h9]; cases r <;> simp <;> omega
  rw [if_neg h9]
  by_cases h10 : 0x4000 ≤ a ∧ a < 0x4000 + 2 * Config.maxSel
  · rw [if_pos h10]; cases r <;> simp <;> omega
  rw [if_neg h10]
  by_cases h11 : 0x8000 ≤ a ∧ a < 0x8000 + Config.maxSel
  · rw [if_pos h11]; cases r <;> simp <;> omega
  rw [if_neg h11]
  cases r <;> simp <;> omega

/-- The RAM addresses as ranges. -/
theorem ramByte_iff {a : Nat} : ramByte a = true ↔
    (0x40 ≤ a ∧ a < 0xA0) ∨ (0x400 ≤ a ∧ a < 0x5C0) ∨ (0x800 ≤ a ∧ a < 0xE00) ∨ (0x1000 ≤ a ∧ a < 0x2800)
      ∨ (0x4000 ≤ a ∧ a < 0x4000 + 2 * Config.maxSel) ∨ (0x8000 ≤ a ∧ a < 0x8000 + Config.maxSel) := by
  have hm := maxSel_le
  unfold ramByte
  cases h : regionOf a with
  | none =>
    simp only [Bool.false_eq_true, false_iff]
    have h1 := (regionOf_eq_some (a := a) (r := .din)).not.1 (by simp [h])
    have h2 := (regionOf_eq_some (a := a) (r := .dout)).not.1 (by simp [h])
    have h3 := (regionOf_eq_some (a := a) (r := .ks)).not.1 (by simp [h])
    have h4 := (regionOf_eq_some (a := a) (r := .km)).not.1 (by simp [h])
    have h5 := (regionOf_eq_some (a := a) (r := .rk)).not.1 (by simp [h])
    have h6 := (regionOf_eq_some (a := a) (r := .sbox)).not.1 (by simp [h])
    have h7 := (regionOf_eq_some (a := a) (r := .sel)).not.1 (by simp [h])
    have h8 := (regionOf_eq_some (a := a) (r := .kc)).not.1 (by simp [h])
    simp only at h1 h2 h3 h4 h5 h6 h7 h8
    omega
  | some r =>
    have hr := regionOf_eq_some.1 h
    cases r <;> simp only at hr ⊢ <;> simp <;> omega

/-! ## What the host reads -/

/-- A byte of a RAM region reads as RAM holds it. -/
theorem busByte_ram {s : State} {a : Nat} (h : ramByte a = true) : s.busByte a = s.readByte a := by
  unfold ramByte at h
  unfold State.busByte
  cases hr : regionOf a with
  | none => simp [hr] at h
  | some r => cases r <;> simp [hr] at h ⊢

/-- A byte of the R region is its register's. -/
theorem busByte_reg (s : State) (i : Fin 7) (j : Fin 64) : s.busByte (0x100 + 64 * i.val + j.val) = .ok (s.regs[i])[j] := by
  have hr : regionOf (0x100 + 64 * i.val + j.val) = some .reg :=
    regionOf_eq_some.2 ⟨by omega, by omega⟩
  have hp : regPos (0x100 + 64 * i.val + j.val) = (i, j) := by
    unfold regPos
    have hi := i.isLt
    have hj := j.isLt
    simp only [Prod.mk.injEq, Fin.ext_iff, Fin.val_ofNat]
    refine ⟨?_, ?_⟩ <;> simp only [regBase] <;> omega
  simp only [State.busByte, hr, hp, State.reg]

/-- Every address of the R region is some register's byte. -/
theorem exists_regPos {a : Nat} (h : regionOf a = some .reg) :
    ∃ (i : Fin 7) (j : Fin 64), a = 0x100 + 64 * i.val + j.val ∧ regPos a = (i, j) := by
  obtain ⟨h1, h2⟩ := regionOf_eq_some.1 h
  refine ⟨⟨(a - 0x100) / 64, by omega⟩, ⟨(a - 0x100) % 64, by omega⟩, by simp only; omega, ?_⟩
  unfold regPos
  simp only [Prod.mk.injEq, Fin.ext_iff, Fin.val_ofNat, regBase]
  omega

/-- What the host reads at an address depends on the byte of RAM there, the registers, ACC and the control block only. -/
theorem busByte_congr {s t : State} {a : Nat} (hm : Memory.get? t.mem a = Memory.get? s.mem a)
    (hr : regionOf a = some .reg → (t.regs[(regPos a).1])[(regPos a).2] = (s.regs[(regPos a).1])[(regPos a).2])
    (ha : regionOf a = some .acc → t.acc = s.acc)
    (hc : a < 0x40 → byteOf (t.controlWord (a / 4)) (a % 4) = byteOf (s.controlWord (a / 4)) (a % 4)) :
    t.busByte a = s.busByte a := by
  have hb : t.readByte a = s.readByte a := by simp only [State.readByte, hm]
  unfold State.busByte
  cases h : regionOf a with
  | none => rfl
  | some r =>
    cases r with
    | control => simp only; rw [hc (regionOf_eq_some.1 h)]
    | reg => simp only [State.reg]; rw [hr h]
    | acc => simp only; rw [ha h]
    | din => exact hb
    | dout => exact hb
    | ks => exact hb
    | km => exact hb
    | rk => exact hb
    | sbox => exact hb
    | sel => exact hb
    | kc => exact hb

/-! ## The checks of an access -/

/-- An access is mapped exactly when all its bytes lie in one row of the map. -/
theorem mapped_iff {a n : Nat} : mapped a n = true ↔ ∃ r ∈ addressMap, ∀ k, k < n → r.holds (a + k) = true := by
  simp [mapped, List.any_eq_true, List.all_eq_true]

/-- The rows of the map do not overlap: the row that holds an address names its region. -/
theorem regionOf_of_holds {r : RegionRow} (hr : r ∈ addressMap) {a : Nat} (h : r.holds a = true) :
    regionOf a = some r.region := by
  have hm := maxSel_le
  simp only [RegionRow.holds, Bool.and_eq_true, decide_eq_true_eq] at h
  simp only [addressMap, List.mem_cons, List.not_mem_nil, or_false] at hr
  rcases hr with rfl | rfl | rfl | rfl | rfl | rfl | rfl | rfl | rfl | rfl | rfl <;>
    simp only [dinBase, doutBase, ksBase, regBase, accBase, kmBase, rkBase, sboxBase, selBase, kcBase] at h <;>
    refine regionOf_eq_some.2 ?_ <;> simp only <;> omega

/-- All bytes of a mapped access lie in the region of its first byte. -/
theorem regionOf_of_mapped {a n : Nat} (h : mapped a n = true) {k : Nat} (hk : k < n) :
    regionOf (a + k) = regionOf a := by
  obtain ⟨r, hr, hh⟩ := mapped_iff.1 h
  rw [regionOf_of_holds hr (hh k hk)]
  have := hh 0 (by omega)
  simp only [Nat.add_zero] at this
  rw [regionOf_of_holds hr this]

/-- A read passes exactly when it is aligned and mapped. -/
theorem busCheck_read_eq_none {addr : BitVec 16} {w : Width} :
    busCheck (.read addr w) = none ↔ addr.toNat % w.bytes = 0 ∧ mapped addr.toNat w.bytes = true := by
  simp only [busCheck]
  split
  · next h => simp [h]
  · next h =>
    split
    · next h2 => simp at h2; simp [h2]
    · next h2 => simp at h h2; simp [h, h2]

/-- A write that passes is aligned, mapped, no narrow write of CMD and touches nothing read-only. -/
theorem busCheck_write_eq_none {addr : BitVec 16} {w : Width} {v : BitVec 32} :
    busCheck (.write addr w v) = none ↔ addr.toNat % w.bytes = 0 ∧ mapped addr.toNat w.bytes = true
      ∧ ¬ (touchesCmd addr.toNat w.bytes = true ∧ w.bytes < 4) ∧ touchesReadOnly addr.toNat w.bytes = false := by
  simp only [busCheck]
  split
  · next h => simp [h]
  · next h =>
    split
    · next h2 => simp at h2; simp [h2]
    · next h2 =>
      split
      · next h3 => simp at h2 h3; simp [h2, h3]
      · next h3 =>
        split
        · next h4 => simp [h4]
        · next h4 => simp at h h2 h3 h4; simp [h, h2, h4]; exact h3

/-- No check of an access names NONE. -/
theorem busCheck_ne_noError (a : Access) : busCheck a ≠ some .noError := by
  cases a <;> simp only [busCheck] <;> (repeat' split) <;> simp

/-! ## What a host write changes -/

/-- A byte write changes no field but the one its region is held in, and never ACC, ACCSUM or GFR (R80). -/
theorem busWriteByte_frame (s : State) (a : Nat) (b : Byte) :
    (s.busWriteByte a b).acc = s.acc ∧ (s.busWriteByte a b).accsum = s.accsum ∧ (s.busWriteByte a b).gfr = s.gfr
      ∧ (s.busWriteByte a b).events = s.events ∧ (s.busWriteByte a b).answers = s.answers
      ∧ (s.busWriteByte a b).hashRequests = s.hashRequests ∧ (s.busWriteByte a b).hashAnswers = s.hashAnswers := by
  unfold State.busWriteByte
  cases h : regionOf a with
  | none => simp
  | some r =>
    cases r with
    | control => simp only [State.writeControl]; repeat' split
                 all_goals simp
    | _ => simp

end Sys2Proof.Machine
end

