-- ==== Sys2Proof/Laws/Decode.lean ====
section
/-! SUPPORT. What the fields of an encoded word are, one lemma per field: the opcode, the reserved bits, the operands. -/

namespace Sys2Proof.Laws

/-! `gfmul` -/

theorem opField_encode_gfmul (a8 : Byte) (b8 : Byte) : opField (encode (.gfmul a8 b8)) = 0x10#8 := by
  apply BitVec.eq_of_getLsbD_eq
  intro i hi
  interval_cases i <;> simp [encode, fieldAt, opField]

theorem reserved_encode_gfmul (a8 : Byte) (b8 : Byte) : encode (.gfmul a8 b8) &&& Format.reserved .ii = 0#32 := by
  apply BitVec.eq_of_getLsbD_eq
  intro i hi
  interval_cases i <;> simp [encode, fieldAt, Format.reserved]

theorem a8Field_encode_gfmul (a8 : Byte) (b8 : Byte) : a8Field (encode (.gfmul a8 b8)) = a8 := by
  apply BitVec.eq_of_getLsbD_eq
  intro i hi
  interval_cases i <;> simp [encode, fieldAt, a8Field]

theorem b8Field_encode_gfmul (a8 : Byte) (b8 : Byte) : b8Field (encode (.gfmul a8 b8)) = b8 := by
  apply BitVec.eq_of_getLsbD_eq
  intro i hi
  interval_cases i <;> simp [encode, fieldAt, b8Field]

/-! `gfmulb` -/

theorem opField_encode_gfmulb (rd : BitVec 3) (rs1 : BitVec 3) (imm8 : Byte) : opField (encode (.gfmulb rd rs1 imm8)) = 0x11#8 := by
  apply BitVec.eq_of_getLsbD_eq
  intro i hi
  interval_cases i <;> simp [encode, fieldAt, opField]

theorem reserved_encode_gfmulb (rd : BitVec 3) (rs1 : BitVec 3) (imm8 : Byte) : encode (.gfmulb rd rs1 imm8) &&& Format.reserved .rsi8 = 0#32 := by
  apply BitVec.eq_of_getLsbD_eq
  intro i hi
  interval_cases i <;> simp [encode, fieldAt, Format.reserved]

theorem rdField_encode_gfmulb (rd : BitVec 3) (rs1 : BitVec 3) (imm8 : Byte) : rdField (encode (.gfmulb rd rs1 imm8)) = rd := by
  apply BitVec.eq_of_getLsbD_eq
  intro i hi
  interval_cases i <;> simp [encode, fieldAt, rdField]

theorem rs1Field_encode_gfmulb (rd : BitVec 3) (rs1 : BitVec 3) (imm8 : Byte) : rs1Field (encode (.gfmulb rd rs1 imm8)) = rs1 := by
  apply BitVec.eq_of_getLsbD_eq
  intro i hi
  interval_cases i <;> simp [encode, fieldAt, rs1Field]

theorem imm8Field_encode_gfmulb (rd : BitVec 3) (rs1 : BitVec 3) (imm8 : Byte) : imm8Field (encode (.gfmulb rd rs1 imm8)) = imm8 := by
  apply BitVec.eq_of_getLsbD_eq
  intro i hi
  interval_cases i <;> simp [encode, fieldAt, imm8Field]

/-! `xor` -/

theorem opField_encode_xor (rd : BitVec 3) (rs1 : BitVec 3) (rs2 : BitVec 3) : opField (encode (.xor rd rs1 rs2)) = 0x12#8 := by
  apply BitVec.eq_of_getLsbD_eq
  intro i hi
  interval_cases i <;> simp [encode, fieldAt, opField]

theorem reserved_encode_xor (rd : BitVec 3) (rs1 : BitVec 3) (rs2 : BitVec 3) : encode (.xor rd rs1 rs2) &&& Format.reserved .r3 = 0#32 := by
  apply BitVec.eq_of_getLsbD_eq
  intro i hi
  interval_cases i <;> simp [encode, fieldAt, Format.reserved]

theorem rdField_encode_xor (rd : BitVec 3) (rs1 : BitVec 3) (rs2 : BitVec 3) : rdField (encode (.xor rd rs1 rs2)) = rd := by
  apply BitVec.eq_of_getLsbD_eq
  intro i hi
  interval_cases i <;> simp [encode, fieldAt, rdField]

theorem rs1Field_encode_xor (rd : BitVec 3) (rs1 : BitVec 3) (rs2 : BitVec 3) : rs1Field (encode (.xor rd rs1 rs2)) = rs1 := by
  apply BitVec.eq_of_getLsbD_eq
  intro i hi
  interval_cases i <;> simp [encode, fieldAt, rs1Field]

theorem rs2Field_encode_xor (rd : BitVec 3) (rs1 : BitVec 3) (rs2 : BitVec 3) : rs2Field (encode (.xor rd rs1 rs2)) = rs2 := by
  apply BitVec.eq_of_getLsbD_eq
  intro i hi
  interval_cases i <;> simp [encode, fieldAt, rs2Field]

/-! `rotl` -/

theorem opField_encode_rotl (rd : BitVec 3) (rs1 : BitVec 3) (imm9 : BitVec 9) : opField (encode (.rotl rd rs1 imm9)) = 0x13#8 := by
  apply BitVec.eq_of_getLsbD_eq
  intro i hi
  interval_cases i <;> simp [encode, fieldAt, opField]

theorem reserved_encode_rotl (rd : BitVec 3) (rs1 : BitVec 3) (imm9 : BitVec 9) : encode (.rotl rd rs1 imm9) &&& Format.reserved .rsi9 = 0#32 := by
  apply BitVec.eq_of_getLsbD_eq
  intro i hi
  interval_cases i <;> simp [encode, fieldAt, Format.reserved]

theorem rdField_encode_rotl (rd : BitVec 3) (rs1 : BitVec 3) (imm9 : BitVec 9) : rdField (encode (.rotl rd rs1 imm9)) = rd := by
  apply BitVec.eq_of_getLsbD_eq
  intro i hi
  interval_cases i <;> simp [encode, fieldAt, rdField]

theorem rs1Field_encode_rotl (rd : BitVec 3) (rs1 : BitVec 3) (imm9 : BitVec 9) : rs1Field (encode (.rotl rd rs1 imm9)) = rs1 := by
  apply BitVec.eq_of_getLsbD_eq
  intro i hi
  interval_cases i <;> simp [encode, fieldAt, rs1Field]

theorem imm9Field_encode_rotl (rd : BitVec 3) (rs1 : BitVec 3) (imm9 : BitVec 9) : imm9Field (encode (.rotl rd rs1 imm9)) = imm9 := by
  apply BitVec.eq_of_getLsbD_eq
  intro i hi
  interval_cases i <;> simp [encode, fieldAt, imm9Field]

/-! `xinj` -/

theorem opField_encode_xinj (rd : BitVec 3) (bidx : BitVec 6) (imm8 : Byte) : opField (encode (.xinj rd bidx imm8)) = 0x14#8 := by
  apply BitVec.eq_of_getLsbD_eq
  intro i hi
  interval_cases i <;> simp [encode, fieldAt, opField]

theorem reserved_encode_xinj (rd : BitVec 3) (bidx : BitVec 6) (imm8 : Byte) : encode (.xinj rd bidx imm8) &&& Format.reserved .rbi = 0#32 := by
  apply BitVec.eq_of_getLsbD_eq
  intro i hi
  interval_cases i <;> simp [encode, fieldAt, Format.reserved]

theorem rdField_encode_xinj (rd : BitVec 3) (bidx : BitVec 6) (imm8 : Byte) : rdField (encode (.xinj rd bidx imm8)) = rd := by
  apply BitVec.eq_of_getLsbD_eq
  intro i hi
  interval_cases i <;> simp [encode, fieldAt, rdField]

theorem bidxField_encode_xinj (rd : BitVec 3) (bidx : BitVec 6) (imm8 : Byte) : bidxField (encode (.xinj rd bidx imm8)) = bidx := by
  apply BitVec.eq_of_getLsbD_eq
  intro i hi
  interval_cases i <;> simp [encode, fieldAt, bidxField]

theorem imm8Field_encode_xinj (rd : BitVec 3) (bidx : BitVec 6) (imm8 : Byte) : imm8Field (encode (.xinj rd bidx imm8)) = imm8 := by
  apply BitVec.eq_of_getLsbD_eq
  intro i hi
  interval_cases i <;> simp [encode, fieldAt, imm8Field]

/-! `getq` -/

theorem opField_encode_getq (rs1 : BitVec 3) : opField (encode (.getq rs1)) = 0x15#8 := by
  apply BitVec.eq_of_getLsbD_eq
  intro i hi
  interval_cases i <;> simp [encode, fieldAt, opField]

theorem reserved_encode_getq (rs1 : BitVec 3) : encode (.getq rs1) &&& Format.reserved .rs = 0#32 := by
  apply BitVec.eq_of_getLsbD_eq
  intro i hi
  interval_cases i <;> simp [encode, fieldAt, Format.reserved]

theorem rs1Field_encode_getq (rs1 : BitVec 3) : rs1Field (encode (.getq rs1)) = rs1 := by
  apply BitVec.eq_of_getLsbD_eq
  intro i hi
  interval_cases i <;> simp [encode, fieldAt, rs1Field]

/-! `putq` -/

theorem opField_encode_putq (rd : BitVec 3) : opField (encode (.putq rd)) = 0x16#8 := by
  apply BitVec.eq_of_getLsbD_eq
  intro i hi
  interval_cases i <;> simp [encode, fieldAt, opField]

theorem reserved_encode_putq (rd : BitVec 3) : encode (.putq rd) &&& Format.reserved .rd = 0#32 := by
  apply BitVec.eq_of_getLsbD_eq
  intro i hi
  interval_cases i <;> simp [encode, fieldAt, Format.reserved]

theorem rdField_encode_putq (rd : BitVec 3) : rdField (encode (.putq rd)) = rd := by
  apply BitVec.eq_of_getLsbD_eq
  intro i hi
  interval_cases i <;> simp [encode, fieldAt, rdField]

/-! `round` -/

theorem opField_encode_round (rnd : BitVec 5) : opField (encode (.round rnd)) = 0x21#8 := by
  apply BitVec.eq_of_getLsbD_eq
  intro i hi
  interval_cases i <;> simp [encode, fieldAt, opField]

theorem reserved_encode_round (rnd : BitVec 5) : encode (.round rnd) &&& Format.reserved .rnd = 0#32 := by
  apply BitVec.eq_of_getLsbD_eq
  intro i hi
  interval_cases i <;> simp [encode, fieldAt, Format.reserved]

theorem rndField_encode_round (rnd : BitVec 5) : rndField (encode (.round rnd)) = rnd := by
  apply BitVec.eq_of_getLsbD_eq
  intro i hi
  interval_cases i <;> simp [encode, fieldAt, rndField]

end Sys2Proof.Laws
end

