-- ==== Sys2Proof/Laws/Step.lean ====
section
/-! SUPPORT. What a step and a host access can do, said once: the inversion of a step, of a command word and of an access, and
the access of a whole control register. -/

namespace Sys2Proof.Machine

/-! ## Inversion -/

/-- A step that answers a next state: nothing was pending, or the oldest event was performed. -/
theorem step_cases {s t : State} (h : step s = .next t) :
    (s.events = [] ∧ t = s) ∨ ∃ e rest, s.events = e :: rest ∧ performEvent e { s with events := rest } = .next t := by
  unfold step stepOnce at h
  cases he : s.events with
  | nil => rw [he] at h; cases h; exact .inl ⟨rfl, rfl⟩
  | cons e rest => rw [he] at h; exact .inr ⟨e, rest, rfl, h⟩

/-- A command word runs its command, or records why it has none. -/
theorem runCommand_cases (w : BitVec 32) (s : State) :
    (∃ i, decode w = .ok i ∧ runCommand w s = exec i s)
      ∨ ∃ e, decode w = .error e ∧ runCommand w s = .next (s.raiseError (errorOfDecode e)) := by
  unfold runCommand
  cases decode w with
  | ok i => exact .inl ⟨i, rfl, rfl⟩
  | error e => exact .inr ⟨e, rfl, rfl⟩

/-- A host access fails its check and records it, or answers a read, or issues a command word, or stores. -/
theorem performAccess_cases (a : Access) (s : State) :
    (∃ c, busCheck a = some c ∧ performAccess a s = .next (failedAccess a c s))
      ∨ (busCheck a = none ∧
        ((∃ addr w v, a = .read addr w ∧ s.busRead addr.toNat w.bytes = .ok v ∧ performAccess a s = .next (s.pushAnswer v))
          ∨ (∃ addr w f, a = .read addr w ∧ s.busRead addr.toNat w.bytes = .error f ∧ performAccess a s = .fault f)
          ∨ (∃ w v, a = .write 0#16 w v ∧ performAccess a s = runCommand v s)
          ∨ ∃ addr w v, a = .write addr w v ∧ addr.toNat ≠ 0
              ∧ performAccess a s = .next (s.busWrite addr.toNat w.bytes v))) := by
  unfold performAccess
  cases hb : busCheck a with
  | some c => exact .inl ⟨c, rfl, rfl⟩
  | none =>
    refine .inr ⟨rfl, ?_⟩
    cases a with
    | read addr w =>
      cases hr : s.busRead addr.toNat w.bytes with
      | ok v => exact .inl ⟨addr, w, v, rfl, hr, by simp only [passedAccess, hr]⟩
      | error f => exact .inr (.inl ⟨addr, w, f, rfl, hr, by simp only [passedAccess, hr]⟩)
    | write addr w v =>
      by_cases h0 : addr.toNat = 0
      · obtain rfl : addr = 0#16 := BitVec.eq_of_toNat_eq h0
        exact .inr (.inr (.inl ⟨w, v, rfl, rfl⟩))
      · exact .inr (.inr (.inr ⟨addr, w, v, rfl, h0, by simp only [passedAccess, if_neg h0]⟩))

/-- Every event but an access is performed without looking at the rest of the unit's state. -/
theorem performEvent_cases (e : Event) (s : State) :
    (∃ a, e = .access a ∧ performEvent e s = performAccess a s)
      ∨ (e = .reset ∧ performEvent e s = .next s.resetUnit)
      ∨ ∃ b, e = .hashEngine b ∧ performEvent e s = .next { s with hashAnswers := b } := by
  cases e with
  | access a => exact .inl ⟨a, rfl, rfl⟩
  | reset => exact .inr (.inl ⟨rfl, rfl⟩)
  | hashEngine b => exact .inr (.inr ⟨b, rfl, rfl⟩)

/-! ## A whole control register -/

/-- Four bytes in bus order are the word they came from. -/
theorem fromLE_byteOf (v : BitVec 32) : BitVec.ofNat 32 (fromLE [byteOf v 0, byteOf v 1, byteOf v 2, byteOf v 3]) = v := by
  apply BitVec.eq_of_toNat_eq
  simp only [fromLE, byteOf, BitVec.toNat_ofNat, BitVec.extractLsb'_toNat, Nat.shiftRight_eq_div_pow]
  have := v.isLt
  omega

theorem busByte_control (s : State) {k j : Nat} (hk : k < 16) (hj : j < 4) :
    s.busByte (4 * k + j) = .ok (byteOf (s.controlWord k) j) := by
  unfold State.busByte
  rw [(regionOf_eq_some (r := .control)).2 (show 4 * k + j < 0x40 by omega)]
  simp only
  rw [show (4 * k + j) / 4 = k by omega, show (4 * k + j) % 4 = j by omega]

theorem busWriteByte_control (s : State) {k j : Nat} (hk : k < 16) (hj : j < 4) (b : Byte) :
    s.busWriteByte (4 * k + j) b = s.writeControl (4 * k + j) b := by
  unfold State.busWriteByte
  rw [(regionOf_eq_some (r := .control)).2 (show 4 * k + j < 0x40 by omega)]

/-- A 4-byte read of control register k answers its word. -/
theorem read_control (s : State) {k : Nat} (hk : k < 16) :
    performAccess (.read (BitVec.ofNat 16 (4 * k)) .w32) s = .next (s.pushAnswer (s.controlWord k)) := by
  have hb : busCheck (.read (BitVec.ofNat 16 (4 * k)) .w32) = none := by interval_cases k <;> decide
  have hr : s.busRead (4 * k) (Width.bytes .w32) = .ok (s.controlWord k) := by
    have h0 := busByte_control s hk (show 0 < 4 by omega)
    have h1 := busByte_control s hk (show 1 < 4 by omega)
    have h2 := busByte_control s hk (show 2 < 4 by omega)
    have h3 := busByte_control s hk (show 3 < 4 by omega)
    simp only [Nat.add_zero] at h0
    simp only [State.busRead, Width.bytes, State.busBytes, h0, h1, h2, h3, Nat.add_assoc, Nat.reduceAdd, bind, Except.bind, pure,
      Except.pure]
    rw [fromLE_byteOf]
  unfold performAccess
  rw [hb]
  simp only [passedAccess]
  rw [show (BitVec.ofNat 16 (4 * k)).toNat = 4 * k by simp; omega, hr]

/-- A 4-byte write of a writable control register writes its four bytes. -/
theorem write_control (s : State) {k : Nat} (hk : k < 12) (h0 : k ≠ 0) (h3 : k ≠ 3) (v : BitVec 32) :
    performAccess (.write (BitVec.ofNat 16 (4 * k)) .w32 v) s = .next
      ((((s.writeControl (4 * k) (byteOf v 0)).writeControl (4 * k + 1) (byteOf v 1)).writeControl (4 * k + 2)
        (byteOf v 2)).writeControl (4 * k + 3) (byteOf v 3)) := by
  have hb : busCheck (.write (BitVec.ofNat 16 (4 * k)) .w32 v) = none := by interval_cases k <;> first | rfl | omega
  unfold performAccess
  rw [hb]
  simp only [passedAccess]
  rw [show (BitVec.ofNat 16 (4 * k)).toNat = 4 * k by simp; omega, if_neg (by omega)]
  simp only [State.busWrite, Width.bytes, bytesLE, List.range, List.range.loop, List.map, State.busWriteBytes]
  have e0 := busWriteByte_control s (show k < 16 by omega) (show 0 < 4 by omega) (byteOf v 0)
  simp only [Nat.add_zero] at e0
  rw [e0, busWriteByte_control _ (by omega) (by omega), show 4 * k + 1 + 1 = 4 * k + 2 by omega,
    busWriteByte_control _ (by omega) (by omega), show 4 * k + 2 + 1 = 4 * k + 3 by omega,
    busWriteByte_control _ (by omega) (by omega)]

end Sys2Proof.Machine
end

