-- ==== Sys2Proof/Laws/HostProc.lean ====
section
/-! SUPPORT. Laws of sequencing: parts of a host procedure, and runs of events. -/

namespace Sys2Proof.Machine

variable {α β γ : Type}

@[simp] theorem thenRun_next (a : α) (k : α → HostRun β) : thenRun (.next a) k = k a := rfl
@[simp] theorem thenRun_fault (f : Fault) (k : α → HostRun β) : thenRun (.fault f) k = .fault f := rfl
@[simp] theorem thenRun_refused (x : Refusal) (k : α → HostRun β) : thenRun (.refused x) k = .refused x := rfl

/-- A procedure of two parts ends with an answer exactly if both parts do. -/
theorem thenRun_eq_next {r : HostRun α} {k : α → HostRun β} {b : β} :
    thenRun r k = .next b ↔ ∃ a, r = .next a ∧ k a = .next b := by
  cases r <;> simp

theorem thenRun_assoc (r : HostRun α) (k : α → HostRun β) (l : β → HostRun γ) :
    thenRun (thenRun r k) l = thenRun r fun a => thenRun (k a) l := by
  cases r <;> rfl

theorem runSteps_succ (n : Nat) (s : State) : runSteps (n + 1) s = thenRun (stepOnce s) (runSteps n) := by
  rw [runSteps]
  cases stepOnce s <;> rfl

/-- m steps and then n are m + n steps. -/
theorem runSteps_add (m n : Nat) (s : State) : runSteps (m + n) s = thenRun (runSteps m s) (runSteps n) := by
  induction m generalizing s with
  | zero => rw [Nat.zero_add]; rfl
  | succ m ih =>
    rw [Nat.succ_add, runSteps_succ, runSteps_succ, thenRun_assoc]
    exact congrArg _ (funext ih)

@[simp] theorem runEvents_nil (s : State) : runEvents [] s = .next { s with events := [] } := rfl

/-- The first of the events, and then the steps of the rest. -/
theorem runEvents_cons (e : Event) (es : List Event) (s : State) :
    runEvents (e :: es) s = thenRun (performEvent e { s with events := es }) (runSteps es.length) := runSteps_succ _ _

/-- What a part of a procedure ends in, if it ends: the answers of its own reads, oldest first. -/
theorem ask_eq_next {es : List Event} {s : State} {r : List (BitVec 32) × State} :
    ask es s = .next r ↔ ∃ t, runEvents es { s with answers := [] } = .next t ∧ r = (t.answers.reverse, t) := by
  unfold ask
  rw [thenRun_eq_next]
  simp [eq_comm]

end Sys2Proof.Machine
end

