-- ==== Sys2Proof/Laws/Ops.lean ====
section
/-! SUPPORT. One lemma per shared operation that says everything it can do: sequencing of reads that may fault, the operand
forms, the table checks, the hash port, and the bodies of the commands. -/

namespace Sys2Proof.Machine

/-! ## Sequencing -/

/-- A sequence answers exactly when its first part does and its second part does on that answer. -/
theorem bind_eq_ok {ε α β : Type} {x : Except ε α} {f : α → Except ε β} {b : β} :
    (x >>= f) = .ok b ↔ ∃ a, x = .ok a ∧ f a = .ok b := by
  cases x with
  | ok a => simp [bind, Except.bind]
  | error e => simp [bind, Except.bind]

/-- A sequence fails exactly when its first part does, or its second part does on the first's answer. -/
theorem bind_eq_error {ε α β : Type} {x : Except ε α} {f : α → Except ε β} {e : ε} :
    (x >>= f) = .error e ↔ x = .error e ∨ ∃ a, x = .ok a ∧ f a = .error e := by
  cases x with
  | ok a => simp [bind, Except.bind]
  | error e' => simp [bind, Except.bind]

@[simp] theorem ok_bind {ε α β : Type} (a : α) (f : α → Except ε β) : ((.ok a : Except ε α) >>= f) = f a := rfl

@[simp] theorem error_bind {ε α β : Type} (e : ε) (f : α → Except ε β) :
    ((.error e : Except ε α) >>= f) = .error e := rfl

@[simp] theorem pure_eq_ok {ε α : Type} (a : α) : (pure a : Except ε α) = .ok a := rfl

/-! ## Answers -/

@[simp] theorem answer_ok (s : State) : answer (.ok s) = .next s := rfl

@[simp] theorem answer_error (f : Fault) : answer (.error f) = .fault f := rfl

theorem answer_eq_next {x : Except Fault State} {t : State} : answer x = .next t ↔ x = .ok t := by
  cases x <;> simp [answer]

theorem answer_eq_fault {x : Except Fault State} {f : Fault} : answer x = .fault f ↔ x = .error f := by
  cases x <;> simp [answer]

theorem answer_ne_refused (x : Except Fault State) (r : Refusal) : answer x ≠ .refused r := by
  cases x <;> simp [answer]

/-! ## Operand forms -/

theorem regIndex?_eq_some {r : BitVec 3} {i : Fin 7} : regIndex? r = some i ↔ r.toNat = i.val := by
  unfold regIndex?
  split
  · simp [Fin.ext_iff]
  · next h =>
    have := i.isLt
    constructor
    · intro e; cases e
    · intro e; omega

theorem regIndex?_eq_none {r : BitVec 3} : regIndex? r = none ↔ r = 7#3 := by
  revert r; decide

theorem withReg_of_eq {r : BitVec 3} {i : Fin 7} (h : r.toNat = i.val) (s : State) (k : Fin 7 → Result) :
    withReg r s k = k i := by
  simp [withReg, regIndex?_eq_some.2 h]

theorem withReg_seven (s : State) (k : Fin 7 → Result) : withReg 7#3 s k = .next (s.raiseError .badRegister) := by
  simp [withReg, regIndex?_eq_none.2 rfl]

/-- A register field names a register and the command goes on with it, or it is 7 and BAD_REGISTER is raised. -/
theorem withReg_cases (r : BitVec 3) (s : State) (k : Fin 7 → Result) :
    (∃ i : Fin 7, r.toNat = i.val ∧ withReg r s k = k i)
      ∨ (r = 7#3 ∧ withReg r s k = .next (s.raiseError .badRegister)) := by
  cases h : regIndex? r with
  | some i => exact .inl ⟨i, regIndex?_eq_some.1 h, withReg_of_eq (regIndex?_eq_some.1 h) s k⟩
  | none =>
    have h7 := regIndex?_eq_none.1 h
    subst h7
    exact .inr ⟨rfl, withReg_seven s k⟩

/-- A round field names a round and the command goes on with it, or BAD_ROUND is raised. -/
theorem withRound_cases (r : BitVec 5) (s : State) (k : Fin 24 → Result) :
    (∃ h : r.toNat < 24, withRound r s k = k ⟨r.toNat, h⟩)
      ∨ (24 ≤ r.toNat ∧ withRound r s k = .next (s.raiseError .badRound)) := by
  unfold withRound roundIndex?
  by_cases h : r.toNat < 24
  · left; exact ⟨h, by simp [h]⟩
  · right; exact ⟨by omega, by simp [h]⟩

theorem withRound_of_lt {r : BitVec 5} (h : r.toNat < 24) (s : State) (k : Fin 24 → Result) :
    withRound r s k = k ⟨r.toNat, h⟩ := by
  simp [withRound, roundIndex?, h]

/-- The table checks pass exactly when neither check 5 nor check 6 of R281 fails. -/
theorem tableCheck_eq_none {s : State} :
    s.tableCheck = none ↔ s.selCount.toNat ≤ Config.maxSel
      ∧ (s.strict = true → s.sbLen.toNat = 6144 ∧ s.rkLen.toNat = 1536) := by
  unfold State.tableCheck State.badInputSize
  split
  · next h => simp; omega
  · next h =>
    split
    · next h2 =>
      simp at h2
      simp
      intro _
      refine ⟨h2.1, fun e => ?_⟩
      rcases h2.2 with h3 | h3
      · exact absurd e h3
      · exact h3
    · next h2 =>
      simp at h2
      simp
      exact ⟨by omega, h2⟩

/-- The table checks pass and the command goes on, or the first failing one is recorded. -/
theorem withTables_cases (s : State) (k : Result) :
    (s.tableCheck = none ∧ withTables s k = k)
      ∨ (s.selCount.toNat > Config.maxSel ∧ withTables s k = .next (s.raiseError .badSelCount))
      ∨ (s.selCount.toNat ≤ Config.maxSel ∧ s.badInputSize = true
          ∧ withTables s k = .next (s.raiseError .invalidInputSize)) := by
  unfold withTables State.tableCheck
  by_cases h1 : s.selCount.toNat > Config.maxSel
  · exact .inr (.inl ⟨h1, by simp [h1]⟩)
  · by_cases h2 : s.badInputSize
    · exact .inr (.inr ⟨by omega, h2, by simp [h1, h2]⟩)
    · exact .inl ⟨by simp [h1, h2], by simp [h1, h2]⟩

theorem withTables_of_none {s : State} (h : s.tableCheck = none) (k : Result) : withTables s k = k := by
  simp [withTables, h]

/-- The table checks read the counts, the lengths and CTRL only. -/
theorem tableCheck_congr {s t : State} (h1 : t.selCount = s.selCount) (h2 : t.strict = s.strict)
    (h3 : t.sbLen = s.sbLen) (h4 : t.rkLen = s.rkLen) : t.tableCheck = s.tableCheck := by
  simp [State.tableCheck, State.badInputSize, h1, h2, h3, h4]

/-! ## The hash port -/

/-- A request is answered, and recorded, exactly when the engine answers. -/
theorem requestHash_eq_ok {s : State} {m : List Byte} {n : Nat} {r : Vector Byte n × State} :
    s.requestHash m n = .ok r ↔ s.hashAnswers = true
      ∧ r = (Config.xof m n, { s with hashRequests := ⟨m, n⟩ :: s.hashRequests }) := by
  unfold State.requestHash
  split
  · next h => simp [h, eq_comm]
  · next h => simp [h]

theorem requestHash_eq_error {s : State} {m : List Byte} {n : Nat} {f : Fault} :
    s.requestHash m n = .error f ↔ s.hashAnswers = false ∧ f = .hashHang := by
  unfold State.requestHash
  split
  · next h => simp [h]
  · next h => simp [h, eq_comm]

/-! ## The bodies of the commands -/

/-- KSGEN answers exactly when the engine does: one request is recorded and KS is written. -/
theorem ksgenBody_eq_ok {s t : State} :
    ksgenBody s = .ok t ↔ s.hashAnswers = true
      ∧ t = { s with
          mem := Memory.setList s.mem ksBase (Config.xof s.ksMessage 32).toList
          hashRequests := ⟨s.ksMessage, 32⟩ :: s.hashRequests } := by
  unfold ksgenBody
  rw [bind_eq_ok]
  constructor
  · rintro ⟨r, hr, ht⟩
    obtain ⟨h1, h2⟩ := requestHash_eq_ok.1 hr
    subst h2
    cases ht
    exact ⟨h1, rfl⟩
  · rintro ⟨h1, rfl⟩
    exact ⟨_, requestHash_eq_ok.2 ⟨h1, rfl⟩, rfl⟩

theorem ksgenBody_eq_error {s : State} {f : Fault} :
    ksgenBody s = .error f ↔ s.hashAnswers = false ∧ f = .hashHang := by
  unfold ksgenBody
  rw [bind_eq_error]
  constructor
  · rintro (h | ⟨r, _, h⟩)
    · exact requestHash_eq_error.1 h
    · cases h
  · intro h
    exact .inl (requestHash_eq_error.2 h)

/-- XORKS answers exactly when DIN and KS are defined, with their XOR in DOUT. -/
theorem xorksBody_eq_ok {s t : State} :
    xorksBody s = .ok t ↔ ∃ din ks : Vector Byte 32, s.readBuffer dinBase 32 = .ok din ∧ s.readBuffer ksBase 32 = .ok ks
      ∧ t = s.writeBuffer doutBase (Vector.ofFn fun j : Fin 32 => din[j] ^^^ ks[j]) := by
  unfold xorksBody
  simp only [bind_eq_ok, pure_eq_ok, Except.ok.injEq]
  constructor
  · rintro ⟨din, h1, ks, h2, h3⟩
    exact ⟨din, ks, h1, h2, h3.symm⟩
  · rintro ⟨din, ks, h1, h2, h3⟩
    exact ⟨din, h1, ks, h2, h3.symm⟩

/-- FEEDBACK answers exactly when DOUT is defined, with every register fed back. -/
theorem feedbackBody_eq_ok {s t : State} :
    feedbackBody s = .ok t ↔ ∃ ct : Vector Byte 32, s.readBuffer doutBase 32 = .ok ct
      ∧ t = s.setRegs (feedbackRegs ct s.regs) := by
  unfold feedbackBody
  simp only [bind_eq_ok, pure_eq_ok, Except.ok.injEq]
  constructor
  · rintro ⟨ct, h1, h2⟩; exact ⟨ct, h1, h2.symm⟩
  · rintro ⟨ct, h1, h2⟩; exact ⟨ct, h1, h2.symm⟩

/-- LOADKM answers exactly when KM is defined, with the fresh block state. -/
theorem loadkmBody_eq_ok {s t : State} :
    loadkmBody s = .ok t ↔ ∃ km : Vector Byte 448, s.readBuffer kmBase 448 = .ok km
      ∧ t = { s.setRegs (regsOfKm km) with acc := Vector.replicate 128 0#8, accsum := 0#64 } := by
  unfold loadkmBody
  simp only [bind_eq_ok, pure_eq_ok, Except.ok.injEq]
  constructor
  · rintro ⟨km, h1, h2⟩; exact ⟨km, h1, h2.symm⟩
  · rintro ⟨km, h1, h2⟩; exact ⟨km, h1, h2.symm⟩

/-- A round answers the registers and the sum of its selector steps, diffused. -/
theorem roundBody_eq_ok {s t : State} {r : Nat} :
    roundBody s r = .ok t ↔ ∃ c, selectorsFrom s r 0 s.selCount.toNat ⟨s.regs, s.accsum⟩ = .ok c
      ∧ t = { s.setRegs (diffuse c.regs) with accsum := c.accsum } := by
  unfold roundBody
  simp only [bind_eq_ok, pure_eq_ok, Except.ok.injEq]
  constructor
  · rintro ⟨c, h1, h2⟩; exact ⟨c, h1, h2.symm⟩
  · rintro ⟨c, h1, h2⟩; exact ⟨c, h1, h2.symm⟩

/-- A round or its skip changes registers, marks, ACCSUM and RSKIP only. -/
theorem roundOrSkip_frame {s t : State} {r : Nat} (h : roundOrSkip s r = .ok t) :
    t = { s with regs := t.regs, regMarks := t.regMarks, accsum := t.accsum, rskip := t.rskip }
      ∧ (s.rskip = true → t.rskip = true) := by
  unfold roundOrSkip at h
  split at h
  · obtain ⟨c, _, rfl⟩ := roundBody_eq_ok.1 h
    exact ⟨rfl, id⟩
  · cases h
    exact ⟨rfl, fun _ => rfl⟩

/-- So do the rounds one after another. -/
theorem roundsFrom_frame {n : Nat} : ∀ {r : Nat} {s t : State}, roundsFrom r n s = .ok t →
    t = { s with regs := t.regs, regMarks := t.regMarks, accsum := t.accsum, rskip := t.rskip }
      ∧ (s.rskip = true → t.rskip = true) := by
  induction n with
  | zero => intro r s t h; cases h; exact ⟨rfl, id⟩
  | succ n ih =>
    intro r s t h
    simp only [roundsFrom, bind_eq_ok] at h
    obtain ⟨s', h1, h2⟩ := h
    obtain ⟨f1, k1⟩ := roundOrSkip_frame h1
    obtain ⟨f2, k2⟩ := ih h2
    refine ⟨?_, fun e => k2 (k1 e)⟩
    rw [f1] at f2
    exact f2

/-- MIX24's body changes registers, marks, ACCSUM and RSKIP only. -/
theorem mixBody_frame {s t : State} (h : mixBody s = .ok t) :
    t = { s with regs := t.regs, regMarks := t.regMarks, accsum := t.accsum, rskip := t.rskip }
      ∧ (s.rskip = true → t.rskip = true) := roundsFrom_frame h

/-- BLOCK's body is the five bodies in order. -/
theorem blockBody_eq_ok {s t : State} :
    blockBody s = .ok t ↔ ∃ s1 s2 s3 s4, loadkmBody s = .ok s1 ∧ mixBody s1 = .ok s2 ∧ ksgenBody s2 = .ok s3
      ∧ xorksBody s3 = .ok s4 ∧ feedbackBody s4 = .ok t := by
  unfold blockBody
  simp only [bind_eq_ok]
  constructor
  · rintro ⟨s1, h1, s2, h2, s3, h3, s4, h4, h5⟩
    exact ⟨s1, s2, s3, s4, h1, h2, h3, h4, h5⟩
  · rintro ⟨s1, s2, s3, s4, h1, h2, h3, h4, h5⟩
    exact ⟨s1, h1, s2, h2, s3, h3, s4, h4, h5⟩

end Sys2Proof.Machine
end

