-- ==== Sys2Proof/Laws/PerInstr.lean ====
section
/-! SUPPORT. The family `RowMatch`: the word of a command matches the command's own row of the match and mask table (R123), said
of each constructor. -/

namespace Sys2Proof.Laws.RowMatch

/-- The encoded word matches the row of its mnemonic. -/
def Statement (i : Instr) : Prop := ∃ r ∈ matchRows, r.mnemonic = i.mnemonic ∧ r.selects (encode i) = true

theorem nop : Statement .nop := by
  refine ⟨⟨"NOP", 0x01000000#32, 0xFFFFFFFF#32⟩, by decide, by decide, by decide⟩

theorem gfmul (a8 : Byte) (b8 : Byte) : Statement (.gfmul a8 b8) := by
  have h : encode (.gfmul a8 b8) &&& 0xFFFF0000#32 = 0x10000000#32 := by
    apply BitVec.eq_of_getLsbD_eq
    intro i hi
    interval_cases i <;> simp [encode, fieldAt]
  exact ⟨⟨"GFMUL", 0x10000000#32, 0xFFFF0000#32⟩, by decide, rfl, by simp [MatchRow.selects, h]⟩

theorem gfmulb (rd : BitVec 3) (rs1 : BitVec 3) (imm8 : Byte) : Statement (.gfmulb rd rs1 imm8) := by
  have h : encode (.gfmulb rd rs1 imm8) &&& 0xFF03FF00#32 = 0x11000000#32 := by
    apply BitVec.eq_of_getLsbD_eq
    intro i hi
    interval_cases i <;> simp [encode, fieldAt]
  exact ⟨⟨"GFMULB", 0x11000000#32, 0xFF03FF00#32⟩, by decide, rfl, by simp [MatchRow.selects, h]⟩

theorem xor (rd : BitVec 3) (rs1 : BitVec 3) (rs2 : BitVec 3) : Statement (.xor rd rs1 rs2) := by
  have h : encode (.xor rd rs1 rs2) &&& 0xFF007FFF#32 = 0x12000000#32 := by
    apply BitVec.eq_of_getLsbD_eq
    intro i hi
    interval_cases i <;> simp [encode, fieldAt]
  exact ⟨⟨"XOR", 0x12000000#32, 0xFF007FFF#32⟩, by decide, rfl, by simp [MatchRow.selects, h]⟩

theorem rotl (rd : BitVec 3) (rs1 : BitVec 3) (imm9 : BitVec 9) : Statement (.rotl rd rs1 imm9) := by
  have h : encode (.rotl rd rs1 imm9) &&& 0xFF03FE00#32 = 0x13000000#32 := by
    apply BitVec.eq_of_getLsbD_eq
    intro i hi
    interval_cases i <;> simp [encode, fieldAt]
  exact ⟨⟨"ROTL", 0x13000000#32, 0xFF03FE00#32⟩, by decide, rfl, by simp [MatchRow.selects, h]⟩

theorem xinj (rd : BitVec 3) (bidx : BitVec 6) (imm8 : Byte) : Statement (.xinj rd bidx imm8) := by
  have h : encode (.xinj rd bidx imm8) &&& 0xFF1FC000#32 = 0x14000000#32 := by
    apply BitVec.eq_of_getLsbD_eq
    intro i hi
    interval_cases i <;> simp [encode, fieldAt]
  exact ⟨⟨"XINJ", 0x14000000#32, 0xFF1FC000#32⟩, by decide, rfl, by simp [MatchRow.selects, h]⟩

theorem getq (rs1 : BitVec 3) : Statement (.getq rs1) := by
  have h : encode (.getq rs1) &&& 0xFFE3FFFF#32 = 0x15000000#32 := by
    apply BitVec.eq_of_getLsbD_eq
    intro i hi
    interval_cases i <;> simp [encode, fieldAt]
  exact ⟨⟨"GETQ", 0x15000000#32, 0xFFE3FFFF#32⟩, by decide, rfl, by simp [MatchRow.selects, h]⟩

theorem putq (rd : BitVec 3) : Statement (.putq rd) := by
  have h : encode (.putq rd) &&& 0xFF1FFFFF#32 = 0x16000000#32 := by
    apply BitVec.eq_of_getLsbD_eq
    intro i hi
    interval_cases i <;> simp [encode, fieldAt]
  exact ⟨⟨"PUTQ", 0x16000000#32, 0xFF1FFFFF#32⟩, by decide, rfl, by simp [MatchRow.selects, h]⟩

theorem loadkm : Statement .loadkm := by
  refine ⟨⟨"LOADKM", 0x20000000#32, 0xFFFFFFFF#32⟩, by decide, by decide, by decide⟩

theorem round (rnd : BitVec 5) : Statement (.round rnd) := by
  have h : encode (.round rnd) &&& 0xFFFFFFE0#32 = 0x21000000#32 := by
    apply BitVec.eq_of_getLsbD_eq
    intro i hi
    interval_cases i <;> simp [encode, fieldAt]
  exact ⟨⟨"ROUND", 0x21000000#32, 0xFFFFFFE0#32⟩, by decide, rfl, by simp [MatchRow.selects, h]⟩

theorem mix24 : Statement .mix24 := by
  refine ⟨⟨"MIX24", 0x22000000#32, 0xFFFFFFFF#32⟩, by decide, by decide, by decide⟩

theorem ksgen : Statement .ksgen := by
  refine ⟨⟨"KSGEN", 0x23000000#32, 0xFFFFFFFF#32⟩, by decide, by decide, by decide⟩

theorem xorks : Statement .xorks := by
  refine ⟨⟨"XORKS", 0x24000000#32, 0xFFFFFFFF#32⟩, by decide, by decide, by decide⟩

theorem feedback : Statement .feedback := by
  refine ⟨⟨"FEEDBACK", 0x25000000#32, 0xFFFFFFFF#32⟩, by decide, by decide, by decide⟩

theorem block : Statement .block := by
  refine ⟨⟨"BLOCK", 0x26000000#32, 0xFFFFFFFF#32⟩, by decide, by decide, by decide⟩

end Sys2Proof.Laws.RowMatch
end

