-- ==== Sys2Proof/Tests/Slice0.lean ====
section
/-! SUPPORT. The model's own tests: ill-formed commands that WellFormed refuses; the words of the spec, decoded; one step each on
small states with the results that the spec states (its example or vector is named beside each); and, for every statement that has
hypotheses, a witness that meets them together. -/

namespace Sys2Proof.Tests
open Sys2Proof.Machine Sys2Proof.Claim

section
-- One theorem after another: each theorem that the kernel evaluates would else hold a thread and its stack of its own.
set_option Elab.async false

/-! ## WellFormed: an ill-formed command for each check (R121, R122) -/

theorem test_wf_gfmulb_rd : (Instr.gfmulb 7#3 6#3 1#8).wf = false := by decide
theorem test_wf_gfmulb_rs1 : (Instr.gfmulb 6#3 7#3 1#8).wf = false := by decide
theorem test_wf_xor_rd : (Instr.xor 7#3 0#3 0#3).wf = false := by decide
theorem test_wf_xor_rs1 : (Instr.xor 0#3 7#3 0#3).wf = false := by decide
theorem test_wf_xor_rs2 : (Instr.xor 0#3 0#3 7#3).wf = false := by decide
theorem test_wf_rotl_rd : (Instr.rotl 7#3 0#3 1#9).wf = false := by decide
theorem test_wf_rotl_rs1 : (Instr.rotl 0#3 7#3 1#9).wf = false := by decide
theorem test_wf_xinj_rd : (Instr.xinj 7#3 0#6 1#8).wf = false := by decide
theorem test_wf_getq_rs1 : (Instr.getq 7#3).wf = false := by decide
theorem test_wf_putq_rd : (Instr.putq 7#3).wf = false := by decide
theorem test_wf_round_rnd : (Instr.round 24#5).wf = false := by decide
theorem test_wf_last_names : (Instr.xor 6#3 6#3 6#3).wf = true ∧ (Instr.round 23#5).wf = true := by decide

/-! ## Decoding: words of R127, R128 and 95_test_vectors.md, written out from the formats of R112..R120 -/

/-- A word as `decodeTableWord` gives it. -/
def dec (w : Nat) : Option Instr := decodeTableWord 32 w

theorem test_decode_nop : dec 0x01000000 = some .nop := by decide
theorem test_decode_gfmul : dec 0b00010000_00000000_01010111_10000011 = some (.gfmul 0x57#8 0x83#8) := by decide
theorem test_decode_gfmulb : dec 0b00010001_010_001_0000000000_00000010 = some (.gfmulb 2#3 1#3 2#8) := by decide
theorem test_decode_xor : dec 0b00010010_100_011_001_000000000000000 = some (.xor 4#3 3#3 1#3) := by decide
theorem test_decode_rotl : dec 0b00010011_011_010_000000000_000001001 = some (.rotl 3#3 2#3 9#9) := by decide
theorem test_decode_xinj : dec 0b00010100_011_0000000_111111_01011010 = some (.xinj 3#3 63#6 0x5A#8) := by decide
theorem test_decode_getq : dec 0b00010101_000_100_000000000000000000 = some (.getq 4#3) := by decide
theorem test_decode_putq : dec 0b00010110_101_000000000000000000000 = some (.putq 5#3) := by decide
theorem test_decode_loadkm : dec 0x20000000 = some .loadkm := by decide
theorem test_decode_round : dec 0b00100001_0000000000000000000_10111 = some (.round 23#5) := by decide
theorem test_decode_mix24 : dec 0x22000000 = some .mix24 := by decide
theorem test_decode_ksgen : dec 0x23000000 = some .ksgen := by decide
theorem test_decode_xorks : dec 0x24000000 = some .xorks := by decide
theorem test_decode_feedback : dec 0x25000000 = some .feedback := by decide
theorem test_decode_block : dec 0x26000000 = some .block := by decide

/-- Word by word what R124, R125 and the error vectors of 95_test_vectors.md refuse. -/
theorem test_decode_refuses :
    decode 0x00000000#32 = .error .illegalOpcode ∧ decode 0x27000000#32 = .error .illegalOpcode
      ∧ decode 0x10015783#32 = .error .reservedField ∧ decode 0x12E00001#32 = .error .reservedField
      ∧ decode 0x13440200#32 = .error .reservedField ∧ decode 0x14704000#32 = .error .reservedField
      ∧ decode 0x21000038#32 = .error .reservedField ∧ decode 0x26000001#32 = .error .reservedField := by decide

/-- Bytes in bus order (R126): the word 0x12008000, and a word cut short. -/
theorem test_decode_bytes :
    decodeBytes [0x00#8, 0x80#8, 0x00#8, 0x12#8, 0x99#8] = .ok (.xor 0#3 0#3 1#3, [0x99#8])
      ∧ decodeBytes [0x00#8, 0x80#8, 0x00#8] = .error .shortWord := by decide

/-- The pseudo-instructions' words: CLR r1 (V-XOR) and MOV r5, r1 (P1). -/
theorem test_pseudo : encode (pseudoClr 1#3) = 0x12248000#32 ∧ encode (pseudoMov 5#3 1#3) = 0x13A40000#32
    ∧ encode (pseudoXorb0 3#3 0#8) = 0x14600000#32 ∧ encode (pseudoXorb63 3#3 0x5A#8) = 0x14603F5A#32 := by decide

/-! ## One step on a small state -/

/-- A part of the next state, if there is one. -/
def part {α : Type} (f : State → α) : Result → Option α
  | .next s => some (f s)
  | .fault _ => none
  | .refused _ => none

/-- The fault, if there is one. -/
def faultOf : Result → Option Fault
  | .next _ => none
  | .fault f => some f
  | .refused _ => none

/-- The next step runs this word (R56). -/
def runWord (w : Nat) (s : State) : Result := step (s.withFetchWord 32 w)

/-- Reset, with R1[j] = j: the start of the ALU vectors. -/
def ramp : State := { State.reset with regs := State.reset.regs.set 1 (Vector.ofFn fun j => BitVec.ofNat 8 j.val) }

/-- Reset, with R[i][j] = f i j. -/
def withRegs (f : Nat → Nat → Nat) : State :=
  { State.reset with regs := Vector.ofFn fun i => Vector.ofFn fun j => BitVec.ofNat 8 (f i.val j.val) }

theorem test_nop : part State.statusWord (runWord 0x01000000 (State.reset.raiseError .badRound)) = some 0x00000401#32 := by decide +kernel
theorem test_zero_word : part State.statusWord (runWord 0 .reset) = some 0x00000101#32 := by decide +kernel

-- The table of 95_test_vectors.md: the classic product, and the single reduction.
theorem test_gfmul_product : part State.gfr (runWord 0x10005783 .reset) = some 0xC1#8 := by decide +kernel
theorem test_gfmul_reduction : part State.gfr (runWord 0x10008002 .reset) = some 0x1B#8 := by decide +kernel

-- V-GFB: s = 3 and s = 0x80.
theorem test_gfmulb_three : part (fun t => (t.regs[2])[9]) (runWord 0x11440003 ramp) = some 0x1B#8 := by decide +kernel
theorem test_gfmulb_reduction : part (fun t => ((t.regs[2])[2], (t.regs[1])[2])) (runWord 0x11440080 ramp)
    = some (0x1B#8, 0x02#8) := by decide +kernel

-- V-XOR: 0x0F and 0xF0; rd = 7.
theorem test_xor_in_place : part (fun t => ((t.regs[0])[0], (t.regs[0])[63], (t.regs[1])[63]))
    (runWord 0x12008000 (withRegs fun i _ => if i = 0 then 0x0F else 0xF0)) = some (0xFF#8, 0xFF#8, 0xF0#8) := by decide +kernel
theorem test_xor_bad_register : part (fun t => (t.statusWord, t.regs == ramp.regs)) (runWord 0x12E00000 ramp)
    = some (0x00000301#32, true) := by decide +kernel

-- V-ROT: n = 7 (bytes 0, 1, 63) and n = 511 (bytes 0, 1, 63).
theorem test_rotl_seven : part (fun t => ((t.regs[2])[0], (t.regs[2])[1], (t.regs[2])[63])) (runWord 0x13440007 ramp)
    = some (0x00#8, 0x81#8, 0x80#8) := by decide +kernel
theorem test_rotl_right_one : part (fun t => ((t.regs[2])[0], (t.regs[2])[1], (t.regs[2])[63])) (runWord 0x134401FF ramp)
    = some (0x80#8, 0x00#8, 0x1F#8) := by decide +kernel

-- V-INJ: byte 63 goes from 0x6F to 0x35, its neighbour stays.
theorem test_xinj : part (fun t => ((t.regs[3])[63], (t.regs[3])[62], (t.regMarks[3])[63], (t.regMarks[3])[62]))
    (runWord 0x14603F5A (withRegs fun _ j => 0x30 + j)) = some (0x35#8, 0x6E#8, true, false) := by decide +kernel

-- V-Q, both directions.
theorem test_getq : part State.q (runWord 0x15040000 ramp) = some 0x0706050403020100#64 := by decide +kernel
theorem test_putq : part (fun t => ((t.regs[0])[0], (t.regs[0])[7], (t.regs[0])[8], t.q))
    (runWord 0x16000000 { withRegs (fun _ _ => 0xAA) with q := 0x1122334455667788#64 })
    = some (0x88#8, 0x11#8, 0xAA#8, 0x1122334455667788#64) := by decide +kernel

-- V-RND-3: round 1 with SB_LEN = 256 is skipped; ROUND 24 is BAD_ROUND.
theorem test_round_skipped : part (fun t => (t.statusWord, t.regs == ramp.regs))
    (runWord 0x21000001 { ramp with sbLen := 256#16, rkLen := 1536#16 }) = some (0x00000002#32, true) := by decide +kernel
theorem test_round_bad : part State.statusWord (runWord 0x21000018 .reset) = some 0x00000401#32 := by decide +kernel

/-- R[i] = 2^i in every byte, round 0 valid, no selectors: the start of V-DIF-1. -/
def powers : State := { withRegs (fun i _ => 2 ^ i) with sbLen := 256#16, rkLen := 64#16 }

-- V-DIF-1: every byte of R0..R6.
theorem test_diffusion : part (fun t => t.regs.toList.map fun r => (r[0], r[63])) (runWord 0x21000000 powers)
    = some [(0x07#8, 0x07#8), (0x0E#8, 0x0E#8), (0x1C#8, 0x1C#8), (0x38#8, 0x38#8), (0x70#8, 0x70#8), (0x67#8, 0x67#8),
        (0x49#8, 0x49#8)] := by decide +kernel

/-- The start of V-RND-1, with the bytes of the tables that the step reads. -/
def oneSelector : State := { withRegs (fun i j => 16 * i + j) with
  sbLen := 256#16
  rkLen := 64#16
  selCount := 1#16
  mem := (List.range 8).map (fun k => (0x0800 + k, 0#8)) ++ (List.range 256).map (fun k => (0x1000 + k, BitVec.ofNat 8 k))
    ++ [(0x4000, 0x05#8), (0x4001, 0x00#8)] }

-- V-RND-1, the step before diffusion: R2's first and last bytes, and ACCSUM.
theorem test_selector_step : (match selectorStep oneSelector 0 0 ⟨oneSelector.regs, 0#64⟩ with
    | .ok c => some ((c.regs[2])[0], (c.regs[2])[1], (c.regs[2])[63], c.accsum)
    | .error _ => none) = some (0xDB#8, 0xAD#8, 0x6E#8, 0x5B#64) := by decide +kernel
-- V-RND-1, the command: bytes 0 of R0..R6, and ACCSUM.
theorem test_round_one_selector : part (fun t => (t.regs.toList.map fun r => r[0], t.accsum)) (runWord 0x21000000 oneSelector)
    = some ([0xCB#8, 0xFB#8, 0xAB#8, 0x20#8, 0x70#8, 0xFB#8, 0x50#8], 0x5B#64) := by decide +kernel

-- V-MIX-3, and R189: with SB_LEN = 0 every round is skipped.
theorem test_mix24_skips : part (fun t => (t.statusWord, t.regs == ramp.regs)) (runWord 0x22000000 ramp)
    = some (0x00000002#32, true) := by decide +kernel
-- V-RND-3: strict mode with SB_LEN = 6143.
theorem test_mix24_strict : part State.statusWord
    (runWord 0x22000000 { ramp with strict := true, sbLen := 6143#16, rkLen := 1536#16 }) = some 0x00000601#32 := by decide +kernel

-- R210: the last 24 bytes of the message, from V-KS-3; and the engine that never answers (R286).
theorem test_ksgen_message : part (fun t => t.hashRequests.map fun r => (r.message.drop 576, r.length))
    (runWord 0x23000000 { State.reset with blkIdx := 5#64 }) = some [([0#8, 0#8, 0#8, 0#8, 0#8, 0#8, 0#8, 5#8, 0x52#8, 0x55#8,
      0x43#8, 0x2D#8, 0x4B#8, 0x45#8, 0x59#8, 0x53#8, 0x54#8, 0x52#8, 0x45#8, 0x41#8, 0x4D#8, 0x2D#8, 0x56#8, 0x31#8], 32)] := by decide +kernel
theorem test_ksgen_hangs : faultOf (runWord 0x23000000 { State.reset with hashAnswers := false }) = some .hashHang := by decide +kernel

/-- n bytes of RAM from an address up, byte k being f k. -/
def bytesAt (a n : Nat) (f : Nat → Nat) : Memory := (List.range n).map fun k => (a + k, BitVec.ofNat 8 (f k))

-- V-XK: DIN = FF and the first and last bytes of V-KS-1.
theorem test_xorks : part (fun t => (Memory.get? t.mem 0x60, Memory.get? t.mem 0x7F))
    (runWord 0x24000000 { State.reset with
      mem := bytesAt 0x40 32 (fun _ => 0xFF) ++ bytesAt 0x80 32 fun k => if k = 0 then 0xC0 else 0x4A })
    = some (some 0x3F#8, some 0xB5#8) := by decide +kernel
theorem test_xorks_undefined : faultOf (runWord 0x24000000 { State.reset with mem := bytesAt 0x40 32 fun _ => 0xFF })
    = some (.uninitRead 0x80) := by decide +kernel

-- V-FB-1.
theorem test_feedback : part (fun t => ((t.regs[0])[31], (t.regs[6])[33], (t.regs[6])[63]))
    (runWord 0x25000000 { State.reset with mem := bytesAt 0x60 32 id }) = some (0x1F#8, 0x01#8, 0x1F#8) := by decide +kernel

-- V-MIX-1: with KM[k] = k mod 256, R[i][j] = (64 i + j) mod 256; and an undefined KM stops LOADKM (R235).
theorem test_loadkm_slices : (((regsOfKm (Vector.ofFn fun k => BitVec.ofNat 8 k.val))[1])[0],
    ((regsOfKm (Vector.ofFn fun k => BitVec.ofNat 8 k.val))[6])[63]) = (0x40#8, 0xBF#8) := by decide +kernel
theorem test_loadkm_undefined : faultOf (runWord 0x20000000 .reset) = some (.uninitRead 0x400) := by decide +kernel

-- P6 step 1: BLOCK in strict mode with SB_LEN = 300; and BLOCK on undefined KM.
theorem test_block_strict : part State.statusWord (runWord 0x26000000 { State.reset with strict := true, sbLen := 300#16 })
    = some 0x00000601#32 := by decide +kernel
theorem test_block_undefined : faultOf (runWord 0x26000000 .reset) = some (.uninitRead 0x400) := by decide +kernel

/-! ## The bus: rows of the table "Errors and bus" of 95_test_vectors.md -/

/-- STATUS and the values answered after one access. -/
def afterAccess (a : Access) (s : State) : Option (BitVec 32 × List (BitVec 32)) :=
  part (fun t => (t.statusWord, t.answers)) (performAccess a s)

theorem test_bus_misaligned : afterAccess (.read 0x0002#16 .w32) .reset = some (0x00001101#32, [0#32])
    ∧ afterAccess (.write 0x00A2#16 .w32 0#32) .reset = some (0x00001101#32, [])
    ∧ afterAccess (.write 0x0001#16 .w16 0#32) .reset = some (0x00001101#32, []) := by decide +kernel
theorem test_bus_unmapped : afterAccess (.read 0x00A0#16 .w32) .reset = some (0x00001001#32, [0#32]) := by decide +kernel
theorem test_bus_width : afterAccess (.write 0x0000#16 .w16 0x2600#32) .reset = some (0x00001201#32, [])
    ∧ afterAccess (.write 0x0001#16 .w8 0#32) .reset = some (0x00001201#32, []) := by decide +kernel
theorem test_bus_readonly : afterAccess (.write 0x0060#16 .w32 0#32) .reset = some (0x00001301#32, [])
    ∧ afterAccess (.write 0x000C#16 .w32 0#32) .reset = some (0x00001301#32, []) := by decide +kernel
theorem test_bus_reads : afterAccess (.read 0x0000#16 .w32) .reset = some (0#32, [0#32])
    ∧ afterAccess (.read 0x000C#16 .w32) .reset = some (0#32, [0x52554301#32]) := by decide +kernel
theorem test_status_clear :
    afterAccess (.write 0x0004#16 .w32 0#32) (State.reset.raiseError .busWidth) = some (0x00001201#32, [])
      ∧ afterAccess (.write 0x0004#16 .w32 1#32) (State.reset.raiseError .busWidth) = some (0#32, []) := by decide +kernel
theorem test_first_error_kept :
    part State.statusWord (runWord 0 (State.reset.raiseError .busWidth)) = some 0x00001201#32 := by decide +kernel

/-! ## The host's ordering: V-SRC-6 -/

theorem test_stable_order : stableOrder [5, 3, 5, 1] [0xA#16, 0xB#16, 0xC#16, 0xD#16] = [0xD#16, 0xB#16, 0xA#16, 0xC#16] := by decide +kernel

/-! ## Witnesses: states for the statements' hypotheses -/

/-- n bytes of the value b from an address up, before the rest of a memory. -/
def fill : Nat → Nat → Byte → Memory → Memory
  | _, 0, _, m => m
  | a, n + 1, b, m => (a, b) :: fill (a + 1) n b m

theorem get?_fill (n : Nat) : ∀ (a : Nat) (b : Byte) (m : Memory) (x : Nat),
    Memory.get? (fill a n b m) x = if a ≤ x ∧ x < a + n then some b else Memory.get? m x := by
  induction n with
  | zero => intro a b m x; rw [if_neg (by omega)]; rfl
  | succ n ih =>
    intro a b m x
    rw [fill, Memory.get?_cons, ih]
    split
    · rw [if_pos (by omega)]
    · by_cases h : a + 1 ≤ x ∧ x < a + 1 + n
      · rw [if_pos h, if_pos (by omega)]
      · rw [if_neg h, if_neg (by omega)]

/-- Every RAM region zero, MAX_SEL being at least 1: one selector 0 with the key constant 0, all tables at their full lengths,
every register defined. -/
def loaded : State := { State.reset with
  regMarks := allMarked
  mem := fill 0x40 96 0#8 (fill 0x400 448 0#8 (fill 0x800 1536 0#8 (fill 0x1000 6144 0#8 (fill 0x4000 2 0#8 (fill 0x8000 1 0#8 [])))))
  selCount := 1#16
  kcCount := 1#16
  sbLen := 6144#16
  rkLen := 1536#16
  strict := true }

/-- The RAM of `loaded`. -/
def LoadedAt (a : Nat) : Prop :=
  (0x40 ≤ a ∧ a < 0xA0) ∨ (0x400 ≤ a ∧ a < 0x5C0) ∨ (0x800 ≤ a ∧ a < 0xE00) ∨ (0x1000 ≤ a ∧ a < 0x2800)
    ∨ (0x4000 ≤ a ∧ a < 0x4002) ∨ (0x8000 ≤ a ∧ a < 0x8001)

theorem loaded_get {a : Nat} (h : LoadedAt a) : Memory.get? loaded.mem a = some 0#8 := by
  unfold LoadedAt at h
  simp only [loaded, get?_fill]
  repeat' split
  all_goals first | rfl | omega

theorem loaded_ram {a : Nat} (h : LoadedAt a) : ramByte a = true := by
  have := maxSel_pos
  rw [ramByte_iff]
  unfold LoadedAt at h
  omega

theorem loaded_byte {a : Nat} (h : LoadedAt a) : loaded.busByte a = .ok 0#8 := by
  rw [busByte_ram (loaded_ram h), State.readByte_eq_ok]
  exact loaded_get h

/-- What the RAM of `loaded` holds, as tables. -/
def zeroTables : Tables := ⟨fun _ _ => 0#8, fun _ => 0#32, [(0#16, some 0#8)]⟩

theorem loaded_checks : TableChecksPass loaded := ⟨maxSel_pos, fun _ => ⟨rfl, rfl⟩⟩

theorem loaded_tables (r : Nat) (h : r < 24) : RoundTablesIn loaded zeroTables r := by
  refine ⟨fun k => ?_, fun j hj => ?_, fun j h1 h2 => ⟨0#8, loaded_byte (by unfold LoadedAt; omega)⟩⟩
  · exact loaded_byte (by unfold LoadedAt; have := k.isLt; omega)
  · rw [loaded_byte (by unfold LoadedAt; omega)]
    simp [zeroTables, byteOf]

theorem loaded_selectors : SelectorsIn loaded zeroTables := by
  refine ⟨rfl, fun p => ?_⟩
  obtain rfl : p = ⟨0, by decide⟩ := Fin.ext (by have := p.isLt; simp [zeroTables] at this; exact this)
  show loaded.busByte 0x4000 = _ ∧ loaded.busByte 0x4001 = _ ∧ (∀ k, _ → 0 < 1 ∧ loaded.busByte 0x8000 = _) ∧ _
  refine ⟨loaded_byte (by unfold LoadedAt; omega), loaded_byte (by unfold LoadedAt; omega), ?_, ?_⟩
  · intro k hk
    obtain rfl : 0#8 = k := by simpa [zeroTables] using hk
    exact ⟨by omega, loaded_byte (by unfold LoadedAt; omega)⟩
  · intro hk; simp [zeroTables] at hk

theorem loaded_holds {n : Nat} (a : Nat) (h : ∀ j, j < n → LoadedAt (a + j)) : Holds loaded a (Vector.replicate n 0#8) := by
  intro j
  rw [loaded_byte (h j.val j.isLt)]
  simp

/-- The same without selectors: every round is diffusion alone. -/
def plain : State := { loaded with selCount := 0#16 }

theorem plain_buffer {a n : Nat} (h : ∀ j, j < n → LoadedAt (a + j)) : plain.readBuffer a n = .ok (Vector.replicate n 0#8) :=
  State.readBuffer_eq_ok.2 fun i => by
    show Memory.get? loaded.mem _ = _
    rw [loaded_get (h i.val i.isLt)]; simp

theorem plain_holds {n : Nat} (a : Nat) (h : ∀ j, j < n → LoadedAt (a + j)) : Holds plain a (Vector.replicate n 0#8) := by
  intro j
  have hl := h j.val j.isLt
  rw [busByte_ram (loaded_ram hl), State.readByte_eq_ok]
  show Memory.get? loaded.mem _ = _
  rw [loaded_get hl]; simp

/-- With no selectors the rounds read no table, so they always end. -/
theorem rounds_without_selectors (n : Nat) : ∀ (r : Nat) (s : State), s.selCount = 0#16 → ∃ t, roundsFrom r n s = .ok t := by
  induction n with
  | zero => exact fun r s _ => ⟨s, rfl⟩
  | succ n ih =>
    intro r s h
    have hr : ∃ u, roundOrSkip s r = .ok u := by
      unfold roundOrSkip
      split
      · exact ⟨_, roundBody_eq_ok.2 ⟨⟨s.regs, s.accsum⟩, by rw [h]; rfl, rfl⟩⟩
      · exact ⟨_, rfl⟩
    obtain ⟨u, hu⟩ := hr
    have hc : u.selCount = 0#16 := by rw [(roundOrSkip_frame hu).1]; exact h
    obtain ⟨t, ht⟩ := ih (r + 1) u hc
    exact ⟨t, by unfold roundsFrom; rw [bind_eq_ok]; exact ⟨u, hu, ht⟩⟩

/-- BLOCK completes on `plain` and leaves DOUT defined. -/
theorem plain_block : ∃ t, ∃ dout : Vector Byte 32, exec .block plain = .next t ∧ Holds t 0x0060 dout := by
  have h1 := loadkmBody_eq_ok.2 ⟨_, plain_buffer (a := kmBase) (n := 448)
    (by intro j hj; unfold LoadedAt; simp only [kmBase]; omega), rfl⟩
  obtain ⟨s2, h2⟩ := rounds_without_selectors 24 0 { plain.setRegs (regsOfKm (Vector.replicate 448 0#8)) with
    acc := Vector.replicate 128 0#8, accsum := 0#64 } rfl
  have hf := (roundsFrom_frame h2).1
  have hm : s2.mem = loaded.mem := by rw [hf]; rfl
  have hh : s2.hashAnswers = true := by rw [hf]; rfl
  obtain ⟨s3, h3, hm3⟩ : ∃ s3, ksgenBody s2 = .ok s3
      ∧ s3.mem = (s2.writeBuffer ksBase (Config.xof s2.ksMessage 32)).mem := ⟨_, ksgenBody_eq_ok.2 ⟨hh, rfl⟩, rfl⟩
  obtain ⟨s4, v, h4, hs4⟩ : ∃ s4, ∃ v : Vector Byte 32, xorksBody s3 = .ok s4 ∧ s4 = s3.writeBuffer doutBase v :=
    ⟨_, _, xorksBody_eq_ok.2 ⟨Vector.replicate 32 0#8, Config.xof s2.ksMessage 32,
      State.readBuffer_eq_ok.2 fun i => by
        rw [hm3, State.get?_writeBuffer_outside _ _ _ (by simp only [dinBase, ksBase]; omega), hm,
          loaded_get (by unfold LoadedAt; simp only [dinBase]; omega)]
        simp,
      State.readBuffer_eq_ok.2 fun i => by rw [hm3, State.get?_writeBuffer_fin], rfl⟩, rfl⟩
  have h5 := (feedbackBody_eq_ok (s := s4)).2 ⟨v, by rw [hs4]; exact State.readBuffer_writeBuffer s3 doutBase v, rfl⟩
  have hb := blockBody_eq_ok.2 ⟨_, s2, s3, s4, h1, h2, h3, h4, h5⟩
  refine ⟨s4.setRegs (feedbackRegs v s4.regs), v, ?_, fun j => ?_⟩
  · show withTables plain (answer (blockBody plain)) = _
    rw [withTables_of_none (tableCheck_eq_none.2 ⟨Nat.zero_le _, fun _ => ⟨rfl, rfl⟩⟩), hb]
    rfl
  · rw [busByte_ram (ramByte_iff.2 (by omega)), State.readByte_eq_ok]
    show Memory.get? s4.mem _ = _
    rw [hs4]
    exact State.get?_writeBuffer_fin s3 doutBase v j

/-! ### One witness for each statement with hypotheses, by the statement's name -/

theorem witness_EncodeDecodeRoundTrip : decode 0x21000018#32 = .ok (.round 24#5) := by decide

theorem witness_DecodeFollowsMatchTable : decode 0x1280FFFF#32 ≠ .ok .nop ∧ decode 0x12800000#32 = .ok (.xor 4#3 0#3 0#3)
    ∧ (∃ r ∈ matchRows, r.selects 0x12800000#32 = true) ∧ ∃ r ∈ matchRows, r.selects 0x26000000#32 = true := by decide

/-- Every end of every range of reserved opcodes, and a reserved bit at either end of a format's reserved bits. -/
theorem witness_ReservedWordsRaiseErrors :
    opField 0x00000000#32 = 0x00#8 ∧ opField 0x02000000#32 = 0x02#8 ∧ opField 0x0FFFFFFF#32 = 0x0F#8
      ∧ opField 0x17000000#32 = 0x17#8 ∧ opField 0x1F000000#32 = 0x1F#8 ∧ opField 0x27000000#32 = 0x27#8
      ∧ opField 0xFF000000#32 = 0xFF#8
      ∧ (opField 0x01000001#32 ∈ definedOpcodes ∧ ∀ r ∈ matchRows, r.selects 0x01000001#32 = false)
      ∧ (opField 0x26800000#32 ∈ definedOpcodes ∧ ∀ r ∈ matchRows, r.selects 0x26800000#32 = false) := by decide

theorem witness_StepRunsTheDecodedCommand : decode 0x26000000#32 = .ok .block ∧ decode 0xFF000000#32 = .error .illegalOpcode
    ∧ decode 0x26000001#32 = .error .reservedField := by decide

/-- The lowest and the highest register, with source and destination alike and apart. -/
theorem witness_register_operands : (0#3).toNat = (0 : Fin 7).val ∧ (6#3).toNat = (6 : Fin 7).val ∧ (3#3).toNat = (3 : Fin 7).val := by
  decide

theorem witness_GfmulbScalesEveryByte : (6#3).toNat = (6 : Fin 7).val ∧ (0#3).toNat = (0 : Fin 7).val := by decide
theorem witness_XorCombinesBytes :
    (0#3).toNat = (0 : Fin 7).val ∧ (6#3).toNat = (6 : Fin 7).val ∧ (6#3).toNat = (6 : Fin 7).val := by decide
theorem witness_RotlRotatesLeft : (6#3).toNat = (6 : Fin 7).val ∧ (6#3).toNat = (6 : Fin 7).val := by decide
theorem witness_XinjChangesOneByte : (6#3).toNat = (6 : Fin 7).val ∧ (63#6).toFin = (63 : Fin 64) := by decide
theorem witness_GetqExtractsLittleEndian : (6#3).toNat = (6 : Fin 7).val := by decide
theorem witness_PutqInsertsLittleEndian : (0#3).toNat = (0 : Fin 7).val := by decide

/-- Round 23 with one byte too few of S-box, and round 0 with one too few of round key, in either mode. -/
theorem witness_UndersizedRoundIsSkipped :
    ((23#5).toNat < 24 ∧ State.reset.selCount.toNat ≤ Config.maxSel ∧ (6143#16).toNat < 256 * ((23#5).toNat + 1)
      ∧ State.reset.strict = false)
    ∧ ((0#5).toNat < 24 ∧ plain.selCount.toNat ≤ Config.maxSel ∧ (63#16).toNat < 64 * ((0#5).toNat + 1) ∧ plain.strict = true) :=
  ⟨⟨by decide, Nat.zero_le _, by decide, rfl⟩, by decide, Nat.zero_le _, by decide, rfl⟩

/-- Round 0 with exactly its tables, permissive, and round 23 in strict mode. -/
theorem witness_EmptyRoundDiffuses :
    ((0#5).toNat < 24 ∧ powers.selCount = 0#16 ∧ ValidRound powers (0#5).toNat
      ∧ (powers.strict = true → powers.sbLen.toNat = 6144 ∧ powers.rkLen.toNat = 1536))
    ∧ ((23#5).toNat < 24 ∧ plain.selCount = 0#16 ∧ ValidRound plain (23#5).toNat
      ∧ (plain.strict = true → plain.sbLen.toNat = 6144 ∧ plain.rkLen.toNat = 1536)) := by
  unfold ValidRound
  exact ⟨by decide, by decide⟩

theorem witness_RoundRefinesReference : (23#5).toNat < 24 ∧ TableChecksPass loaded ∧ ValidRound loaded (23#5).toNat
    ∧ RoundTablesIn loaded zeroTables (23#5).toNat ∧ SelectorsIn loaded zeroTables :=
  ⟨by decide, loaded_checks, by unfold ValidRound; decide, loaded_tables 23 (by decide), loaded_selectors⟩

theorem witness_MixRefinesReference : TableChecksPass loaded
    ∧ (∀ r, r < 24 → ValidRound loaded r → RoundTablesIn loaded zeroTables r) ∧ SelectorsIn loaded zeroTables :=
  ⟨loaded_checks, fun r h _ => loaded_tables r h, loaded_selectors⟩

theorem witness_MixIsTheRoundsInOrder : TableChecksPass loaded := loaded_checks

/-- The last byte of the last round's key; the command runs its diffusion. -/
theorem witness_RoundKeyTailIsIgnored :
    4 ≤ 63 ∧ 63 < 64 ∧ (23#5).toNat < 24 ∧ plain.busByte (0x0800 + 64 * (23#5).toNat + 63) = .ok 0#8
      ∧ ∃ t, exec (.round 23#5) plain = .next t := by
  refine ⟨by decide, by decide, by decide, ?_, ?_⟩
  · rw [busByte_ram (loaded_ram (by unfold LoadedAt; decide)), State.readByte_eq_ok]
    exact loaded_get (by unfold LoadedAt; decide)
  · obtain ⟨t, ht⟩ := rounds_without_selectors 1 23 plain rfl
    refine ⟨t, ?_⟩
    have hr : roundOrSkip plain 23 = .ok t := by
      unfold roundsFrom at ht
      obtain ⟨u, hu, h2⟩ := bind_eq_ok.1 ht
      rw [hu]; exact h2
    simp only [exec, execRound]
    rw [withRound_of_lt (by decide), withTables_of_none (tableCheck_eq_none.2 ⟨Nat.zero_le _, fun _ => ⟨rfl, rfl⟩⟩)]
    show answer (roundOrSkip plain 23) = _
    rw [hr]; rfl

theorem witness_KsgenStoresTheAnswer : State.reset.hashAnswers = true := rfl
theorem witness_SilentHashEngineHangs : ({ State.reset with hashAnswers := false } : State).hashAnswers = false := rfl

theorem witness_XorksCombinesDinAndKs :
    Holds loaded 0x0040 (Vector.replicate 32 0#8) ∧ Holds loaded 0x0080 (Vector.replicate 32 0#8) :=
  ⟨loaded_holds _ (by intro j h; unfold LoadedAt; omega), loaded_holds _ (by intro j h; unfold LoadedAt; omega)⟩

theorem loaded_buffer {a n : Nat} (h : ∀ j, j < n → LoadedAt (a + j)) : loaded.readBuffer a n = .ok (Vector.replicate n 0#8) :=
  State.readBuffer_eq_ok.2 fun i => by rw [loaded_get (h i.val i.isLt)]; simp

theorem witness_XorksIsItsOwnInverse : ∃ t, ∃ dout : Vector Byte 32, Holds loaded 0x0040 (Vector.replicate 32 0#8)
    ∧ exec .xorks loaded = .next t ∧ Holds t 0x0060 dout := by
  obtain ⟨v, hx⟩ : ∃ v : Vector Byte 32, xorksBody loaded = .ok (loaded.writeBuffer doutBase v) :=
    ⟨_, xorksBody_eq_ok.2 ⟨_, _,
      loaded_buffer (a := dinBase) (n := 32) (by intro j h; unfold LoadedAt; simp only [dinBase]; omega),
      loaded_buffer (a := ksBase) (n := 32) (by intro j h; unfold LoadedAt; simp only [ksBase]; omega), rfl⟩⟩
  refine ⟨_, v, loaded_holds _ (by intro j h; unfold LoadedAt; omega), answer_eq_next.2 hx, fun j => ?_⟩
  rw [busByte_ram (ramByte_iff.2 (by omega)), State.readByte_eq_ok]
  exact State.get?_writeBuffer_fin loaded doutBase v j

theorem witness_FeedbackXorsTheBlock : Holds loaded 0x0060 (Vector.replicate 32 0#8) :=
  loaded_holds _ (by intro j h; unfold LoadedAt; omega)

theorem witness_FeedbackTwiceRestores : ∃ t, exec .feedback loaded = .next t :=
  ⟨_, answer_eq_next.2 (feedbackBody_eq_ok.2 ⟨_, loaded_buffer (a := doutBase) (n := 32)
    (by intro j h; unfold LoadedAt; simp only [doutBase]; omega), rfl⟩)⟩

theorem witness_LoadkmBuildsFreshState : Holds loaded 0x0400 (Vector.replicate 448 0#8) :=
  loaded_holds _ (by intro j h; unfold LoadedAt; omega)

theorem witness_BlockComputesThePipeline : TableChecksPass loaded ∧ loaded.hashAnswers = true
    ∧ (∀ r, r < 24 → ValidRound loaded r → RoundTablesIn loaded zeroTables r) ∧ SelectorsIn loaded zeroTables
    ∧ Holds loaded 0x0400 (Vector.replicate 448 0#8) ∧ Holds loaded 0x0040 (Vector.replicate 32 0#8) :=
  ⟨loaded_checks, rfl, fun r h _ => loaded_tables r h, loaded_selectors, witness_LoadkmBuildsFreshState,
    witness_XorksCombinesDinAndKs.1⟩

theorem plain_checks : TableChecksPass plain := ⟨Nat.zero_le _, fun _ => ⟨rfl, rfl⟩⟩

theorem witness_BlockIsTheFiveCommands : TableChecksPass plain := plain_checks

theorem witness_BlockRepeatsItsOutput : ∃ t, TableChecksPass plain ∧ exec .block plain = .next t := by
  obtain ⟨t, -, ht, -⟩ := plain_block
  exact ⟨t, plain_checks, ht⟩

theorem witness_BlockDecryptsItself : ∃ t, ∃ dout : Vector Byte 32, TableChecksPass plain
    ∧ Holds plain 0x0040 (Vector.replicate 32 0#8) ∧ exec .block plain = .next t ∧ Holds t 0x0060 dout := by
  obtain ⟨t, dout, ht, hd⟩ := plain_block
  exact ⟨t, dout, plain_checks, plain_holds _ (by intro j h; unfold LoadedAt; omega), ht, hd⟩

/-- A word for each check, SEL_COUNT zero, and one that fails none. -/
theorem witness_CommandChecksInOrder :
    wordCheck 0x27000000#32 .reset = some .illegalOpcode ∧ wordCheck 0x12E00001#32 .reset = some .reservedField
      ∧ wordCheck 0x151C0000#32 .reset = some .badRegister ∧ wordCheck 0x21000018#32 .reset = some .badRound
      ∧ wordCheck 0x26000000#32 { State.reset with strict := true, sbLen := 6143#16, rkLen := 1536#16 } = some .invalidInputSize
      ∧ wordCheck 0x16A00000#32 .reset = none ∧ wordCheck 0x21000017#32 .reset = none := by decide

/-- Each of checks 3 to 6, at the lowest failing value. -/
theorem witness_FailedChecksArePrecise :
    commandCheck (.xor 0#3 6#3 7#3) .reset = some .badRegister ∧ commandCheck (.round 24#5) .reset = some .badRound
      ∧ commandCheck .mix24 { State.reset with selCount := BitVec.ofNat 16 (Config.maxSel + 1) } = some .badSelCount
      ∧ commandCheck .block { State.reset with strict := true, sbLen := 6143#16, rkLen := 1536#16 } = some .invalidInputSize := by
  refine ⟨by decide, by decide, ?_, by decide⟩
  have h := maxSel_le
  have hs : (BitVec.ofNat 16 (Config.maxSel + 1)).toNat = Config.maxSel + 1 := by
    rw [BitVec.toNat_ofNat, Nat.mod_eq_of_lt (by omega)]
  simp [commandCheck, registerFields, namesNoRound, usesTables, hs]

theorem witness_CheckedCommandsComplete :
    (commandCheck .block loaded = none ∧ loaded.ready .block = true ∧ loaded.hashAnswers = true)
      ∧ (commandCheck (.round 23#5) loaded = none ∧ loaded.ready (.round 23#5) = true)
      ∧ commandCheck (.putq 6#3) loaded = none ∧ loaded.ready (.putq 6#3) = true := by
  have hd : ∀ a, LoadedAt a → loaded.isDefined a = true := by
    intro a h
    have hr := loaded_ram h
    unfold State.isDefined
    split
    · next hreg => simp [ramByte, hreg] at hr
    · simp [hr, loaded_get h]
  have hreg : ∀ a, 0x100 ≤ a → a < 0x2C0 → loaded.isDefined a = true := by
    intro a h1 h2
    unfold State.isDefined
    rw [(regionOf_eq_some (r := .reg)).2 ⟨h1, h2⟩]
    simp [loaded, allMarked]
  have hc := maxSel_pos
  have hround : ∀ r, r < 24 → ∀ a ∈ roundAddresses loaded r, loaded.isDefined a = true := by
    intro r hr a ha
    unfold roundAddresses at ha
    split at ha
    · simp only [addresses, List.mem_append, List.mem_map, List.mem_range, sboxAddr, rkAddr, sboxBase, rkBase] at ha
      obtain ⟨k, hk, rfl⟩ | ⟨k, hk, rfl⟩ := ha <;> exact hd _ (by unfold LoadedAt; omega)
    · simp at ha
  have hsel : ∀ a ∈ selectorAddresses loaded, loaded.isDefined a = true := by
    intro a ha
    have h1 : loaded.selCount.toNat = 1 := rfl
    have h2 : loaded.kcCount.toNat = 1 := rfl
    simp only [selectorAddresses, h1, h2, addresses, List.mem_append, List.mem_map, List.mem_range, selAddr, kcAddr, selBase,
      kcBase] at ha
    obtain ⟨k, hk, rfl⟩ | ⟨k, hk, rfl⟩ := ha <;> exact hd _ (by unfold LoadedAt; omega)
  refine ⟨⟨?_, ?_, rfl⟩, ⟨?_, ?_⟩, by decide, ?_⟩
  · simp [commandCheck, registerFields, namesNoRound, usesTables, loaded]; omega
  · simp only [State.ready, List.all_eq_true, required, List.mem_append, List.mem_flatten, List.mem_map, List.mem_range]
    rintro a (((ha | ⟨l, ⟨r, hr, rfl⟩, ha⟩) | ha) | ha)
    · simp only [addresses, List.mem_map, List.mem_range, kmBase] at ha
      obtain ⟨k, hk, rfl⟩ := ha
      exact hd _ (by unfold LoadedAt; omega)
    · exact hround r hr a ha
    · exact hsel a ha
    · simp only [addresses, List.mem_map, List.mem_range, dinBase] at ha
      obtain ⟨k, hk, rfl⟩ := ha
      exact hd _ (by unfold LoadedAt; omega)
  · simp [commandCheck, registerFields, namesNoRound, usesTables, loaded]; omega
  · simp only [State.ready, List.all_eq_true, required, List.mem_append]
    rintro a ((ha | ha) | ha)
    · simp only [addresses, List.mem_map, List.mem_range, regBase] at ha
      obtain ⟨k, hk, rfl⟩ := ha
      exact hreg _ (by omega) (by omega)
    · exact hround 23 (by decide) a ha
    · exact hsel a ha
  · simp only [State.ready, List.all_eq_true, required, regAddresses, regIndex?_eq_some.2 (show (6#3).toNat = (6 : Fin 7).val from rfl),
      addresses, List.mem_map, List.mem_range, regBase]
    rintro a ⟨k, hk, rfl⟩
    exact hreg _ (by omega) (by have : (6 : Fin 7).val = 6 := rfl; omega)

/-- A fault of each kind. -/
theorem witness_CommandStopsAreModelFaults :
    exec .loadkm .reset = .fault (.uninitRead 0x400) ∧ exec .ksgen { State.reset with hashAnswers := false } = .fault .hashHang :=
  ⟨rfl, rfl⟩

/-- One selector, round 0 valid, no byte of RAM defined. -/
def bare : State := { State.reset with selCount := 1#16, kcCount := 1#16, sbLen := 256#16, rkLen := 64#16 }

/-- V-RND-1 without its S-box: SEL = [0x0005] and a zero round key; `entry` with the one entry of step 4. -/
def noSbox : State := { withRegs (fun i j => 16 * i + j) with
  selCount := 1#16
  sbLen := 256#16
  rkLen := 64#16
  mem := fill 0x0800 8 0#8 [(0x4000, 0x05#8), (0x4001, 0x00#8)] }

def entry : State := { noSbox with mem := fill 0x0800 8 0#8 [(0x105B, 0x5B#8), (0x4000, 0x05#8), (0x4001, 0x00#8)] }

theorem one_selector_checks (s : State) (h : s.selCount = 1#16) (hs : s.strict = false) : TableChecksPass s := by
  refine ⟨?_, fun h' => by rw [hs] at h'; cases h'⟩
  rw [h]; exact maxSel_pos

/-- The first and the last byte of each buffer, and each kind of table byte. -/
theorem witness_UndefinedBuffersStopCommands :
    (0 < 448 ∧ Memory.get? State.reset.mem (0x0400 + 0) = none) ∧ (447 < 448 ∧ Memory.get? State.reset.mem (0x0400 + 447) = none)
      ∧ TableChecksPass State.reset
      ∧ (31 < 32 ∧ Memory.get? State.reset.mem (0x0040 + 31) = none ∧ Memory.get? State.reset.mem (0x0080 + 31) = none)
      ∧ (31 < 32 ∧ Memory.get? State.reset.mem (0x0060 + 31) = none)
      ∧ ((0#5).toNat < 24 ∧ TableChecksPass bare ∧ ValidRound bare (0#5).toNat
        ∧ (1 < 2 * bare.selCount.toNat ∧ Memory.get? bare.mem (0x4000 + 1) = none)
        ∧ (0 < bare.selCount.toNat ∧ 0 < bare.kcCount.toNat ∧ Memory.get? bare.mem (0x8000 + 0) = none)
        ∧ (7 < 8 ∧ 0 < bare.selCount.toNat ∧ Memory.get? bare.mem (0x0800 + 64 * (0#5).toNat + 7) = none)) := by
  refine ⟨by decide, by decide, ⟨Nat.zero_le _, fun h => by cases h⟩, by decide, by decide, by decide,
    one_selector_checks bare rfl rfl, by unfold ValidRound; decide, by decide, by decide, by decide⟩

/-- What the first step of V-RND-1 reads. -/
def firstOfRnd1 : FirstSelector := ⟨0x0005#16, 0#32, none⟩

theorem first_in (s : State) (m : Memory) (hm : s.mem = fill 0x0800 8 0#8 m) (h0 : Memory.get? m 0x4000 = some 0x05#8)
    (h1 : Memory.get? m 0x4001 = some 0x00#8) (hs : s.selCount = 1#16) (hk : s.kcCount = 0#16) : firstOfRnd1.In s 0 := by
  have hmax := maxSel_pos
  have hb : ∀ a b, ramByte a = true → Memory.get? s.mem a = some b → s.busByte a = .ok b := fun a b hr hg => by
    rw [busByte_ram hr, State.readByte_eq_ok]; exact hg
  refine ⟨by rw [hs]; decide, hb _ _ (ramByte_iff.2 (by omega)) ?_, hb _ _ (ramByte_iff.2 (by omega)) ?_, fun j hj => ?_,
    fun j h4 h8 => ⟨0#8, hb _ _ (ramByte_iff.2 (by omega)) ?_⟩, fun k h => ?_, fun _ => ?_⟩
  · rw [hm, get?_fill, if_neg (by omega), h0]; rfl
  · rw [hm, get?_fill, if_neg (by omega), h1]; rfl
  · refine hb _ _ (ramByte_iff.2 (by omega)) ?_
    rw [hm, get?_fill, if_pos (by omega)]; simp [firstOfRnd1, byteOf]
  · rw [hm, get?_fill, if_pos (by omega)]
  · cases h
  · rw [hk]; rfl

/-- The two S-box look-ups of V-RND-1, each undefined in turn. -/
theorem witness_UndefinedBuffersStopCommands_SBOX :
    ((0#5).toNat < 24 ∧ TableChecksPass noSbox ∧ ValidRound noSbox (0#5).toNat ∧ firstOfRnd1.In noSbox (0#5).toNat
      ∧ Memory.get? noSbox.mem (0x1000 + 256 * (0#5).toNat + (firstOfRnd1.index noSbox).toNat) = none)
    ∧ (TableChecksPass entry ∧ ValidRound entry (0#5).toNat ∧ firstOfRnd1.In entry (0#5).toNat
      ∧ entry.busByte (0x1000 + 256 * (0#5).toNat + (firstOfRnd1.index entry).toNat) = .ok 0x5B#8
      ∧ Memory.get? entry.mem (0x1000 + 256 * (0#5).toNat + (firstOfRnd1.low entry 0x5B#8).toNat) = none) := by
  have hg : (firstOfRnd1.index entry).toNat = 0x5B := by decide +kernel
  refine ⟨⟨by decide, one_selector_checks _ rfl rfl, by unfold ValidRound; decide, first_in _ _ rfl rfl rfl rfl rfl, by decide +kernel⟩,
    one_selector_checks _ rfl rfl, by unfold ValidRound; decide, first_in _ _ rfl rfl rfl rfl rfl, ?_, by decide +kernel⟩
  rw [hg, busByte_ram (ramByte_iff.2 (by simp)), State.readByte_eq_ok]
  decide +kernel

-- V-RND-1: the index 0x5B of step 4, in the words of the statement.
theorem test_first_index : firstOfRnd1.index noSbox = 0x5B#8 := by decide +kernel

/-- ERR and RSKIP set, and a command that records one more error. -/
theorem witness_StatusIsStickyUnderCommands : ∃ t, exec (.getq 7#3) (State.reset.raiseError .badRound).markSkipped = .next t
    ∧ (State.reset.raiseError .badRound).markSkipped.err = true ∧ (State.reset.raiseError .badRound).markSkipped.rskip = true :=
  ⟨_, rfl, rfl, rfl⟩

/-- ERR and RSKIP set, and each of the two events that clear each. -/
theorem witness_OnlyHostClearsErr :
    (∃ t, step { State.reset.raiseError .badRound with events := [.reset], rskip := true } = .next t ∧ t.err = false
        ∧ t.rskip = false)
      ∧ (∃ t, step { State.reset.raiseError .badRound with events := [.access (.write 0x0004#16 .w8 1#32)] } = .next t
          ∧ t.err = false)
      ∧ ∃ t, step { State.reset with events := [.access (.write 0x0004#16 .w16 2#32)], rskip := true } = .next t
          ∧ t.rskip = false := ⟨⟨_, rfl, rfl, rfl⟩, ⟨_, rfl, rfl⟩, ⟨_, rfl, rfl⟩⟩

-- R81, log 19: bytes 1..3 of STATUS take no write.
theorem test_status_narrow :
    afterAccess (.write 0x0005#16 .w8 3#32) (State.reset.raiseError .busWidth).markSkipped = some (0x00001203#32, [])
      ∧ afterAccess (.write 0x0006#16 .w16 3#32) (State.reset.raiseError .busWidth).markSkipped = some (0x00001203#32, []) := by
  decide

theorem witness_CommandsLeaveHostInputs : ∃ t, exec .ksgen .reset = .next t := ⟨_, rfl⟩

theorem witness_HashPortUse : (∃ t, exec .ksgen .reset = .next t) ∧ (∃ t, exec .block plain = .next t ∧ commandCheck .block plain = none)
    ∧ ∃ t, exec .nop .reset = .next t := by
  obtain ⟨t, -, ht, -⟩ := plain_block
  exact ⟨⟨_, rfl⟩, ⟨t, ht, by simp [commandCheck, registerFields, namesNoRound, usesTables, plain, loaded]⟩, ⟨_, rfl⟩⟩

/-- Both ends of every gap, and the mapped bytes beside them. -/
theorem witness_UnmappedAddressesAreTheGaps :
    (∀ a ∈ [0x00A0, 0x00FF, 0x02C0, 0x02FF, 0x0380, 0x03FF, 0x05C0, 0x07FF, 0x0E00, 0x0FFF, 0x2800, 0x3FFF], regionOf a = none)
      ∧ (∀ a ∈ [0x0000, 0x009F, 0x0100, 0x02BF, 0x0300, 0x037F, 0x0400, 0x05BF, 0x0800, 0x0DFF, 0x1000, 0x27FF],
          regionOf a ≠ none) := by decide

theorem witness_UnmappedAddressesAreTheGaps_SEL : regionOf (0x4000 + 2 * Config.maxSel - 1) = some .sel
    ∧ regionOf (0x8000 + Config.maxSel - 1) = some .kc
    ∧ (Config.maxSel < 8192 → regionOf (0x4000 + 2 * Config.maxSel) = none ∧ regionOf 0x7FFF = none)
    ∧ regionOf (0x8000 + Config.maxSel) = none ∧ regionOf 0xFFFF = none := by
  have h1 := maxSel_pos
  have h2 := maxSel_le
  have hn : ∀ a, (0x4000 + 2 * Config.maxSel ≤ a ∧ a < 0x8000) ∨ 0x8000 + Config.maxSel ≤ a → regionOf a = none := by
    intro a h
    rw [regionOf_eq]
    repeat' split
    all_goals first | rfl | omega
  exact ⟨(regionOf_eq_some (r := .sel)).2 ⟨by omega, by omega⟩, (regionOf_eq_some (r := .kc)).2 ⟨by omega, by omega⟩,
    fun h => ⟨hn _ (by omega), hn _ (by omega)⟩, hn _ (by omega), hn _ (by omega)⟩

theorem witness_BadAddressesAreReported :
    (0x8001#16).toNat % Width.w16.bytes ≠ 0 ∧ (0x00A2#16).toNat % Width.w32.bytes ≠ 0
      ∧ ((0x00A0#16).toNat % Width.w32.bytes = 0 ∧ ∃ k, k < Width.w32.bytes ∧ regionOf ((0x00A0#16).toNat + k) = none) :=
  ⟨by decide, by decide, by decide, 0, by decide, by decide⟩

/-- Every end of every range, at each width that fits. -/
theorem witness_ForbiddenWritesStoreNothing :
    ((0x0003#16).toNat % Width.w8.bytes = 0 ∧ (0x0003#16).toNat < 4 ∧ Width.w8 ≠ .w32)
      ∧ ((0x0000#16).toNat % Width.w16.bytes = 0 ∧ (0x0000#16).toNat < 4 ∧ Width.w16 ≠ .w32)
      ∧ ((0x0060#16).toNat % Width.w32.bytes = 0 ∧ 0x0060 ≤ (0x0060#16).toNat ∧ (0x0060#16).toNat < 0x00A0)
      ∧ ((0x009F#16).toNat % Width.w8.bytes = 0 ∧ 0x0060 ≤ (0x009F#16).toNat ∧ (0x009F#16).toNat < 0x00A0)
      ∧ ((0x0300#16).toNat % Width.w32.bytes = 0 ∧ 0x0300 ≤ (0x0300#16).toNat ∧ (0x037F#16).toNat < 0x0380)
      ∧ ((0x000C#16).toNat % Width.w32.bytes = 0 ∧ 0x000C ≤ (0x000C#16).toNat ∧ (0x000F#16).toNat < 0x0010)
      ∧ ((0x0030#16).toNat % Width.w32.bytes = 0 ∧ 0x0030 ≤ (0x0030#16).toNat ∧ (0x003F#16).toNat < 0x0040) := by decide

theorem witness_FirstErrorCodeIsKept : State.reset.err = false ∧ (State.reset.raiseError .badRound).err = true := ⟨rfl, rfl⟩

/-- Four bytes of RAM, and the constant ID. -/
theorem witness_ReadsAnswerBytesInOrder :
    (busCheck (.read 0x005C#16 .w32) = none ∧ ∀ k, k < Width.w32.bytes → loaded.busByte ((0x005C#16).toNat + k) = .ok 0#8)
      ∧ (busCheck (.read 0x000C#16 .w32) = none ∧ ∀ k, k < Width.w32.bytes →
          State.reset.busByte ((0x000C#16).toNat + k) = .ok (byteOf idWord k))
      ∧ (busCheck (.read 0x27FE#16 .w16) = none ∧ 1 < Width.w16.bytes ∧ ramByte ((0x27FE#16).toNat + 1) = true
        ∧ Memory.get? State.reset.mem ((0x27FE#16).toNat + 1) = none) := by
  refine ⟨⟨by decide, fun k hk => loaded_byte ?_⟩, ⟨by decide, fun k hk => ?_⟩, by decide⟩
  rotate_left
  · have h1 : Width.w32.bytes = 4 := rfl
    rw [h1] at hk
    interval_cases k <;> rfl
  unfold LoadedAt
  have h1 : Width.w32.bytes = 4 := rfl
  have h2 : (0x005C#16).toNat = 0x5C := rfl
  omega

/-- The first and the last writable address of regions of each kind, each width once. -/
theorem witness_WritesAreReadBack :
    (busCheck (.write 0x005E#16 .w16 0xFFFFFFFF#32) = none ∧ HostWritable (0x005E#16).toNat)
      ∧ (busCheck (.write 0x0100#16 .w32 1#32) = none ∧ HostWritable (0x0100#16).toNat)
      ∧ (busCheck (.write 0x27FF#16 .w8 1#32) = none ∧ HostWritable (0x27FF#16).toNat)
      ∧ (busCheck (.write 0x4000#16 .w16 1#32) = none ∧ HostWritable (0x4000#16).toNat)
      ∧ (busCheck (.write 0x8000#16 .w8 1#32) = none ∧ HostWritable (0x8000#16).toNat) := by
  have h := maxSel_pos
  have hsel : regionOf 0x4000 = some .sel := (regionOf_eq_some (r := .sel)).2 ⟨by omega, by omega⟩
  have hkc : regionOf 0x8000 = some .kc := (regionOf_eq_some (r := .kc)).2 ⟨by omega, by omega⟩
  have hsel1 : regionOf 0x4001 = some .sel := (regionOf_eq_some (r := .sel)).2 ⟨by omega, by omega⟩
  unfold HostWritable
  refine ⟨⟨by decide, by decide⟩, ⟨by decide, by decide⟩, ⟨by decide, by decide⟩, ⟨?_, ?_⟩, ⟨?_, ?_⟩⟩
  · rw [busCheck_write_eq_none]
    refine ⟨by decide, mapped_iff.2 ⟨⟨.sel, selBase, 2 * Config.maxSel⟩, by simp [addressMap], fun k hk => ?_⟩, by decide, ?_⟩
    · have h1 : Width.w16.bytes = 2 := rfl
      have h2 : (0x4000#16).toNat = 0x4000 := rfl
      simp only [RegionRow.holds, selBase, Bool.and_eq_true, decide_eq_true_eq]
      omega
    · show touchesReadOnly 0x4000 2 = false
      simp [touchesReadOnly, List.range, List.range.loop, readOnly, hsel, hsel1]
  · exact .inr (.inr (.inr (.inr (.inr (.inl hsel)))))
  · rw [busCheck_write_eq_none]
    refine ⟨by decide, mapped_iff.2 ⟨⟨.kc, kcBase, Config.maxSel⟩, by simp [addressMap], fun k hk => ?_⟩, by decide, ?_⟩
    · have h1 : Width.w8.bytes = 1 := rfl
      have h2 : (0x8000#16).toNat = 0x8000 := rfl
      simp only [RegionRow.holds, kcBase, Bool.and_eq_true, decide_eq_true_eq]
      omega
    · show touchesReadOnly 0x8000 1 = false
      simp [touchesReadOnly, List.range, List.range.loop, readOnly, hkc]
  · exact .inr (.inr (.inr (.inr (.inr (.inr hkc)))))

/-- The first and the last byte of the registers, and a byte of RAM. -/
theorem witness_ResetValues : regionOf 0x0100 = some .reg ∧ regionOf 0x02BF = some .reg ∧ ramByte 0x27FF = true := by decide

/-- The invariant in a state that is not reset's, and a step from there. -/
theorem witness_EveryStepKeepsTheInvariant :
    Invariant { State.reset with mem := [(0x40, 1#8), (0x27FF, 2#8)], err := true, errCode := .badRound, events := [commandWrite 0#32] }
      ∧ ∃ t, step { State.reset with
          mem := [(0x40, 1#8), (0x27FF, 2#8)], err := true, errCode := .badRound, events := [commandWrite 0#32] } = .next t := by
  unfold Invariant
  exact ⟨⟨by decide, by decide, by decide, by decide⟩, _, rfl⟩

theorem witness_SelectorOrderIsStable : [5, 3, 5, 1].length = [0xA#16, 0xB#16, 0xC#16, 0xD#16].length := rfl

/-- A batch of one partial block: nothing but the loading of the tables. -/
def shortBatch : BatchArgs where
  plaintext := List.replicate 31 0#8
  key := []
  iv := []
  start := 0
  keyMaterial := List.replicate 448 0#8
  selectors := []
  sboxes := []
  roundKeys := []

theorem witness_BatchOutputLength : ∃ out, encryptBatch shortBatch .reset = some (.next out) := by
  have h : (match encryptBatch shortBatch .reset with
      | some (.next _) => true
      | _ => false) = true := by decide +kernel
  split at h
  · next out ho => exact ⟨out, ho⟩
  · cases h

theorem witness_BatchRoundTrip : ({ shortBatch with plaintext := List.replicate 64 0xAA#8, selectors := [5#16] } : BatchArgs).admitted = true
    ∧ State.reset.hashAnswers = true ∧ loaded.hashAnswers = true :=
  ⟨by simp only [BatchArgs.admitted, Bool.and_eq_true, decide_eq_true_eq]; exact ⟨beq_iff_eq.2 List.length_replicate, maxSel_pos⟩, rfl, rfl⟩

/-- One whole block with tables of length 0, and the same with tables of the lengths the strict entry asks for. -/
def oneBlock : BatchArgs := { shortBatch with plaintext := List.replicate 32 0#8 }

def fullTables : BatchArgs := { oneBlock with sboxes := List.replicate 6144 0#8, roundKeys := List.replicate 1536 0#8 }

theorem witness_StrictBatchShowsItsError :
    (oneBlock.admitted = true ∧ (oneBlock.sboxes.length ≠ 6144 ∨ oneBlock.roundKeys.length ≠ 1536) ∧ 0 < oneBlock.blocks
      ∧ Holds loaded 0x0060 (Vector.replicate 32 0#8))
    ∧ (fullTables.admitted = true ∧ fullTables.sboxes.length = 6144 ∧ fullTables.roundKeys.length = 1536
      ∧ State.reset.hashAnswers = true) := by
  have hk : oneBlock.admitted = true := by
    simp only [BatchArgs.admitted, Bool.and_eq_true, decide_eq_true_eq]
    exact ⟨beq_iff_eq.2 List.length_replicate, Nat.zero_le _⟩
  exact ⟨⟨hk, .inl (by decide), by decide, witness_FeedbackXorsTheBlock⟩, hk, List.length_replicate, List.length_replicate, rfl⟩

-- P6 step 1 by the host's procedure, R260: INVALID_INPUT_SIZE is seen after the first BLOCK, and no DOUT is read.
theorem test_strict_batch : (match encryptBatchStrict .eachBlock oneBlock .reset with
    | some (.next r) => r == ⟨[], [0x00000601#32]⟩
    | _ => false) = true := by decide +kernel

end

end Sys2Proof.Tests
end

section
/-! PROOFS. What a command changes, said once: it records an error and nothing else, or it has the effect of a body. What a host
write and a step change follows, and from these the frame of the commands, the stickiness of STATUS and the invariant. -/

namespace Sys2Proof.Machine

/-! ## What a command changes -/

/-- What every command that passes its checks may do: no host input changes and no flag is cleared; ACC stays or is zeroed; RAM is
written in DOUT and KS only, 0x60..0x9F. -/
structure Effect (s t : State) : Prop where
  /-- The fields a command may write. -/
  frame : t = { s with regs := t.regs, regMarks := t.regMarks, acc := t.acc, accsum := t.accsum, q := t.q, gfr := t.gfr
                       mem := t.mem, rskip := t.rskip, hashRequests := t.hashRequests }
  /-- RSKIP is sticky. -/
  rskip : s.rskip = true → t.rskip = true
  /-- ACC stays or is zeroed. -/
  acc : t.acc = s.acc ∨ t.acc = Vector.replicate 128 0#8
  /-- RAM stays in canonical form. -/
  wf : Memory.wf s.mem → Memory.wf t.mem
  /-- A defined byte was defined before or lies in DOUT or KS. -/
  entries : ∀ c ∈ t.mem, c ∈ s.mem ∨ (doutBase ≤ c.1 ∧ c.1 < ksBase + 32)
  /-- Outside DOUT and KS every byte is as before. -/
  bytes : ∀ a, a < doutBase ∨ ksBase + 32 ≤ a → Memory.get? t.mem a = Memory.get? s.mem a

/-- An effect that leaves RAM alone. -/
theorem Effect.of_mem_eq {s t : State}
    (frame : t = { s with regs := t.regs, regMarks := t.regMarks, acc := t.acc, accsum := t.accsum, q := t.q, gfr := t.gfr
                          mem := t.mem, rskip := t.rskip, hashRequests := t.hashRequests })
    (rskip : s.rskip = true → t.rskip = true) (acc : t.acc = s.acc ∨ t.acc = Vector.replicate 128 0#8)
    (mem : t.mem = s.mem) : Effect s t where
  frame := frame
  rskip := rskip
  acc := acc
  wf := mem ▸ id
  entries := fun _ h => .inl (mem ▸ h)
  bytes := fun _ _ => by rw [mem]

theorem Effect.refl (s : State) : Effect s s := .of_mem_eq rfl id (.inl rfl) rfl

theorem Effect.trans {s t u : State} (h : Effect s t) (k : Effect t u) : Effect s u where
  frame := by
    have e := k.frame
    rw [h.frame] at e
    exact e
  rskip := k.rskip ∘ h.rskip
  acc := by
    rcases k.acc with e | e
    · rw [e]; exact h.acc
    · exact .inr e
  wf := k.wf ∘ h.wf
  entries := fun c hc => (k.entries c hc).elim (h.entries c) .inr
  bytes := fun a ha => (k.bytes a ha).trans (h.bytes a ha)

/-- Writing registers is an effect. -/
theorem effect_setReg (s : State) (i : Fin 7) (v : Reg512) : Effect s (s.setReg i v) :=
  .of_mem_eq rfl id (.inl rfl) rfl

theorem effect_setRegs (s : State) (rs : Regs) : Effect s (s.setRegs rs) := .of_mem_eq rfl id (.inl rfl) rfl

/-- So is writing 32 bytes from an address of DOUT or KS. -/
theorem effect_writeBuffer (s : State) {a : Nat} (v : Vector Byte 32) (h1 : doutBase ≤ a) (h2 : a ≤ ksBase) :
    Effect s (s.writeBuffer a v) where
  frame := rfl
  rskip := id
  acc := .inl rfl
  wf := fun h => Memory.wf_setList h a v.toList
  entries := fun c hc => by
    rcases Memory.mem_setList hc with ⟨h3, h4⟩ | h
    · rw [Vector.length_toList] at h4
      exact .inr ⟨by omega, by omega⟩
    · exact .inl h
  bytes := fun x hx => State.get?_writeBuffer_outside s a v (by omega)

/-! ## The bodies -/

theorem loadkmBody_effect {s t : State} (h : loadkmBody s = .ok t) : Effect s t := by
  obtain ⟨km, -, rfl⟩ := loadkmBody_eq_ok.1 h
  exact .of_mem_eq rfl id (.inr rfl) rfl

/-- What leaves all but registers, marks, ACCSUM and RSKIP alone is an effect. -/
theorem effect_of_cipher_frame {s t : State}
    (h : t = { s with regs := t.regs, regMarks := t.regMarks, accsum := t.accsum, rskip := t.rskip }
      ∧ (s.rskip = true → t.rskip = true)) : Effect s t := by
  obtain ⟨hf, hk⟩ := h
  refine .of_mem_eq ?_ hk (.inl ?_) ?_ <;> rw [hf]

theorem ksgenBody_effect {s t : State} (h : ksgenBody s = .ok t) : Effect s t := by
  obtain ⟨-, rfl⟩ := ksgenBody_eq_ok.1 h
  have request : Effect s { s with hashRequests := ⟨s.ksMessage, 32⟩ :: s.hashRequests } := .of_mem_eq rfl id (.inl rfl) rfl
  exact request.trans (effect_writeBuffer _ (Config.xof s.ksMessage 32) (by decide) le_rfl)

theorem xorksBody_effect {s t : State} (h : xorksBody s = .ok t) : Effect s t := by
  obtain ⟨din, ks, -, -, rfl⟩ := xorksBody_eq_ok.1 h
  exact effect_writeBuffer s _ le_rfl (by decide)

theorem feedbackBody_effect {s t : State} (h : feedbackBody s = .ok t) : Effect s t := by
  obtain ⟨ct, -, rfl⟩ := feedbackBody_eq_ok.1 h
  exact effect_setRegs s _

theorem blockBody_effect {s t : State} (h : blockBody s = .ok t) : Effect s t := by
  obtain ⟨s1, s2, s3, s4, h1, h2, h3, h4, h5⟩ := blockBody_eq_ok.1 h
  exact (loadkmBody_effect h1).trans <| (effect_of_cipher_frame (mixBody_frame h2)).trans <|
    (ksgenBody_effect h3).trans <| (xorksBody_effect h4).trans (feedbackBody_effect h5)

/-! ## The commands -/

/-- Whatever state the result answers, it is the old one with an error recorded, or one that an effect leads to. -/
def ErrorOrEffect (s : State) (r : Result) : Prop :=
  ∀ t, r = .next t → (∃ c, c ≠ .noError ∧ t = s.raiseError c) ∨ Effect s t

theorem errorOrEffect_raiseError (s : State) {c : ErrorCode} (h : c ≠ .noError) : ErrorOrEffect s (.next (s.raiseError c)) := by
  rintro t ⟨⟩
  exact .inl ⟨c, h, rfl⟩

theorem errorOrEffect_next {s t : State} (h : Effect s t) : ErrorOrEffect s (.next t) := by
  rintro u ⟨⟩
  exact .inr h

theorem errorOrEffect_answer {s : State} {x : Except Fault State} (h : ∀ t, x = .ok t → Effect s t) :
    ErrorOrEffect s (answer x) :=
  fun t ht => .inr (h t (answer_eq_next.1 ht))

theorem errorOrEffect_withReg {s : State} {r : BitVec 3} {k : Fin 7 → Result} (h : ∀ i, ErrorOrEffect s (k i)) :
    ErrorOrEffect s (withReg r s k) := by
  rcases withReg_cases r s k with ⟨i, -, e⟩ | ⟨-, e⟩ <;> rw [e]
  · exact h i
  · exact errorOrEffect_raiseError s (by decide)

theorem errorOrEffect_withRound {s : State} {r : BitVec 5} {k : Fin 24 → Result} (h : ∀ i, ErrorOrEffect s (k i)) :
    ErrorOrEffect s (withRound r s k) := by
  rcases withRound_cases r s k with ⟨hr, e⟩ | ⟨-, e⟩ <;> rw [e]
  · exact h _
  · exact errorOrEffect_raiseError s (by decide)

theorem errorOrEffect_withTables {s : State} {k : Result} (h : ErrorOrEffect s k) : ErrorOrEffect s (withTables s k) := by
  rcases withTables_cases s k with ⟨-, e⟩ | ⟨-, e⟩ | ⟨-, -, e⟩ <;> rw [e]
  · exact h
  · exact errorOrEffect_raiseError s (by decide)
  · exact errorOrEffect_raiseError s (by decide)

/-- The inversion of a command: it records an error and does nothing else, or it has an effect. -/
theorem exec_errorOrEffect (i : Instr) (s : State) : ErrorOrEffect s (exec i s) := by
  cases i with
  | nop => exact errorOrEffect_next (Effect.refl s)
  | gfmul a b => exact errorOrEffect_next (.of_mem_eq rfl id (.inl rfl) rfl)
  | gfmulb rd rs1 c =>
    exact errorOrEffect_withReg fun d => errorOrEffect_withReg fun a => errorOrEffect_next (effect_setReg s d _)
  | xor rd rs1 rs2 =>
    exact errorOrEffect_withReg fun d => errorOrEffect_withReg fun a => errorOrEffect_withReg fun b =>
      errorOrEffect_next (effect_setReg s d _)
  | rotl rd rs1 n => exact errorOrEffect_withReg fun d => errorOrEffect_withReg fun a => errorOrEffect_next (effect_setReg s d _)
  | xinj rd j v => exact errorOrEffect_withReg fun d => errorOrEffect_next (.of_mem_eq rfl id (.inl rfl) rfl)
  | getq rs1 => exact errorOrEffect_withReg fun a => errorOrEffect_next (.of_mem_eq rfl id (.inl rfl) rfl)
  | putq rd => exact errorOrEffect_withReg fun d => errorOrEffect_next (effect_setReg s d _)
  | loadkm => exact errorOrEffect_answer fun t => loadkmBody_effect
  | round rnd =>
    exact errorOrEffect_withRound fun r => errorOrEffect_withTables <| errorOrEffect_answer fun t h =>
      effect_of_cipher_frame (roundOrSkip_frame h)
  | mix24 => exact errorOrEffect_withTables <| errorOrEffect_answer fun t h => effect_of_cipher_frame (mixBody_frame h)
  | ksgen => exact errorOrEffect_answer fun t => ksgenBody_effect
  | xorks => exact errorOrEffect_answer fun t => xorksBody_effect
  | feedback => exact errorOrEffect_answer fun t => feedbackBody_effect
  | block => exact errorOrEffect_withTables <| errorOrEffect_answer fun t => blockBody_effect

theorem errorOfDecode_ne_noError (e : DecodeError) : errorOfDecode e ≠ .noError := by
  cases e <;> decide

/-- The same of a word written to CMD. -/
theorem runCommand_errorOrEffect (w : BitVec 32) (s : State) : ErrorOrEffect s (runCommand w s) := by
  rcases runCommand_cases w s with ⟨i, -, e⟩ | ⟨d, -, e⟩ <;> rw [e]
  · exact exec_errorOrEffect i s
  · exact errorOrEffect_raiseError s (errorOfDecode_ne_noError d)

/-! ## What a host write changes -/

/-- A write of one byte clears STATUS, or defines a byte of RAM, or leaves RAM, ACC and STATUS alone. -/
theorem busWriteByte_cases (s : State) (a : Nat) (b : Byte) :
    (a = 4 ∧ s.busWriteByte a b = s.clearStatus b)
      ∨ (ramByte a = true ∧ s.busWriteByte a b = { s with mem := Memory.set s.mem a b })
      ∨ s.busWriteByte a b = { s.busWriteByte a b with
          mem := s.mem, acc := s.acc, err := s.err, errCode := s.errCode, rskip := s.rskip } := by
  unfold State.busWriteByte
  cases hr : regionOf a with
  | none => exact .inr (.inr rfl)
  | some r =>
    cases r with
    | control =>
      simp only [State.writeControl]
      split
      · split
        · exact .inl ⟨by omega, rfl⟩
        · exact .inr (.inr rfl)
      · split <;> exact .inr (.inr rfl)
      all_goals exact .inr (.inr rfl)
    | reg | dout | ks | acc => exact .inr (.inr rfl)
    | din | km | rk | sbox | sel | kc => exact .inr (.inl ⟨by simp [ramByte, hr], rfl⟩)

end Sys2Proof.Machine
end

section
/-! PROOFS. The invariant of the machine, from reset and through every step; STATUS and the host's inputs under commands; what the
host's accesses do to STATUS. -/

namespace Sys2Proof.Machine
open Sys2Proof.Claim

/-! ## The invariant, operation by operation -/

/-- The invariant reads RAM, ERR, ERRCODE and ACC only. -/
theorem invariant_congr {s t : State} (h : Invariant s) (mem : t.mem = s.mem) (acc : t.acc = s.acc) (err : t.err = s.err)
    (code : t.errCode = s.errCode) : Invariant t := by
  unfold Invariant
  rw [mem, acc, err, code]
  exact h

theorem invariant_reset : Invariant State.reset :=
  ⟨State.reset_mem_wf, fun _ hc => absurd hc List.not_mem_nil, by decide, fun j => by simp [State.reset]⟩

theorem invariant_raiseError {s : State} (h : Invariant s) {c : ErrorCode} (hc : c ≠ .noError) : Invariant (s.raiseError c) := by
  obtain ⟨hwf, hram, hcode, hacc⟩ := h
  refine ⟨hwf, hram, ?_, hacc⟩
  cases he : s.err <;> simp [he, hc] at hcode ⊢
  exact hcode

theorem invariant_clearStatus {s : State} (h : Invariant s) (b : Byte) : Invariant (s.clearStatus b) := by
  obtain ⟨hwf, hram, hcode, hacc⟩ := h
  refine ⟨hwf, hram, ?_, hacc⟩
  cases hb : b.getLsbD 0 <;> simp [hb, hcode]

/-- Every byte of DOUT and KS is one of the RAM regions'. -/
theorem ramByte_of_output {a : Nat} (h : doutBase ≤ a ∧ a < ksBase + 32) : ramByte a = true :=
  ramByte_iff.2 (.inl ⟨by simp only [doutBase] at h; omega, h.2⟩)

theorem invariant_effect {s t : State} (h : Invariant s) (e : Effect s t) : Invariant t := by
  obtain ⟨hwf, hram, hcode, hacc⟩ := h
  refine ⟨e.wf hwf, fun c hc => (e.entries c hc).elim (hram c) ramByte_of_output, ?_, fun j => ?_⟩
  · rw [e.frame]; exact hcode
  · rcases e.acc with ha | ha <;> rw [ha]
    · exact hacc j
    · simp

theorem invariant_errorOrEffect {s t : State} {r : Result} (h : Invariant s) (hc : ErrorOrEffect s r)
    (ht : r = .next t) : Invariant t := by
  rcases hc t ht with ⟨c, hne, rfl⟩ | e
  · exact invariant_raiseError h hne
  · exact invariant_effect h e

theorem invariant_busWriteByte {s : State} (h : Invariant s) (a : Nat) (b : Byte) : Invariant (s.busWriteByte a b) := by
  rcases busWriteByte_cases s a b with ⟨-, e⟩ | ⟨hr, e⟩ | e <;> rw [e]
  · exact invariant_clearStatus h b
  · obtain ⟨hwf, hram, hcode, hacc⟩ := h
    refine ⟨Memory.wf_set hwf a b, fun c hc => ?_, hcode, hacc⟩
    rcases Memory.mem_set hc with rfl | hc
    · exact hr
    · exact hram c hc
  · exact invariant_congr h rfl rfl rfl rfl

theorem invariant_busWriteBytes {s : State} (h : Invariant s) (a : Nat) (bs : List Byte) : Invariant (s.busWriteBytes a bs) := by
  induction bs generalizing s a with
  | nil => exact h
  | cons b bs ih => exact ih (invariant_busWriteByte h a b) (a + 1)

theorem invariant_failedAccess {s : State} (h : Invariant s) (a : Access) {c : ErrorCode} (hc : c ≠ .noError) :
    Invariant (failedAccess a c s) := by
  cases a with
  | read addr w => exact invariant_congr (invariant_raiseError h hc) rfl rfl rfl rfl
  | write addr w v => exact invariant_raiseError h hc

theorem invariant_performAccess {s t : State} (h : Invariant s) {a : Access} (ht : performAccess a s = .next t) :
    Invariant t := by
  rcases performAccess_cases a s with ⟨c, hb, e⟩ | ⟨-, ⟨addr, w, v, -, -, e⟩ | ⟨addr, w, f, -, -, e⟩ | ⟨w, v, -, e⟩ |
    ⟨addr, w, v, -, -, e⟩⟩ <;> rw [e] at ht
  · cases ht
    exact invariant_failedAccess h a fun hc => busCheck_ne_noError a (hc ▸ hb)
  · cases ht
    exact invariant_congr h rfl rfl rfl rfl
  · cases ht
  · exact invariant_errorOrEffect h (runCommand_errorOrEffect v s) ht
  · cases ht
    exact invariant_busWriteBytes h _ _

theorem invariant_performEvent {s t : State} (h : Invariant s) {e : Event} (ht : performEvent e s = .next t) : Invariant t := by
  rcases performEvent_cases e s with ⟨a, -, he⟩ | ⟨-, he⟩ | ⟨b, -, he⟩ <;> rw [he] at ht
  · exact invariant_performAccess h ht
  · cases ht
    exact invariant_congr invariant_reset rfl rfl rfl rfl
  · cases ht
    exact invariant_congr h rfl rfl rfl rfl

/-! ## STATUS -/

/-- A command clears neither ERR nor RSKIP, and keeps the code of an error. -/
theorem ErrorOrEffect.status {s t : State} {r : Result} (hc : ErrorOrEffect s r) (ht : r = .next t) :
    (s.err = true → t.err = true ∧ t.errCode = s.errCode) ∧ (s.rskip = true → t.rskip = true) := by
  rcases hc t ht with ⟨c, -, rfl⟩ | e
  · exact ⟨fun h => ⟨rfl, by simp [h]⟩, id⟩
  · refine ⟨fun h => ?_, e.rskip⟩
    rw [e.frame]
    exact ⟨h, rfl⟩

/-- A byte write clears STATUS or leaves its flags alone. -/
theorem busWriteByte_flags (s : State) (a : Nat) (b : Byte) :
    (a = 4 ∧ s.busWriteByte a b = s.clearStatus b)
      ∨ ((s.busWriteByte a b).err = s.err ∧ (s.busWriteByte a b).rskip = s.rskip) := by
  rcases busWriteByte_cases s a b with h | ⟨-, e⟩ | e
  · exact .inl h
  · exact .inr (by rw [e]; exact ⟨rfl, rfl⟩)
  · exact .inr (by rw [e]; exact ⟨rfl, rfl⟩)

/-- A flag of STATUS that bit n of byte 0 clears: commands do not, no other byte of a host write does, and it is no field of the
agents. -/
structure StatusFlag (f : State → Bool) (n : Nat) : Prop where
  /-- The bit lies in byte 0. -/
  lt : n < 8
  /-- Commands, and errors recorded, leave it set. -/
  commands : ∀ {s t : State} {r : Result}, ErrorOrEffect s r → r = .next t → f s = true → f t = true
  /-- A byte write that clears it is one of byte 0 of STATUS with bit n set. -/
  write : ∀ {s : State} {a : Nat} {b : Byte}, f s = true → f (s.busWriteByte a b) = false → a = 4 ∧ b.getLsbD n = true
  /-- What is pending, what was answered and the engine are not it. -/
  agents : ∀ (s : State) (es : List Event) (vs : List (BitVec 32)) (b : Bool),
    f { s with events := es, answers := vs, hashAnswers := b } = f s

theorem statusFlag_err : StatusFlag State.err 0 where
  lt := by decide
  commands := fun hc ht h => ((hc.status ht).1 h).1
  write := by
    intro s a b h hc
    rcases busWriteByte_flags s a b with ⟨ha, e⟩ | ⟨e, -⟩ <;> rw [e] at hc
    · exact ⟨ha, by simpa [h] using hc⟩
    · exact absurd (h.symm.trans hc) (by decide)
  agents := fun _ _ _ _ => rfl

theorem statusFlag_rskip : StatusFlag State.rskip 1 where
  lt := by decide
  commands := fun hc ht h => (hc.status ht).2 h
  write := by
    intro s a b h hc
    rcases busWriteByte_flags s a b with ⟨ha, e⟩ | ⟨-, e⟩ <;> rw [e] at hc
    · exact ⟨ha, by simpa [h] using hc⟩
    · exact absurd (h.symm.trans hc) (by decide)
  agents := fun _ _ _ _ => rfl

section
variable {f : State → Bool} {n : Nat} (F : StatusFlag f n)
include F

/-- Among consecutive byte writes that clear the flag, one goes to byte 0 of STATUS with bit n set. -/
theorem StatusFlag.busWriteBytes_clears {bs : List Byte} {s : State} {a : Nat} (h : f s = true)
    (hc : f (s.busWriteBytes a bs) = false) : ∃ k b, a + k = 4 ∧ bs[k]? = some b ∧ b.getLsbD n = true := by
  induction bs generalizing s a with
  | nil => exact absurd (h.symm.trans hc) (by decide)
  | cons b bs ih =>
    cases hb : f (s.busWriteByte a b) with
    | false =>
      obtain ⟨ha, hbit⟩ := F.write h hb
      exact ⟨0, b, ha, rfl, hbit⟩
    | true =>
      obtain ⟨k, c, hk, hkc, hbit⟩ := ih hb hc
      exact ⟨k + 1, c, by omega, by simpa using hkc, hbit⟩

/-- A host write that clears the flag is one at 0x0004 with bit n set: no other aligned one covers that byte. -/
theorem StatusFlag.busWrite_clears {s : State} {addr : BitVec 16} {w : Width} {v : BitVec 32}
    (halign : addr.toNat % w.bytes = 0) (h : f s = true)
    (hc : f (s.busWrite addr.toNat w.bytes v) = false) : addr = 0x0004#16 ∧ v.getLsbD n = true := by
  obtain ⟨k, b, hk, hkb, hbit⟩ := F.busWriteBytes_clears h hc
  have hn := F.lt
  simp only [bytesLE, List.getElem?_map, Option.map_eq_some_iff, List.getElem?_eq_some_iff, List.length_range,
    List.getElem_range] at hkb
  obtain ⟨_, ⟨hkw, rfl⟩, rfl⟩ := hkb
  have hk0 : k = 0 := by cases w <;> simp only [Width.bytes] at halign hkw <;> omega
  subst hk0
  exact ⟨BitVec.eq_of_toNat_eq hk, by simpa [byteOf, hn] using hbit⟩

theorem StatusFlag.performAccess_clears {s t : State} {a : Access} (ht : performAccess a s = .next t) (h : f s = true)
    (hc : f t = false) : ∃ w v, a = .write 0x0004#16 w v ∧ v.getLsbD n = true := by
  have pushAnswer : ∀ (u : State) (v : BitVec 32), f (u.pushAnswer v) = f u := fun u v => F.agents u u.events _ u.hashAnswers
  have kept : f t ≠ true := by simp [hc]
  rcases performAccess_cases a s with ⟨c, hb, e⟩ | ⟨hb, ⟨addr, w, v, -, -, e⟩ | ⟨addr, w, g, -, -, e⟩ | ⟨w, v, -, e⟩ |
    ⟨addr, w, v, rfl, -, e⟩⟩ <;> rw [e] at ht
  · have raised := F.commands (errorOrEffect_raiseError s fun hn => busCheck_ne_noError a (hn ▸ hb)) rfl h
    cases ht
    cases a <;> simp only [failedAccess, pushAnswer] at kept <;> exact absurd raised kept
  · cases ht
    exact absurd (pushAnswer s v ▸ h) kept
  · cases ht
  · exact absurd (F.commands (runCommand_errorOrEffect v s) ht h) kept
  · cases ht
    obtain ⟨halign, -⟩ := busCheck_write_eq_none.1 hb
    obtain ⟨rfl, hbit⟩ := F.busWrite_clears halign h hc
    exact ⟨w, v, rfl, hbit⟩

/-- A step that clears the flag performs a reset, or a write at 0x0004 with bit n set. -/
theorem StatusFlag.step_clears {s t : State} {e : Event} {rest : List Event} (he : s.events = e :: rest)
    (ht : step s = .next t) (h : f s = true) (hc : f t = false) :
    e = .reset ∨ ∃ w v, e = .access (.write 0x0004#16 w v) ∧ v.getLsbD n = true := by
  have step_eq : performEvent e { s with events := rest } = .next t := by
    rw [← ht, step, stepOnce, he]
  have h' : f { s with events := rest } = true := (F.agents s rest s.answers s.hashAnswers).trans h
  rcases performEvent_cases e { s with events := rest } with ⟨a, rfl, ha⟩ | ⟨rfl, -⟩ | ⟨b, -, hb⟩
  · obtain ⟨w, v, rfl, hbit⟩ := F.performAccess_clears (ha ▸ step_eq) h' hc
    exact .inr ⟨w, v, rfl, hbit⟩
  · exact .inl rfl
  · rw [hb] at step_eq
    cases step_eq
    exact absurd (h.symm.trans ((F.agents s rest s.answers b).symm.trans hc)) (by decide)

end

/-! ## The host's inputs -/

/-- A byte only the host writes is a byte of RAM outside DOUT and KS. -/
theorem ramByte_of_hostOnly {a : Nat} (h : HostOnly a) : ramByte a = true ∧ (a < doutBase ∨ ksBase + 32 ≤ a) := by
  unfold HostOnly at h
  simp only [regionOf_eq_some] at h
  exact ⟨ramByte_iff.2 (by omega), by simp only [doutBase, ksBase]; omega⟩

theorem Effect.sameBytes {s t : State} (e : Effect s t) : SameBytes HostOnly s t := by
  intro a ha
  obtain ⟨hram, hout⟩ := ramByte_of_hostOnly ha
  rw [busByte_ram hram, busByte_ram hram, State.readByte, State.readByte, e.bytes a hout]

/-! ## Reset, and a write of STATUS -/

theorem isDefined_reset {a : Nat} (h : regionOf a = some .reg ∨ ramByte a = true) : State.reset.isDefined a = false := by
  unfold State.isDefined
  split
  · simp [State.reset]
  · next hreg => simp [h.resolve_left hreg, State.reset]

end Sys2Proof.Machine

namespace Sys2Proof.Proofs
open Sys2Proof.Machine Sys2Proof.Claim

/-- Settles O55: RAM is empty, no error is recorded and ACC is zero. -/
theorem resetMeetsTheInvariant : Obligations.ResetMeetsTheInvariant := invariant_reset

/-- Settles O56: the oldest event is performed on a state that meets the invariant, since that does not read what is pending. -/
theorem everyStepKeepsTheInvariant : Obligations.EveryStepKeepsTheInvariant := by
  intro s t h ht
  rcases step_cases ht with ⟨-, rfl⟩ | ⟨e, rest, -, he⟩
  · exact h
  · exact invariant_performEvent (s := { s with events := rest }) h he

/-- Settles O41: an error recorded keeps the first code, and an effect leaves ERR and ERRCODE alone and RSKIP set. -/
theorem statusIsStickyUnderCommands : Obligations.StatusIsStickyUnderCommands :=
  fun i s _ ht => (exec_errorOrEffect i s).status ht

/-- Settles O42: ERR is the flag of bit 0 and RSKIP that of bit 1. -/
theorem onlyHostClearsErr : Obligations.OnlyHostClearsErr :=
  fun _ _ _ _ he ht => ⟨statusFlag_err.step_clears he ht, statusFlag_rskip.step_clears he ht⟩

/-- Settles O43: an error recorded changes STATUS alone, and an effect writes RAM in DOUT and KS only. -/
theorem commandsLeaveHostInputs : Obligations.CommandsLeaveHostInputs := by
  intro i s t ht
  rcases exec_errorOrEffect i s t ht with ⟨c, -, rfl⟩ | e
  · exact ⟨rfl, fun a ha => by rw [busByte_ram (ramByte_of_hostOnly ha).1, busByte_ram (ramByte_of_hostOnly ha).1]; rfl⟩
  · refine ⟨?_, e.sameBytes⟩
    rw [e.frame]

/-- Settles O54: no register byte is marked and RAM is empty. -/
theorem resetValues : Obligations.ResetValues :=
  ⟨fun j => by simp [State.reset], rfl, rfl, rfl, rfl, rfl, rfl, rfl, rfl, rfl, rfl, rfl, rfl, rfl, rfl, fun _ => isDefined_reset⟩

/-- Settles O52: bytes 1 to 3 of STATUS take no write. -/
theorem statusWriteOneToClear : Obligations.StatusWriteOneToClear := by
  intro s v
  rw [write_control s (k := 1) (by decide) (by decide) (by decide) v]
  have h0 : (byteOf v 0).getLsbD 0 = v.getLsbD 0 := by simp [byteOf]
  have h1 : (byteOf v 0).getLsbD 1 = v.getLsbD 1 := by simp [byteOf]
  simp only [State.writeControl, State.clearStatus, Nat.reduceMul, Nat.reduceAdd, Nat.reduceDiv, Nat.reduceMod, h0, h1]
  cases v.getLsbD 0 <;> cases v.getLsbD 1 <;> simp

end Sys2Proof.Proofs
end

section
/-! PROOFS. What the host reads at a control register, a register byte and a byte of ACC. -/

namespace Sys2Proof.Machine

/-- A one-byte read of a mapped address answers its byte, zero-extended. -/
theorem read_byte {s : State} {a : Nat} {r : RegionRow} {b : Byte} (hr : r ∈ addressMap) (hh : r.holds a = true)
    (ha : a < 0x10000) (hb : s.busByte a = .ok b) :
    performAccess (.read (BitVec.ofNat 16 a) .w8) s = .next (s.pushAnswer (0#24 ++ b)) := by
  have hn : (BitVec.ofNat 16 a).toNat = a := by rw [BitVec.toNat_ofNat, Nat.mod_eq_of_lt ha]
  have hc : busCheck (.read (BitVec.ofNat 16 a) .w8) = none := by
    rw [busCheck_read_eq_none, hn]
    refine ⟨Nat.mod_one a, mapped_iff.2 ⟨r, hr, fun k hk => ?_⟩⟩
    obtain rfl : k = 0 := Nat.lt_one_iff.1 hk
    exact hh
  have hread : s.busRead a 1 = .ok (0#24 ++ b) := by
    simp only [State.busRead, State.busBytes, hb, ok_bind, pure_eq_ok, fromLE]
    rw [Nat.mul_zero, Nat.add_zero, BitVec.ofNat_toNat]
    exact congrArg Except.ok (BitVec.setWidth_eq_append (by decide))
  simp only [performAccess, hc, passedAccess, hn, Width.bytes, hread]

/-- A byte of ACC reads as it stands. -/
theorem busByte_acc (s : State) (j : Fin 128) : s.busByte (0x300 + j.val) = .ok s.acc[j] := by
  have hr : regionOf (0x300 + j.val) = some .acc := regionOf_eq_some.2 ⟨by omega, by omega⟩
  have hj : Fin.ofNat 128 (0x300 + j.val - accBase) = j := Fin.ext (by simp [accBase])
  simp only [State.busByte, hr, hj]

end Sys2Proof.Machine

namespace Sys2Proof.Proofs
open Sys2Proof.Machine Sys2Proof.Claim

/-- Settles O50: each control word as the map of R51 has it, and a byte read of R and of ACC. -/
theorem controlRegistersReadAsMapped : Obligations.ControlRegistersReadAsMapped := by
  intro s
  have word : ∀ (k : Nat) (v : BitVec 32), k < 16 → s.controlWord k = v →
      performAccess (.read (BitVec.ofNat 16 (4 * k)) .w32) s = .next (s.pushAnswer v) :=
    fun k v hk hv => hv ▸ read_control s hk
  refine ⟨word 0 _ (by decide) rfl, word 1 _ (by decide) rfl, word 2 _ (by decide) (BitVec.setWidth_eq_append (by decide)),
    word 3 _ (by decide) rfl, word 4 _ (by decide) (BitVec.setWidth_eq_append (by decide)),
    word 5 _ (by decide) (BitVec.setWidth_eq_append (by decide)), word 6 _ (by decide) (BitVec.setWidth_eq_append (by decide)),
    word 7 _ (by decide) (BitVec.setWidth_eq_append (by decide)), word 8 _ (by decide) rfl, word 9 _ (by decide) rfl,
    word 10 _ (by decide) rfl, word 11 _ (by decide) rfl, word 12 _ (by decide) rfl, word 13 _ (by decide) rfl,
    word 14 _ (by decide) (BitVec.setWidth_eq_append (by decide)), word 15 _ (by decide) rfl, ?_, ?_⟩
  · intro i j
    exact read_byte (r := ⟨.reg, regBase, 448⟩) (by simp [addressMap])
      (by simp only [RegionRow.holds, Bool.and_eq_true, decide_eq_true_eq, regBase]; omega) (by omega) (busByte_reg s i j)
  · intro j
    exact read_byte (r := ⟨.acc, accBase, 128⟩) (by simp [addressMap])
      (by simp only [RegionRow.holds, Bool.and_eq_true, decide_eq_true_eq, accBase]; omega) (by omega) (busByte_acc s j)

end Sys2Proof.Proofs
end

section
/-! PROOFS. The field product and the numbers of a round in the statements' words: the loop of R140 as a sum, the low bytes
of a little-endian number, the place and the S-box indices of a selector step (R181..R183). -/

namespace Sys2Proof.Machine
open Sys2Proof.Claim

/-! ## GF(2^8) -/

theorem gfDouble_eq_timesX (a : Byte) : gfDouble a = timesX a := by
  revert a
  decide

/-- n iterations of the loop of R140 add a * x^k for every set bit k of b below n. -/
theorem gfMulLoop_eq_foldl (n : Nat) (p a b : Byte) :
    gfMulLoop n p a b = (List.range n).foldl (fun p k => if b.getLsbD k then p ^^^ timesXPow k a else p) p := by
  induction n generalizing p a b with
  | zero => rfl
  | succ n ih =>
    rw [gfMulLoop, ih, List.range_succ_eq_map, List.foldl_cons, List.foldl_map]
    simp only [shr8, BitVec.getLsbD_ushiftRight, gfDouble_eq_timesX, timesXPow, Nat.add_comm 1]

theorem gfMul_eq_fieldProduct (a b : Byte) : gfMul a b = fieldProduct a b := gfMulLoop_eq_foldl 8 0#8 a b

/-! ## Little-endian numbers -/

theorem fromLE_append (l m : List Byte) : fromLE (l ++ m) = fromLE l + 256 ^ l.length * fromLE m := by
  induction l with
  | nil => simp [fromLE]
  | cons b l ih => simp only [List.cons_append, fromLE, ih, List.length_cons, pow_succ]; ring

/-- The low bits of a little-endian number are those of its first bytes. -/
theorem ofNat_fromLE_take (l : List Byte) (n : Nat) :
    BitVec.ofNat (8 * n) (fromLE (l.take n)) = BitVec.ofNat (8 * n) (fromLE l) := by
  apply BitVec.eq_of_toNat_eq
  rw [BitVec.toNat_ofNat, BitVec.toNat_ofNat]
  rcases Nat.le_total l.length n with h | h
  · rw [List.take_of_length_le h]
  · conv_rhs => rw [← List.take_append_drop n l, fromLE_append, List.length_take_of_le h]
    rw [pow_mul, show 2 ^ 8 = 256 from rfl, Nat.add_mul_mod_self_left]

/-- The first n bytes of a register as a number. -/
theorem fromLE_take_eq_littleEndian (v : Reg512) {n : Nat} (h : n ≤ 64) : fromLE (v.toList.take n) = littleEndian v n := by
  induction n with
  | zero => rfl
  | succ n ih =>
    have hn : n < v.toList.length := by simp; omega
    have hb : v.toList[n] = v[Fin.ofNat 64 n] := by simp [Nat.mod_eq_of_lt (show n < 64 by omega)]
    rw [List.take_succ_eq_append_getElem hn, fromLE_append, ih (by omega), List.length_take_of_le (by omega), hb]
    simp only [littleEndian, Finset.sum_range_succ, fromLE, pow_mul]
    ring

/-- Two bytes in bus order are the half word they came from. -/
theorem byteOf_append (v : BitVec 16) : byteOf v 1 ++ byteOf v 0 = v := by
  have join := BitVec.extractLsb'_append_extractLsb'_eq_extractLsb' (x := v) (start₁ := 0) (len₁ := 8) (len₂ := 8) rfl
  exact join.trans BitVec.extractLsb'_eq_self

/-! ## The place and the S-box indices -/

/-- The place in the model's words and in the statement's: the low half of the round key alone matters. -/
theorem placeOf_eq_place (r0 : Reg512) (sel : BitVec 16) (rkq : BitVec 64) :
    placeOf (bytesToU64 r0) sel rkq = place r0 (rkq.setWidth 32) sel := by
  have low : ∀ x : BitVec 64, (x &&& 0xFFFFFFFF#64).toNat = (x.setWidth 32).toNat := fun x => by
    rw [BitVec.toNat_and, BitVec.toNat_setWidth]
    exact Nat.and_two_pow_sub_one_eq_mod x.toNat 32
  have hr : (bytesToU64 r0).setWidth 32 = BitVec.ofNat 32 (littleEndian r0 4) := by
    have h4 := ofNat_fromLE_take (r0.toList.take 8) 4
    rw [List.take_take] at h4
    rw [bytesToU64, BitVec.setWidth_ofNat_of_le (by decide), ← fromLE_take_eq_littleEndian r0 (by decide)]
    exact h4.symm
  apply Fin.ext
  simp only [placeOf, place, low, Fin.val_ofNat, BitVec.setWidth_xor, hr,
    BitVec.setWidth_setWidth_of_le sel (show 32 ≤ 64 by decide)]

/-- The S-box index of step 4. -/
theorem sboxIndex_eq (sel : BitVec 16) (b : Byte) (kc : Option Byte) :
    sboxIndex sel b kc = fieldProduct (BitVec.ofNat 8 (2 * sel.toNat)) b ^^^ kc.getD 0#8 := by
  have htemp : byteOf ((sel.setWidth 32 * 2#32) &&& 0xFFFF#32) 0 = BitVec.ofNat 8 (2 * sel.toNat) := by
    apply BitVec.eq_of_toNat_eq
    have := sel.isLt
    have hand := Nat.and_two_pow_sub_one_eq_mod (sel.toNat * 2) 16
    simp only [byteOf, BitVec.extractLsb'_toNat, BitVec.toNat_and, BitVec.toNat_mul, BitVec.toNat_setWidth, BitVec.toNat_ofNat,
      Nat.mul_zero, Nat.shiftRight_zero, Nat.reducePow, Nat.reduceMod, Nat.reduceSub] at hand ⊢
    rw [Nat.mod_eq_of_lt (show sel.toNat % 4294967296 * 2 < 4294967296 by omega),
      Nat.mod_eq_of_lt (show sel.toNat < 4294967296 by omega), hand]
    omega
  cases kc <;> simp [sboxIndex, htemp, gfMul_eq_fieldProduct]

/-- Steps 5 and 6 leave byte 63 scaled: the XOR of step 6 is at byte 0. -/
theorem scaleAndInject_last (v : Reg512) (sel : BitVec 16) (result : Byte) :
    (scaleAndInject v sel result)[63] = fieldProduct v[63] result := by
  rw [← gfMul_eq_fieldProduct]
  unfold scaleAndInject
  simp only
  split <;> simp [inject, xor512, oneByte, gfMulRegister]

end Sys2Proof.Machine
end

section
/-! PROOFS. The undefined bytes of RAM that stop a command (R58, R312): what a command that completes has read, that nothing but a
hash request hangs, and the first selector step of a round read by read. -/

namespace Sys2Proof.Machine
open Sys2Proof.Claim

/-! ## A command whose checks pass is its body -/

theorem exec_round_of_checks {s : State} {rnd : BitVec 5} (hr : rnd.toNat < 24) (h : TableChecksPass s) :
    exec (.round rnd) s = answer (roundOrSkip s rnd.toNat) := by
  simp only [exec, execRound, withRound_of_lt hr, withTables_of_none (tableCheck_eq_none.2 h)]

theorem exec_mix24_of_checks {s : State} (h : TableChecksPass s) : exec .mix24 s = answer (mixBody s) :=
  withTables_of_none (tableCheck_eq_none.2 h) _

theorem exec_block_of_checks {s : State} (h : TableChecksPass s) : exec .block s = answer (blockBody s) :=
  withTables_of_none (tableCheck_eq_none.2 h) _

theorem roundValid_of_validRound {s : State} {r : Nat} (h : ValidRound s r) : s.roundValid r = true := by
  simpa [State.roundValid, ValidRound] using h

/-! ## Nothing but a hash request hangs -/

/-- The reads do not end in a silent hash engine: where they stop, they stop on an undefined byte. -/
def NoHang {α : Type} (x : Except Fault α) : Prop := x ≠ .error .hashHang

theorem noHang_ok {α : Type} (a : α) : NoHang (.ok a) := fun h => by cases h

theorem NoHang.bind {α β : Type} {x : Except Fault α} {k : α → Except Fault β} (hx : NoHang x) (hk : ∀ a, NoHang (k a)) :
    NoHang (x >>= k) := by
  intro h
  rcases bind_eq_error.1 h with h | ⟨a, -, h⟩
  · exact hx h
  · exact hk a h

/-- Reads that neither hang nor answer stop on an undefined byte. -/
theorem NoHang.stops {α : Type} {x : Except Fault α} (hx : NoHang x) (h : ∀ a, x ≠ .ok a) : ∃ u, x = .error (.uninitRead u) := by
  cases x with
  | ok a => exact absurd rfl (h a)
  | error f =>
    cases f with
    | uninitRead u => exact ⟨u, rfl⟩
    | hashHang => exact absurd rfl hx

theorem noHang_readByte (s : State) (a : Nat) : NoHang (s.readByte a) := fun h => by cases (State.readByte_eq_error.1 h).2

theorem noHang_readBuffer (s : State) (a n : Nat) : NoHang (s.readBuffer a n) := fun h => by
  obtain ⟨u, hu, -⟩ := State.readBuffer_eq_error h
  cases hu

theorem noHang_readKc (s : State) (p : Nat) : NoHang (s.readKc p) := by
  unfold State.readKc
  split
  · exact (noHang_readByte s _).bind fun b => noHang_ok _
  · exact noHang_ok _

theorem noHang_selectorStep (s : State) (r p : Nat) (c : Cipher) : NoHang (selectorStep s r p c) :=
  ((noHang_readByte s _).bind fun _ => (noHang_readByte s _).bind fun _ => noHang_ok _).bind fun _ =>
    ((noHang_readBuffer s _ 8).bind fun _ => noHang_ok _).bind fun _ => (noHang_readKc s p).bind fun _ =>
      (noHang_readByte s _).bind fun _ => (noHang_readByte s _).bind fun _ => noHang_ok _

theorem noHang_selectorsFrom (s : State) (r p n : Nat) (c : Cipher) : NoHang (selectorsFrom s r p n c) := by
  induction n generalizing p c with
  | zero => exact noHang_ok c
  | succ n ih => exact (noHang_selectorStep s r p c).bind fun d => ih (p + 1) d

theorem noHang_roundOrSkip (s : State) (r : Nat) : NoHang (roundOrSkip s r) := by
  unfold roundOrSkip
  split
  · exact (noHang_selectorsFrom s r 0 _ _).bind fun c => noHang_ok _
  · exact noHang_ok _

theorem noHang_roundsFrom (r n : Nat) (s : State) : NoHang (roundsFrom r n s) := by
  induction n generalizing r s with
  | zero => exact noHang_ok s
  | succ n ih => exact (noHang_roundOrSkip s r).bind fun t => ih (r + 1) t

theorem noHang_loadkmBody (s : State) : NoHang (loadkmBody s) := (noHang_readBuffer s _ _).bind fun _ => noHang_ok _

theorem noHang_xorksBody (s : State) : NoHang (xorksBody s) :=
  (noHang_readBuffer s _ _).bind fun _ => (noHang_readBuffer s _ _).bind fun _ => noHang_ok _

theorem noHang_feedbackBody (s : State) : NoHang (feedbackBody s) := (noHang_readBuffer s _ _).bind fun _ => noHang_ok _

/-! ## What a command that completes has read -/

/-- A buffer that was read has no undefined byte. -/
theorem ne_none_of_readBuffer {s : State} {a n k : Nat} {v : Vector Byte n} (h : s.readBuffer a n = .ok v) (hk : k < n) :
    Memory.get? s.mem (a + k) ≠ none := by
  rw [State.readBuffer_eq_ok.1 h ⟨k, hk⟩]
  exact Option.some_ne_none _

theorem ne_none_of_readByte {s : State} {a : Nat} {b : Byte} (h : s.readByte a = .ok b) : Memory.get? s.mem a ≠ none := by
  rw [State.readByte_eq_ok.1 h]
  exact Option.some_ne_none _

/-- What step p of round r reads besides the S-box is defined: its entry of SEL, its key constant if it has one, and bytes 0..7 of
the round key (R180, R181). -/
structure StepInputsDefined (s : State) (r p : Nat) : Prop where
  /-- The low byte of SEL[p]. -/
  low : Memory.get? s.mem (selAddr p) ≠ none
  /-- The high byte of SEL[p]. -/
  high : Memory.get? s.mem (selAddr p + 1) ≠ none
  /-- KC[p] below KC_COUNT. -/
  kc : p < s.kcCount.toNat → Memory.get? s.mem (kcAddr p) ≠ none
  /-- The round key. -/
  key : ∀ j, j < 8 → Memory.get? s.mem (rkAddr r 0 + j) ≠ none

theorem selectorStep_reads {s : State} {r p : Nat} {c d : Cipher} (h : selectorStep s r p c = .ok d) :
    StepInputsDefined s r p := by
  simp only [selectorStep, State.readSel, State.readRoundKey, bind_eq_ok] at h
  obtain ⟨sel, ⟨lo, hlo, hi, hhi, -⟩, rkq, ⟨key, hkey, -⟩, kc, hkc, -⟩ := h
  refine ⟨ne_none_of_readByte hlo, ne_none_of_readByte hhi, fun hp => ?_, fun j hj => ne_none_of_readBuffer hkey hj⟩
  simp only [State.readKc, if_pos hp, bind_eq_ok] at hkc
  obtain ⟨b, hb, -⟩ := hkc
  exact ne_none_of_readByte hb

theorem selectorsFrom_reads {s : State} {r n : Nat} {p : Nat} {c d : Cipher} (h : selectorsFrom s r p n c = .ok d) {q : Nat}
    (hp : p ≤ q) (hq : q < p + n) : StepInputsDefined s r q := by
  induction n generalizing p c with
  | zero => omega
  | succ n ih =>
    obtain ⟨e, he, hn⟩ := bind_eq_ok.1 h
    rcases Nat.eq_or_lt_of_le hp with rfl | hlt
    · exact selectorStep_reads he
    · exact ih hn hlt (by omega)

theorem roundOrSkip_reads {s t : State} {r : Nat} (h : roundOrSkip s r = .ok t) (hv : s.roundValid r = true) {q : Nat}
    (hq : q < s.selCount.toNat) : StepInputsDefined s r q := by
  rw [roundOrSkip, if_pos hv] at h
  obtain ⟨c, hc, -⟩ := roundBody_eq_ok.1 h
  exact selectorsFrom_reads hc q.zero_le (by omega)

theorem roundsFrom_reads {s t : State} {p n : Nat} (h : roundsFrom p n s = .ok t) {r : Nat} (hp : p ≤ r) (hr : r < p + n)
    (hv : s.roundValid r = true) {q : Nat} (hq : q < s.selCount.toNat) : StepInputsDefined s r q := by
  induction n generalizing p s with
  | zero => omega
  | succ n ih =>
    obtain ⟨u, hu, hn⟩ := bind_eq_ok.1 h
    rcases Nat.eq_or_lt_of_le hp with rfl | hlt
    · exact roundOrSkip_reads hu hv hq
    · rw [(roundOrSkip_frame hu).1] at hn
      obtain ⟨low, high, kc, key⟩ := ih hn hlt (by omega) hv hq
      exact ⟨low, high, kc, key⟩

/-- A byte of SEL, of KC or of the round key that a valid round reads is undefined: some step lacks its inputs. -/
theorem exists_step_undefined {s : State} {r k : Nat}
    (h : (k < 2 * s.selCount.toNat ∧ Memory.get? s.mem (0x4000 + k) = none)
      ∨ (k < s.selCount.toNat ∧ k < s.kcCount.toNat ∧ Memory.get? s.mem (0x8000 + k) = none)
      ∨ (k < 8 ∧ 0 < s.selCount.toNat ∧ Memory.get? s.mem (0x0800 + 64 * r + k) = none)) :
    ∃ q, q < s.selCount.toNat ∧ ¬ StepInputsDefined s r q := by
  rcases h with ⟨hk, hn⟩ | ⟨hk, hkc, hn⟩ | ⟨hk, hpos, hn⟩
  · refine ⟨k / 2, by omega, fun d => ?_⟩
    rcases Nat.mod_two_eq_zero_or_one k with h2 | h2
    · exact d.low (by rw [selAddr, show selBase + 2 * (k / 2) = 0x4000 + k by simp only [selBase]; omega]; exact hn)
    · exact d.high (by rw [selAddr, show selBase + 2 * (k / 2) + 1 = 0x4000 + k by simp only [selBase]; omega]; exact hn)
  · exact ⟨k, hk, fun d => d.kc hkc hn⟩
  · exact ⟨0, hpos, fun d => d.key k hk hn⟩

/-! ## The first selector step -/

theorem readByte_of_busByte {s : State} {a : Nat} {b : Byte} (ha : ramByte a = true) (h : s.busByte a = .ok b) :
    s.readByte a = .ok b := busByte_ram ha ▸ h

section
variable {f : FirstSelector} {s : State} {r : Nat} (hf : f.In s r) (hr : r < 24)
include hf

theorem readSel_of_first : s.readSel 0 = .ok f.sel := by
  obtain ⟨-, h0, h1, -, -, -, -⟩ := hf
  have hm := maxSel_pos
  have lo : s.readByte (selAddr 0) = .ok (byteOf f.sel 0) :=
    readByte_of_busByte (ramByte_iff.2 (by simp only [selAddr, selBase]; omega)) h0
  have hi : s.readByte (selAddr 0 + 1) = .ok (byteOf f.sel 1) :=
    readByte_of_busByte (ramByte_iff.2 (by simp only [selAddr, selBase]; omega)) h1
  simp only [State.readSel, lo, hi, ok_bind, pure_eq_ok, byteOf_append]

theorem readKc_of_first : s.readKc 0 = .ok f.kc := by
  obtain ⟨-, -, -, -, -, hsome, hnone⟩ := hf
  have hm := maxSel_pos
  cases hk : f.kc with
  | none => simp only [State.readKc, hnone hk, Nat.lt_irrefl, if_false, pure_eq_ok]
  | some k =>
    obtain ⟨hpos, hb⟩ := hsome k hk
    have kc : s.readByte (kcAddr 0) = .ok k := readByte_of_busByte (ramByte_iff.2 (by simp only [kcAddr, kcBase]; omega)) hb
    simp only [State.readKc, if_pos hpos, kc, ok_bind, pure_eq_ok]

/-- Where the first selector step stops, so does its valid round. -/
theorem roundOrSkip_of_first_stops {e : Fault} (hv : s.roundValid r = true)
    (h : selectorStep s r 0 ⟨s.regs, s.accsum⟩ = .error e) : roundOrSkip s r = .error e := by
  obtain ⟨n, hn⟩ := Nat.exists_eq_succ_of_ne_zero hf.1.ne'
  simp only [roundOrSkip, if_pos hv, roundBody, hn, selectorsFrom, h, error_bind]

include hr

theorem readRoundKey_of_first : ∃ q, s.readRoundKey r = .ok q ∧ q.setWidth 32 = f.roundKey := by
  obtain ⟨-, -, -, hlow, hhigh, -, -⟩ := hf
  have hram : ∀ j, j < 8 → ramByte (0x0800 + 64 * r + j) = true := fun j hj => ramByte_iff.2 (by omega)
  have defined : ∀ j : Fin 8, ∃ b, Memory.get? s.mem (rkAddr r 0 + j.val) = some b := fun j => by
    rcases Nat.lt_or_ge j.val 4 with h | h
    · exact ⟨_, State.readByte_eq_ok.1 (readByte_of_busByte (hram j.val j.isLt) (hlow j.val h))⟩
    · obtain ⟨b, hb⟩ := hhigh j.val h j.isLt
      exact ⟨b, State.readByte_eq_ok.1 (readByte_of_busByte (hram j.val j.isLt) hb)⟩
  choose g hg using defined
  have hkey : ∀ j : Fin 8, j.val < 4 → g j = byteOf f.roundKey j.val := fun j hj =>
    Option.some.inj <| (hg j).symm.trans <| State.readByte_eq_ok.1 <|
      readByte_of_busByte (hram j.val j.isLt) (hlow j.val hj)
  have hread : s.readBuffer (rkAddr r 0) 8 = .ok (Vector.ofFn g) := State.readBuffer_eq_ok.2 fun j => by simp [hg j]
  refine ⟨BitVec.ofNat 64 (fromLE (Vector.ofFn g).toList), by simp only [State.readRoundKey, hread, ok_bind, pure_eq_ok], ?_⟩
  have first : (Vector.ofFn g).toList.take 4 = [byteOf f.roundKey 0, byteOf f.roundKey 1,
      byteOf f.roundKey 2, byteOf f.roundKey 3] := by
    show [g 0, g 1, g 2, g 3] = _
    rw [hkey 0 (by decide), hkey 1 (by decide), hkey 2 (by decide), hkey 3 (by decide)]
    rfl
  rw [BitVec.setWidth_ofNat_of_le (by decide), ← fromLE_byteOf f.roundKey, ← first]
  exact (ofNat_fromLE_take _ 4).symm

/-- The first selector step reads the S-box at the two indices of R182 and R183, and stops nowhere else. -/
theorem selectorStep_of_first : ∃ next : Byte → Byte → Cipher,
    selectorStep s r 0 ⟨s.regs, s.accsum⟩ = (do
      let result ← s.readSbox r (f.index s)
      let low ← s.readSbox r (f.low s result)
      return next result low) := by
  obtain ⟨rkq, hrk, hlow⟩ := readRoundKey_of_first hf hr
  simp only [selectorStep, readSel_of_first hf, hrk, readKc_of_first hf, ok_bind, placeOf_eq_place, hlow, sboxIndex_eq,
    scaleAndInject_last]
  exact ⟨_, rfl⟩

end

end Sys2Proof.Machine

namespace Sys2Proof.Proofs
open Sys2Proof.Machine Sys2Proof.Claim

/-- Settles O40: a body that has no next state stops on an undefined byte, and each that completes has read every byte named; the
S-box entries are those of the first selector step. -/
theorem undefinedBuffersStopCommands : Obligations.UndefinedBuffersStopCommands := by
  intro s
  have fault : ∀ {x : Except Fault State}, NoHang x → (∀ t, x ≠ .ok t) → ∃ a, answer x = .fault (.uninitRead a) :=
    fun hx h => (hx.stops h).imp fun a e => answer_eq_fault.2 e
  refine ⟨fun k hk hn => ?_, fun k hk hn => ?_, fun k hk hn => ?_, fun rnd k hr hc hv hn => ?_, fun rnd f hr hc hv hf => ?_⟩
  · have stops : ∀ t, loadkmBody s ≠ .ok t := fun t ht => by
      obtain ⟨km, hkm, -⟩ := loadkmBody_eq_ok.1 ht
      exact ne_none_of_readBuffer hkm hk hn
    refine ⟨fault (noHang_loadkmBody s) stops, fun hc => ?_⟩
    obtain ⟨u, hu⟩ := (noHang_loadkmBody s).stops stops
    exact ⟨u, by rw [exec_block_of_checks hc, blockBody, hu]; rfl⟩
  · refine fault (noHang_xorksBody s) fun t ht => ?_
    obtain ⟨din, ks, hdin, hks, -⟩ := xorksBody_eq_ok.1 ht
    exact hn.elim (ne_none_of_readBuffer hdin hk) (ne_none_of_readBuffer hks hk)
  · refine fault (noHang_feedbackBody s) fun t ht => ?_
    obtain ⟨ct, hct, -⟩ := feedbackBody_eq_ok.1 ht
    exact ne_none_of_readBuffer hct hk hn
  · obtain ⟨q, hq, undefined⟩ := exists_step_undefined hn
    have hv := roundValid_of_validRound hv
    rw [exec_round_of_checks hr hc, exec_mix24_of_checks hc]
    exact ⟨fault (noHang_roundOrSkip s _) fun t ht => undefined (roundOrSkip_reads ht hv hq),
      fault (noHang_roundsFrom 0 24 s) fun t ht => undefined (roundsFrom_reads ht (Nat.zero_le _) (by omega) hv hq)⟩
  · obtain ⟨next, step_eq⟩ := selectorStep_of_first hf hr
    have stops := fun e h => answer_eq_fault.2 (roundOrSkip_of_first_stops hf (e := e) (roundValid_of_validRound hv) h)
    have undefined : ∀ {k : Byte}, Memory.get? s.mem (0x1000 + 256 * rnd.toNat + k.toNat) = none →
        s.readSbox rnd.toNat k = .error (.uninitRead (0x1000 + 256 * rnd.toNat + k.toNat)) :=
      fun h => State.readByte_eq_error.2 ⟨h, rfl⟩
    rw [exec_round_of_checks hr hc]
    refine ⟨fun hn => stops _ ?_, fun b hb hn => stops _ ?_⟩
    · rw [step_eq, undefined hn, error_bind]
    · have hram : ramByte (0x1000 + 256 * rnd.toNat + (f.index s).toNat) = true := ramByte_iff.2 (by omega)
      have first : s.readSbox rnd.toNat (f.index s) = .ok b := readByte_of_busByte hram hb
      rw [step_eq, first, ok_bind, undefined hn, error_bind]

end Sys2Proof.Proofs
end

section
/-! PROOFS. The checks of a host access as conditions on its addresses: the gaps of the map, accesses that fail, and the step that
performs the oldest event. -/

namespace Sys2Proof.Machine

/-! ## The address map -/

/-- The unmapped addresses as ranges. -/
theorem regionOf_eq_none {a : Nat} : regionOf a = none ↔
    (0x00A0 ≤ a ∧ a < 0x0100) ∨ (0x02C0 ≤ a ∧ a < 0x0300) ∨ (0x0380 ≤ a ∧ a < 0x0400) ∨ (0x05C0 ≤ a ∧ a < 0x0800)
      ∨ (0x0E00 ≤ a ∧ a < 0x1000) ∨ (0x2800 ≤ a ∧ a < 0x4000)
      ∨ (0x4000 + 2 * Config.maxSel ≤ a ∧ a < 0x8000) ∨ 0x8000 + Config.maxSel ≤ a := by
  have hm := maxSel_le
  constructor
  · intro h
    rw [regionOf_eq] at h
    grind
  · intro h
    refine Option.eq_none_iff_forall_ne_some.2 fun r hr => ?_
    have range := regionOf_eq_some.1 hr
    cases r <;> simp only at range <;> omega

/-- An access with an unmapped byte is not mapped. -/
theorem mapped_eq_false {a n k : Nat} (hk : k < n) (h : regionOf (a + k) = none) : mapped a n = false := by
  refine Bool.eq_false_iff.2 fun hm => ?_
  obtain ⟨r, hr, holds⟩ := mapped_iff.1 hm
  rw [regionOf_of_holds hr (holds k hk)] at h
  cases h

/-- An access between two ends of one row of the map is mapped. -/
theorem mapped_of_row {r : RegionRow} (hr : r ∈ addressMap) {a n : Nat} (lo : r.base ≤ a) (hi : a + n ≤ r.base + r.size) :
    mapped a n = true :=
  mapped_iff.2 ⟨r, hr, fun k hk => by simp only [RegionRow.holds, Bool.and_eq_true, decide_eq_true_eq]; omega⟩

theorem Width.bytes_pos (w : Width) : 0 < w.bytes := by cases w <;> decide

/-- An aligned access that begins below a multiple of 4 ends there or below. -/
theorem Width.aligned_end_le {w : Width} {a k : Nat} (h : a % w.bytes = 0) (hk : a < 4 * k) : a + w.bytes ≤ 4 * k := by
  cases w <;> simp only [Width.bytes] at h ⊢ <;> omega

/-! ## The check that an access fails -/

theorem performAccess_of_check {a : Access} {c : ErrorCode} (h : busCheck a = some c) (s : State) :
    performAccess a s = .next (failedAccess a c s) := by
  simp only [performAccess, h]

theorem busCheck_write_busWidth {addr : BitVec 16} {w : Width} (v : BitVec 32) (halign : addr.toNat % w.bytes = 0)
    (hcmd : addr.toNat < 4) (hw : w ≠ .w32) : busCheck (.write addr w v) = some .busWidth := by
  have hend : addr.toNat + w.bytes ≤ 4 * 1 := Width.aligned_end_le halign hcmd
  have hmap : mapped addr.toNat w.bytes = true :=
    mapped_of_row (r := ⟨.control, 0, 64⟩) (by simp [addressMap]) (Nat.zero_le _) (by simp only; omega)
  have htouch : touchesCmd addr.toNat w.bytes = true :=
    List.any_eq_true.2 ⟨0, List.mem_range.2 w.bytes_pos, by simpa using hcmd⟩
  have hnarrow : w.bytes < 4 := by cases w <;> simp_all [Width.bytes]
  simp [busCheck, halign, hmap, htouch, hnarrow]

/-- An aligned, mapped write beyond CMD whose first byte is read-only. -/
theorem busCheck_write_busReadonly {addr : BitVec 16} {w : Width} (v : BitVec 32) (halign : addr.toNat % w.bytes = 0)
    (hmap : mapped addr.toNat w.bytes = true) (hcmd : 4 ≤ addr.toNat) (hro : readOnly addr.toNat = true) :
    busCheck (.write addr w v) = some .busReadonly := by
  have htouch : touchesCmd addr.toNat w.bytes = false :=
    List.any_eq_false.2 fun k _ => by simp only [decide_eq_true_eq]; omega
  have hrange : touchesReadOnly addr.toNat w.bytes = true :=
    List.any_eq_true.2 ⟨0, List.mem_range.2 w.bytes_pos, hro⟩
  simp [busCheck, halign, hmap, htouch, hrange]

/-- DOUT and KS, ACC, ID, and the words from ACCSUM to MAXSEL: what the host may not write (R80). -/
def ReadOnlyRange (a : Nat) : Prop :=
  (0x0060 ≤ a ∧ a < 0x00A0) ∨ (0x0300 ≤ a ∧ a < 0x0380) ∨ (0x000C ≤ a ∧ a < 0x0010) ∨ (0x0030 ≤ a ∧ a < 0x0040)

theorem readOnly_of_readOnlyRange {a : Nat} (h : ReadOnlyRange a) : readOnly a = true := by
  have control : a < 0x40 → readOnly a = readOnlyControl a := fun hc => by
    simp only [readOnly, (regionOf_eq_some (r := .control)).2 hc]
  rcases h with ⟨lo, hi⟩ | hacc | ⟨lo, hi⟩ | ⟨lo, hi⟩
  · rcases Nat.lt_or_ge a 0x80 with h80 | h80
    · simp only [readOnly, (regionOf_eq_some (r := .dout)).2 ⟨lo, h80⟩]
    · simp only [readOnly, (regionOf_eq_some (r := .ks)).2 ⟨h80, hi⟩]
  · simp only [readOnly, (regionOf_eq_some (r := .acc)).2 hacc]
  · simp [control (by omega), readOnlyControl, show a / 4 = 3 by omega]
  · have word : a / 4 = 12 ∨ a / 4 = 13 ∨ a / 4 = 14 ∨ a / 4 = 15 := by omega
    simp [control hi, readOnlyControl, word, or_assoc]

/-- An aligned access that begins in a read-only range lies in one row of the map. -/
theorem mapped_of_readOnlyRange {a : Nat} {w : Width} (halign : a % w.bytes = 0) (h : ReadOnlyRange a) :
    mapped a w.bytes = true := by
  have row : ∀ (r : RegionRow) (k : Nat), r ∈ addressMap → 4 * k = r.base + r.size → r.base ≤ a → a < 4 * k →
      mapped a w.bytes = true :=
    fun r k hr hk lo hi => mapped_of_row hr lo (hk ▸ Width.aligned_end_le halign hi)
  have control : a < 0x40 → mapped a w.bytes = true := row ⟨.control, 0, 64⟩ 16 (by simp [addressMap]) rfl (Nat.zero_le _)
  rcases h with ⟨lo, hi⟩ | ⟨lo, hi⟩ | ⟨lo, hi⟩ | ⟨lo, hi⟩
  · rcases Nat.lt_or_ge a 0x80 with h80 | h80
    · exact row ⟨.dout, doutBase, 32⟩ 32 (by simp [addressMap]) rfl lo h80
    · exact row ⟨.ks, ksBase, 32⟩ 40 (by simp [addressMap]) rfl h80 hi
  · exact row ⟨.acc, accBase, 128⟩ 224 (by simp [addressMap]) rfl lo hi
  · exact control (by omega)
  · exact control hi

end Sys2Proof.Machine

namespace Sys2Proof.Proofs
open Sys2Proof.Machine Sys2Proof.Claim

/-- Settles O7: the step takes the oldest event off and performs it. -/
theorem stepPerformsTheOldestEvent : Obligations.StepPerformsTheOldestEvent :=
  fun _ _ => ⟨fun _ => rfl, fun _ => rfl, rfl⟩

/-- Settles O45: the gaps are where the chain of ranges falls through. -/
theorem unmappedAddressesAreTheGaps : Obligations.UnmappedAddressesAreTheGaps := fun _ _ => regionOf_eq_none

/-- Settles O46: alignment is the first check and mapping the second, of reads and writes alike. -/
theorem badAddressesAreReported : Obligations.BadAddressesAreReported := by
  intro s addr w v
  refine ⟨fun halign => ?_, fun halign ⟨k, hk, hgap⟩ => ?_⟩
  · exact ⟨performAccess_of_check (by simp [busCheck, halign]) s, performAccess_of_check (by simp [busCheck, halign]) s⟩
  · have hmap := mapped_eq_false hk hgap
    exact ⟨performAccess_of_check (by simp [busCheck, halign, hmap]) s,
      performAccess_of_check (by simp [busCheck, halign, hmap]) s⟩

/-- Settles O47: a narrow write of CMD fails the third check, and a write that begins in a read-only range passes it and fails the
fourth. -/
theorem forbiddenWritesStoreNothing : Obligations.ForbiddenWritesStoreNothing := by
  intro s addr w v halign
  refine ⟨fun hcmd hw => performAccess_of_check (busCheck_write_busWidth v halign hcmd hw) s, fun hrange => ?_⟩
  exact performAccess_of_check (busCheck_write_busReadonly v halign (mapped_of_readOnlyRange halign hrange) (by omega)
    (readOnly_of_readOnlyRange hrange)) s

end Sys2Proof.Proofs
end

section
/-! PROOFS. Reads of the window: the bytes in bus order as a number, a read whose bytes are defined and one that meets an undefined
byte of RAM. -/

namespace Sys2Proof.Machine

/-! ## Little-endian numbers -/

theorem fromLE_map_range (n : Nat) (f : Nat → Byte) :
    fromLE ((List.range n).map f) = ∑ k ∈ Finset.range n, (f k).toNat * 2 ^ (8 * k) := by
  induction n with
  | zero => rfl
  | succ n ih =>
    rw [List.range_succ, List.map_append, fromLE_append, ih, Finset.sum_range_succ, List.length_map, List.length_range, pow_mul]
    simp only [List.map_cons, List.map_nil, fromLE]
    ring

theorem fromLE_lt (l : List Byte) : fromLE l < 256 ^ l.length := by
  induction l with
  | nil => exact Nat.one_pos
  | cons b l ih =>
    have hb := b.isLt
    simp only [fromLE, List.length_cons, pow_succ]
    omega

/-- The bytes of an access fit the 32 bits of its value. -/
theorem fromLE_lt_of_width {l : List Byte} {w : Width} (h : l.length = w.bytes) : fromLE l < 2 ^ 32 := by
  refine (fromLE_lt l).trans_le ?_
  rw [h]
  cases w <;> decide

/-! ## The bytes of a read -/

/-- A byte that does not read is an undefined byte of RAM. -/
theorem busByte_eq_error {s : State} {a : Nat} {f : Fault} :
    s.busByte a = .error f ↔ ramByte a = true ∧ Memory.get? s.mem a = none ∧ f = .uninitRead a := by
  by_cases hram : ramByte a = true
  · rw [busByte_ram hram, State.readByte_eq_error]
    exact (and_iff_right hram).symm
  · refine iff_of_false ?_ fun h => hram h.1
    intro h
    unfold State.busByte at h
    unfold ramByte at hram
    cases hr : regionOf a with
    | none => simp only [hr] at h; cases h
    | some r => cases r <;> simp only [hr, not_true_eq_false] at h hram <;> cases h

theorem busBytes_eq_ok {s : State} {a n : Nat} {f : Nat → Byte} (h : ∀ k, k < n → s.busByte (a + k) = .ok (f k)) :
    s.busBytes a n = .ok ((List.range n).map f) := by
  induction n generalizing a f with
  | zero => rfl
  | succ n ih =>
    have head : s.busByte a = .ok (f 0) := h 0 n.succ_pos
    have tail := ih (a := a + 1) (f := f ∘ Nat.succ) fun k hk => by
      rw [Nat.add_assoc, Nat.add_comm 1]
      exact h (k + 1) (Nat.succ_lt_succ hk)
    simp only [State.busBytes, head, tail, ok_bind, pure_eq_ok, List.range_succ_eq_map, List.map_cons, List.map_map]

/-- Where one of the bytes does not read, the bytes end in the fault of one of them. -/
theorem busBytes_eq_error {s : State} {a n k : Nat} {f : Fault} (hk : k < n) (h : s.busByte (a + k) = .error f) :
    ∃ j e, j < n ∧ s.busByte (a + j) = .error e ∧ s.busBytes a n = .error e := by
  induction n generalizing a k with
  | zero => omega
  | succ n ih =>
    cases head : s.busByte a with
    | error e => exact ⟨0, e, n.succ_pos, head, by rw [State.busBytes, head, error_bind]⟩
    | ok b =>
      obtain ⟨k, rfl⟩ : ∃ m, k = m + 1 := Nat.exists_eq_succ_of_ne_zero fun h0 => by
        rw [h0, Nat.add_zero, head] at h
        cases h
      obtain ⟨j, e, hj, he, tail⟩ := ih (a := a + 1) (Nat.lt_of_succ_lt_succ hk) (by rw [Nat.add_assoc, Nat.add_comm 1]; exact h)
      refine ⟨j + 1, e, Nat.succ_lt_succ hj, ?_, by rw [State.busBytes, head, ok_bind, tail, error_bind]⟩
      rwa [Nat.add_assoc, Nat.add_comm 1] at he

/-! ## Reads that pass their checks -/

theorem performAccess_read {addr : BitVec 16} {w : Width} (hc : busCheck (.read addr w) = none) {s : State} {f : Nat → Byte}
    (h : ∀ k, k < w.bytes → s.busByte (addr.toNat + k) = .ok (f k)) :
    performAccess (.read addr w) s = .next (s.pushAnswer (BitVec.ofNat 32 (fromLE ((List.range w.bytes).map f)))) := by
  simp only [performAccess, hc, passedAccess, State.busRead, busBytes_eq_ok h, ok_bind, pure_eq_ok]

theorem performAccess_read_fault {addr : BitVec 16} {w : Width} (hc : busCheck (.read addr w) = none) {s : State} {k : Nat}
    {f : Fault} (hk : k < w.bytes) (h : s.busByte (addr.toNat + k) = .error f) :
    ∃ j e, j < w.bytes ∧ s.busByte (addr.toNat + j) = .error e ∧ performAccess (.read addr w) s = .fault e := by
  obtain ⟨j, e, hj, he, hbytes⟩ := busBytes_eq_error hk h
  exact ⟨j, e, hj, he, by simp only [performAccess, hc, passedAccess, State.busRead, hbytes, error_bind]⟩

/-- No byte of the window depends on what the host has been told (log 9). -/
@[simp] theorem busByte_pushAnswer (s : State) (v : BitVec 32) (a : Nat) : (s.pushAnswer v).busByte a = s.busByte a := rfl

end Sys2Proof.Machine

namespace Sys2Proof.Proofs
open Sys2Proof.Machine Sys2Proof.Claim

/-- Settles O49: the bytes of a passed read, if all are defined, are its answer, and those of the state with the answer told are the
same; an undefined byte of RAM makes one of the bytes fault, which is one of RAM. -/
theorem readsAnswerBytesInOrder : Obligations.ReadsAnswerBytesInOrder := by
  intro s addr w hc
  refine ⟨fun f hf => ?_, fun k hk hram hn => ?_⟩
  · have hlt : fromLE ((List.range w.bytes).map f) < 2 ^ 32 := fromLE_lt_of_width (w := w) (by simp)
    refine ⟨BitVec.ofNat 32 (fromLE ((List.range w.bytes).map f)), performAccess_read hc hf, ?_, ?_⟩
    · rw [BitVec.toNat_ofNat, Nat.mod_eq_of_lt hlt, fromLE_map_range]
    · exact performAccess_read (s := s.pushAnswer _) hc hf
  · obtain ⟨j, e, hj, he, hfault⟩ := performAccess_read_fault hc hk (busByte_eq_error.2 ⟨hram, hn, rfl⟩)
    obtain ⟨-, hundef, rfl⟩ := busByte_eq_error.1 he
    exact ⟨j, hj, hundef, hfault⟩

end Sys2Proof.Proofs
end

section
/-! PROOFS. Writes of the control registers: a byte of a value replaced, a whole word, and what each writable field takes of it. -/

namespace Sys2Proof.Machine

/-! ## Replacing bytes of a value -/

/-- The replaced byte has the new bits, every other bit is the old one. -/
theorem getLsbD_setByteOf {w : Nat} (x : BitVec w) (k : Nat) (b : Byte) {i : Nat} (hi : i < w) :
    (setByteOf x k b).getLsbD i = if 8 * k ≤ i ∧ i < 8 * k + 8 then b.getLsbD (i - 8 * k) else x.getLsbD i := by
  have mask : (0xFF#w).getLsbD (i - 8 * k) = decide (i - 8 * k < 8) := by
    rw [BitVec.getLsbD_ofNat, Nat.testBit_two_pow_sub_one 8]
    simp [show i - 8 * k < w by omega]
  simp only [setByteOf, BitVec.getLsbD_or, BitVec.getLsbD_and, BitVec.getLsbD_not, BitVec.getLsbD_shiftLeft, BitVec.getLsbD_setWidth,
    mask, hi, show i - 8 * k < w by omega]
  by_cases lo : i < 8 * k
  · simp [lo, show ¬ 8 * k ≤ i by omega]
  · by_cases up : i - 8 * k < 8
    · simp [lo, up, show 8 * k ≤ i ∧ i < 8 * k + 8 by omega]
    · simp [lo, up, show ¬ i < 8 * k + 8 by omega, BitVec.getLsbD_of_ge b (i - 8 * k) (by omega)]

/-- A byte beyond the value's width is ignored. -/
theorem setByteOf_of_le {w k : Nat} (h : w ≤ 8 * k) (x : BitVec w) (b : Byte) : setByteOf x k b = x := by
  refine BitVec.eq_of_getLsbD_eq fun i hi => ?_
  rw [getLsbD_setByteOf x k b hi, if_neg (by omega)]

theorem byteOf_zero {w : Nat} (v : BitVec w) : byteOf v 0 = v.setWidth 8 := by
  refine BitVec.eq_of_getLsbD_eq fun i hi => ?_
  simp [byteOf, hi]

/-- The value with its four bytes from byte k up replaced by those of a word. -/
def setWordOf {w : Nat} (x : BitVec w) (k : Nat) (v : BitVec 32) : BitVec w :=
  setByteOf (setByteOf (setByteOf (setByteOf x k (byteOf v 0)) (k + 1) (byteOf v 1)) (k + 2) (byteOf v 2)) (k + 3) (byteOf v 3)

theorem getLsbD_byteOf {w : Nat} (v : BitVec w) (k i : Nat) : (byteOf v k).getLsbD i = (decide (i < 8) && v.getLsbD (8 * k + i)) := by
  simp [byteOf]

/-- The replaced bytes have the word's bits, every other bit is the old one. -/
theorem getLsbD_setWordOf {w : Nat} (x : BitVec w) (k : Nat) (v : BitVec 32) {i : Nat} (hi : i < w) :
    (setWordOf x k v).getLsbD i = if 8 * k ≤ i ∧ i < 8 * k + 32 then v.getLsbD (i - 8 * k) else x.getLsbD i := by
  have bit : ∀ j, 8 * (k + j) ≤ i ∧ i < 8 * (k + j) + 8 → (byteOf v j).getLsbD (i - 8 * (k + j)) = v.getLsbD (i - 8 * k) :=
    fun j h => by
      rw [getLsbD_byteOf, show 8 * j + (i - 8 * (k + j)) = i - 8 * k by omega]
      simp only [show i - 8 * (k + j) < 8 by omega, decide_true, Bool.true_and]
  have bit0 := bit 0
  rw [Nat.add_zero] at bit0
  simp only [setWordOf, getLsbD_setByteOf _ _ _ hi]
  split
  · next h => rw [bit 3 h, if_pos (by omega)]
  split
  · next h => rw [bit 2 h, if_pos (by omega)]
  split
  · next h => rw [bit 1 h, if_pos (by omega)]
  split
  · next h => rw [bit0 h, if_pos (by omega)]
  · next h => rw [if_neg (by omega)]

/-- A 16-bit field takes the low half of a word. -/
theorem setWordOf_half (x : BitVec 16) (v : BitVec 32) : setWordOf x 0 v = v.setWidth 16 := by
  refine BitVec.eq_of_getLsbD_eq fun i hi => ?_
  rw [getLsbD_setWordOf x 0 v hi, if_pos (by omega)]
  simp [hi]

/-- The low word of a 64-bit field. -/
theorem setWordOf_low (x : BitVec 64) (v : BitVec 32) : setWordOf x 0 v = x.extractLsb' 32 32 ++ v := by
  refine BitVec.eq_of_getLsbD_eq fun i hi => ?_
  rw [getLsbD_setWordOf x 0 v hi, BitVec.getLsbD_append]
  by_cases h : i < 32
  · simp [h]
  · simp [h, show i - 32 < 32 by omega, show 32 + (i - 32) = i by omega]

/-- The high word of a 64-bit field. -/
theorem setWordOf_high (x : BitVec 64) (v : BitVec 32) : setWordOf x 4 v = v ++ x.extractLsb' 0 32 := by
  refine BitVec.eq_of_getLsbD_eq fun i hi => ?_
  rw [getLsbD_setWordOf x 4 v hi, BitVec.getLsbD_append]
  by_cases h : i < 32
  · simp [h]
  · simp [h, hi, show 32 ≤ i by omega]

/-- The high byte of a 16-bit field. -/
theorem setByteOf_high (x : BitVec 16) (b : Byte) : setByteOf x 1 b = b ++ x.setWidth 8 := by
  refine BitVec.eq_of_getLsbD_eq fun i hi => ?_
  rw [getLsbD_setByteOf x 1 b hi, BitVec.getLsbD_append]
  by_cases h : i < 8
  · simp [h]
  · simp [h, hi, show 8 ≤ i by omega]

/-! ## Writes that pass their checks -/

/-- A passed write beyond CMD stores its bytes. -/
theorem performAccess_write {addr : BitVec 16} {w : Width} {v : BitVec 32} (hc : busCheck (.write addr w v) = none)
    (h0 : addr.toNat ≠ 0) (s : State) : performAccess (.write addr w v) s = .next (s.busWrite addr.toNat w.bytes v) := by
  simp only [performAccess, hc, passedAccess, if_neg h0]

/-- The write of word k, all of whose bytes go to one field, from the field's byte `lo` up. -/
theorem write_field {n k lo : Nat} (upd : BitVec n → State) {x y : BitVec n} {v : BitVec 32} (hk : k < 12 ∧ k ≠ 0 ∧ k ≠ 3)
    (hy : setWordOf x lo v = y)
    (hupd : ∀ j, j < 4 → ∀ z b, (upd z).writeControl (4 * k + j) b = upd (setByteOf z (lo + j) b) := by
      intro j hj z b
      interval_cases j <;> rfl) :
    performAccess (.write (BitVec.ofNat 16 (4 * k)) .w32 v) (upd x) = .next (upd y) := by
  obtain ⟨h12, h0, h3⟩ := hk
  have first := hupd 0 (by decide) x (byteOf v 0)
  rw [Nat.add_zero, Nat.add_zero] at first
  rw [write_control (upd x) h12 h0 h3 v, first, hupd 1 (by decide), hupd 2 (by decide), hupd 3 (by decide), ← hy, setWordOf]

end Sys2Proof.Machine

namespace Sys2Proof.Proofs
open Sys2Proof.Machine Sys2Proof.Claim

/-- Settles O51: the bytes of a word go to the bytes of its field, and those beyond the field's width are ignored. -/
theorem controlRegisterWrites : Obligations.ControlRegisterWrites := by
  intro s v
  have bit : (byteOf v 0).getLsbD 0 = v.getLsbD 0 := by simp [byteOf]
  refine ⟨bit ▸ write_control s (k := 2) (by decide) (by decide) (by decide) v,
    write_field (k := 4) (fun x => { s with selCount := x }) (by decide) (setWordOf_half s.selCount v),
    write_field (k := 5) (fun x => { s with kcCount := x }) (by decide) (setWordOf_half s.kcCount v),
    write_field (k := 6) (fun x => { s with sbLen := x }) (by decide) (setWordOf_half s.sbLen v),
    write_field (k := 7) (fun x => { s with rkLen := x }) (by decide) (setWordOf_half s.rkLen v),
    write_field (k := 8) (fun x => { s with blkIdx := x }) (by decide) (setWordOf_low s.blkIdx v),
    write_field (k := 9) (fun x => { s with blkIdx := x }) (by decide) (setWordOf_high s.blkIdx v),
    write_field (k := 10) (fun x => { s with q := x }) (by decide) (setWordOf_low s.q v),
    write_field (k := 11) (fun x => { s with q := x }) (by decide) (setWordOf_high s.q v), ?_, ?_⟩
  · rw [performAccess_write rfl (by decide)]
    show Host.Outcome.next { s with sbLen := setByteOf s.sbLen 1 (byteOf v 0) } = _
    rw [setByteOf_high, byteOf_zero]
  · rw [performAccess_write rfl (by decide)]
    show Host.Outcome.next { s with sbLen := setByteOf (setByteOf s.sbLen 2 (byteOf v 0)) 3 (byteOf v 1) } = _
    rw [setByteOf_of_le (by decide), setByteOf_of_le (by decide)]

end Sys2Proof.Proofs
end

section
/-! PROOFS. Writes of the regions the host may write: one byte stored, consecutive bytes, and a write read back. -/

namespace Sys2Proof.Machine
open Sys2Proof.Claim

/-! ## The regions the host may write -/

/-- The host may write R, and the RAM regions but for DOUT and KS. -/
theorem hostWritable_iff {a : Nat} : HostWritable a ↔ regionOf a = some .reg ∨ HostOnly a := by
  unfold HostWritable HostOnly
  tauto

theorem busWriteByte_hostOnly {a : Nat} (h : HostOnly a) (s : State) (b : Byte) :
    s.busWriteByte a b = { s with mem := Memory.set s.mem a b } := by
  rcases h with h | h | h | h | h | h <;> simp only [State.busWriteByte, h]

/-- R[i][j] is at 0x0100 + 64i + j (R74). -/
theorem regPos_register (i : Fin 7) (j : Fin 64) :
    regionOf (0x100 + 64 * i.val + j.val) = some .reg ∧ regPos (0x100 + 64 * i.val + j.val) = (i, j) := by
  have hr : regionOf (0x100 + 64 * i.val + j.val) = some .reg := regionOf_eq_some.2 ⟨by omega, by omega⟩
  obtain ⟨i', j', ha, hp⟩ := exists_regPos hr
  obtain rfl : i' = i := Fin.ext (by omega)
  obtain rfl : j' = j := Fin.ext (by omega)
  exact ⟨hr, hp⟩

theorem busWriteByte_reg (s : State) (i : Fin 7) (j : Fin 64) (b : Byte) :
    s.busWriteByte (0x100 + 64 * i.val + j.val) b = s.setRegByte i j b := by
  obtain ⟨hr, hp⟩ := regPos_register i j
  simp only [State.busWriteByte, hr, hp]

/-- One entry of a table of rows replaced. -/
theorem getElem_set_set {α : Type} (m : Vector (Vector α 64) 7) (i i' : Fin 7) (j j' : Fin 64) (x : α) :
    ((m.set i (m[i].set j x))[i'])[j'] = if (i', j') = (i, j) then x else (m[i'])[j'] := by
  by_cases hi : i' = i
  · subst hi
    by_cases hj : j' = j
    · subst hj; simp
    · have hj' : j.val ≠ j'.val := fun e => hj (Fin.ext e.symm)
      simp [hj, hj']
  · have hi' : i.val ≠ i'.val := fun e => hi (Fin.ext e.symm)
    simp [hi, hi']

/-- A byte's definedness depends on the byte of RAM there and its mark only. -/
theorem isDefined_congr {s t : State} {a : Nat} (hm : Memory.get? t.mem a = Memory.get? s.mem a)
    (hr : regionOf a = some .reg → (t.regMarks[(regPos a).1])[(regPos a).2] = (s.regMarks[(regPos a).1])[(regPos a).2]) :
    t.isDefined a = s.isDefined a := by
  unfold State.isDefined
  split
  · next h => exact hr h
  · rw [hm]

theorem isDefined_reg (s : State) (i : Fin 7) (j : Fin 64) :
    s.isDefined (0x100 + 64 * i.val + j.val) = (s.regMarks[i])[j] := by
  obtain ⟨hr, hp⟩ := regPos_register i j
  simp only [State.isDefined, hr, hp]

theorem isDefined_ram {s : State} {a : Nat} {b : Byte} (hr : ramByte a = true) (hb : Memory.get? s.mem a = some b) :
    s.isDefined a = true := by
  unfold State.isDefined
  split
  · next h => simp [ramByte, h] at hr
  · simp [hr, hb]

/-! ## Bytes stored -/

/-- The bytes stand at consecutive addresses from `a` up and are defined; every other byte of the window and its definedness are as
before; no field but the registers, their marks and RAM is different. -/
structure Stored (s t : State) (a : Nat) (bs : List Byte) : Prop where
  /-- The bytes read back. -/
  bytes : ∀ k (hk : k < bs.length), t.busByte (a + k) = .ok bs[k]
  /-- They are defined. -/
  defined : ∀ k, k < bs.length → t.isDefined (a + k) = true
  /-- The fields that may differ. -/
  frame : t = { s with regs := t.regs, regMarks := t.regMarks, mem := t.mem }
  /-- Other bytes read as before. -/
  sameBytes : SameBytes (Outside a bs.length) s t
  /-- Other bytes are as defined as before. -/
  sameDefined : ∀ x, Outside a bs.length x → t.isDefined x = s.isDefined x

theorem stored_nil (s : State) (a : Nat) : Stored s s a [] where
  bytes := fun k hk => absurd hk k.not_lt_zero
  defined := fun k hk => absurd hk k.not_lt_zero
  frame := rfl
  sameBytes := fun _ _ => rfl
  sameDefined := fun _ _ => rfl

theorem Stored.cons {s t u : State} {a : Nat} {b : Byte} {bs : List Byte} (h : Stored s t a [b]) (k : Stored t u (a + 1) bs) :
    Stored s u a (b :: bs) where
  bytes := fun
    | 0, _ => (k.sameBytes a (.inl (Nat.lt_succ_self a))).trans (h.bytes 0 Nat.one_pos)
    | n + 1, hn => by
      rw [show a + (n + 1) = a + 1 + n by omega]
      exact k.bytes n (Nat.lt_of_succ_lt_succ hn)
  defined := fun
    | 0, _ => (k.sameDefined a (.inl (Nat.lt_succ_self a))).trans (h.defined 0 Nat.one_pos)
    | n + 1, hn => by
      rw [show a + (n + 1) = a + 1 + n by omega]
      exact k.defined n (Nat.lt_of_succ_lt_succ hn)
  frame := by
    have e := k.frame
    rw [h.frame] at e
    exact e
  sameBytes := fun x hx => by
    simp only [Outside, List.length_cons] at hx
    rw [k.sameBytes x (by unfold Outside; omega), h.sameBytes x (by simp only [Outside, List.length_singleton]; omega)]
  sameDefined := fun x hx => by
    simp only [Outside, List.length_cons] at hx
    rw [k.sameDefined x (by unfold Outside; omega), h.sameDefined x (by simp only [Outside, List.length_singleton]; omega)]

/-- A byte of a RAM region that the host may write. -/
theorem stored_setMem {a : Nat} (h : HostOnly a) (s : State) (b : Byte) :
    Stored s { s with mem := Memory.set s.mem a b } a [b] := by
  obtain ⟨hram, -⟩ := ramByte_of_hostOnly h
  have other : ∀ x, Outside a 1 x → Memory.get? (Memory.set s.mem a b) x = Memory.get? s.mem x :=
    fun x hx => Memory.get?_set_ne s.mem b (by unfold Outside at hx; omega)
  refine ⟨fun k hk => ?_, fun k hk => ?_, rfl, fun x hx => ?_, fun x hx => ?_⟩
  · obtain rfl : k = 0 := Nat.lt_one_iff.1 hk
    rw [Nat.add_zero, busByte_ram hram, State.readByte_eq_ok]
    exact Memory.get?_set_same s.mem a b
  · obtain rfl : k = 0 := Nat.lt_one_iff.1 hk
    exact isDefined_ram hram (Memory.get?_set_same s.mem a b)
  · exact busByte_congr (other x hx) (fun _ => rfl) (fun _ => rfl) (fun _ => rfl)
  · exact isDefined_congr (other x hx) (fun _ => rfl)

/-- A byte of a register. -/
theorem stored_setRegByte (s : State) (i : Fin 7) (j : Fin 64) (b : Byte) :
    Stored s (s.setRegByte i j b) (0x100 + 64 * i.val + j.val) [b] := by
  have other : ∀ x, Outside (0x100 + 64 * i.val + j.val) 1 x → regionOf x = some .reg → regPos x ≠ (i, j) := by
    intro x hx hr e
    obtain ⟨i', j', ha, hp⟩ := exists_regPos hr
    obtain ⟨rfl, rfl⟩ := Prod.mk.inj (hp.symm.trans e)
    unfold Outside at hx
    omega
  refine ⟨fun k hk => ?_, fun k hk => ?_, rfl, fun x hx => ?_, fun x hx => ?_⟩
  · obtain rfl : k = 0 := Nat.lt_one_iff.1 hk
    rw [Nat.add_zero, busByte_reg, State.setRegByte_regs, getElem_set_set, if_pos rfl]
    rfl
  · obtain rfl : k = 0 := Nat.lt_one_iff.1 hk
    rw [Nat.add_zero, isDefined_reg, State.setRegByte_regMarks, getElem_set_set, if_pos rfl]
  · exact busByte_congr rfl
      (fun hr => by rw [State.setRegByte_regs, getElem_set_set, if_neg (other x hx hr)]) (fun _ => rfl) (fun _ => rfl)
  · exact isDefined_congr rfl
      (fun hr => by rw [State.setRegByte_regMarks, getElem_set_set, if_neg (other x hx hr)])

theorem stored_busWriteByte {a : Nat} (h : HostWritable a) (s : State) (b : Byte) : Stored s (s.busWriteByte a b) a [b] := by
  rcases hostWritable_iff.1 h with hr | ho
  · obtain ⟨i, j, rfl, -⟩ := exists_regPos hr
    rw [busWriteByte_reg]
    exact stored_setRegByte s i j b
  · rw [busWriteByte_hostOnly ho]
    exact stored_setMem ho s b

theorem stored_busWriteBytes {a : Nat} {bs : List Byte} (h : ∀ k, k < bs.length → HostWritable (a + k)) (s : State) :
    Stored s (s.busWriteBytes a bs) a bs := by
  induction bs generalizing a s with
  | nil => exact stored_nil s a
  | cons b bs ih =>
    refine (stored_busWriteByte (h 0 (Nat.succ_pos _)) s b).cons (ih (fun k hk => ?_) _)
    rw [Nat.add_assoc, Nat.add_comm 1]
    exact h (k + 1) (Nat.succ_lt_succ hk)

/-! ## A write and the read of the same bytes -/

theorem length_bytesLE {w : Nat} (n : Nat) (v : BitVec w) : (bytesLE n v).length = n := by simp [bytesLE]

/-- The first n bytes of a value are its low 8n bits. -/
theorem fromLE_bytesLE {w : Nat} (n : Nat) (v : BitVec w) : fromLE (bytesLE n v) = v.toNat % 2 ^ (8 * n) := by
  induction n with
  | zero => simp [bytesLE, fromLE, Nat.mod_one]
  | succ n ih =>
    have last : fromLE [byteOf v n] = v.toNat / 2 ^ (8 * n) % 2 ^ 8 := by
      simp [fromLE, byteOf, BitVec.extractLsb'_toNat, Nat.shiftRight_eq_div_pow]
    have split : bytesLE (n + 1) v = bytesLE n v ++ [byteOf v n] := by simp [bytesLE, List.range_succ]
    rw [split, fromLE_append, ih, last, length_bytesLE, show (256 : ℕ) = 2 ^ 8 from rfl, ← pow_mul, Nat.mul_succ, pow_add, Nat.mod_mul]

/-- The value of a read of the bytes of a write: the low bytes of the value. -/
theorem ofNat_fromLE_bytesLE (w : Width) (v : BitVec 32) :
    BitVec.ofNat 32 (fromLE (bytesLE w.bytes v)) = v &&& BitVec.ofNat 32 (2 ^ (8 * w.bytes) - 1) := by
  apply BitVec.eq_of_toNat_eq
  have mask : (2 ^ (8 * w.bytes) - 1) % 2 ^ 32 = 2 ^ (8 * w.bytes) - 1 := by cases w <;> rfl
  have low : v.toNat % 2 ^ (8 * w.bytes) < 2 ^ 32 := (Nat.mod_le _ _).trans_lt v.isLt
  rw [fromLE_bytesLE, BitVec.toNat_and, BitVec.toNat_ofNat, BitVec.toNat_ofNat, mask, Nat.and_two_pow_sub_one_eq_mod,
    Nat.mod_eq_of_lt low]

/-- A passed write into the regions the host may write stores its bytes. -/
theorem stored_of_write {addr : BitVec 16} {w : Width} {v : BitVec 32} (hc : busCheck (.write addr w v) = none)
    (hw : HostWritable addr.toNat) (s : State) :
    ∃ t, performAccess (.write addr w v) s = .next t ∧ Stored s t addr.toNat (bytesLE w.bytes v) := by
  obtain ⟨-, hmap, -, -⟩ := busCheck_write_eq_none.1 hc
  have h0 : addr.toNat ≠ 0 := fun h => by
    rw [h] at hw
    revert hw
    unfold HostWritable
    decide
  refine ⟨_, performAccess_write hc h0 s, stored_busWriteBytes (fun k hk => ?_) s⟩
  rw [length_bytesLE] at hk
  unfold HostWritable
  rw [regionOf_of_mapped hmap hk]
  exact hw

/-- A read of an address passes its checks where a write does. -/
theorem busCheck_read_of_write {addr : BitVec 16} {w : Width} {v : BitVec 32} (hc : busCheck (.write addr w v) = none) :
    busCheck (.read addr w) = none := by
  obtain ⟨halign, hmap, -, -⟩ := busCheck_write_eq_none.1 hc
  exact busCheck_read_eq_none.2 ⟨halign, hmap⟩

theorem performAccess_read_of_stored {addr : BitVec 16} {w : Width} {v : BitVec 32} (hc : busCheck (.read addr w) = none)
    {s t : State} (h : Stored s t addr.toNat (bytesLE w.bytes v)) :
    performAccess (.read addr w) t = .next (t.pushAnswer (v &&& BitVec.ofNat 32 (2 ^ (8 * w.bytes) - 1))) := by
  rw [performAccess_read hc (f := byteOf v), ← ofNat_fromLE_bytesLE]
  · rfl
  · intro k hk
    rw [h.bytes k (by rw [length_bytesLE]; exact hk)]
    simp [bytesLE]

/-- A one-byte write of R passes its checks. -/
theorem busCheck_write_regByte (i : Fin 7) (j : Fin 64) (v : BitVec 32) :
    busCheck (.write (BitVec.ofNat 16 (0x0100 + 64 * i.val + j.val)) .w8 v) = none := by
  obtain ⟨hr, -⟩ := regPos_register i j
  have ha : (BitVec.ofNat 16 (0x0100 + 64 * i.val + j.val)).toNat = 0x100 + 64 * i.val + j.val := by
    rw [BitVec.toNat_ofNat, Nat.mod_eq_of_lt (by omega)]
  rw [busCheck_write_eq_none, ha]
  refine ⟨Nat.mod_one _, mapped_of_row (r := ⟨.reg, regBase, 448⟩) (by simp [addressMap]) ?_ ?_, ?_, ?_⟩
  · simp only [regBase]; omega
  · simp only [regBase, Width.bytes]; omega
  · simp only [touchesCmd, Width.bytes, List.range_one, List.any_cons, List.any_nil, Bool.or_false, decide_eq_true_eq]
    omega
  · simp [touchesReadOnly, Width.bytes, readOnly, hr]

end Sys2Proof.Machine

namespace Sys2Proof.Proofs
open Sys2Proof.Machine Sys2Proof.Claim

/-- Settles O53: a passed write stores its bytes, and the read of the same address meets them; of R it is one byte of one
register. -/
theorem writesAreReadBack : Obligations.WritesAreReadBack := by
  refine ⟨fun s addr w v hc hw => ?_, fun s i j v => ?_⟩
  · obtain ⟨t, ht, h⟩ := stored_of_write hc hw s
    have len := length_bytesLE w.bytes v
    have sameBytes := h.sameBytes
    have sameDefined := h.sameDefined
    rw [len] at sameBytes sameDefined
    exact ⟨t, ht, performAccess_read_of_stored (busCheck_read_of_write hc) h, fun k hk => h.defined k (len.symm ▸ hk), h.frame,
      sameBytes, fun a ha _ => sameDefined a ha⟩
  · have ha : (BitVec.ofNat 16 (0x0100 + 64 * i.val + j.val)).toNat = 0x100 + 64 * i.val + j.val := by
      rw [BitVec.toNat_ofNat, Nat.mod_eq_of_lt (by omega)]
    refine ⟨s.setRegByte i j (v.setWidth 8), ?_, ?_, ?_, fun i' j' hne => ⟨?_, ?_⟩, rfl⟩
    · rw [performAccess_write (busCheck_write_regByte i j v) (by omega), ha, ← busWriteByte_reg, ← byteOf_zero]
      rfl
    · rw [State.setRegByte_regs, getElem_set_set, if_pos rfl]
    · rw [State.setRegByte_regMarks, getElem_set_set, if_pos rfl]
    · rw [State.setRegByte_regs, getElem_set_set, if_neg hne]
    · rw [State.setRegByte_regMarks, getElem_set_set, if_neg hne]

end Sys2Proof.Proofs
end

section
/-! PROOFS. The hash port under commands (R92): the message's length, the commands that leave the list of requests alone, and the one
request of KSGEN and BLOCK. -/

namespace Sys2Proof.Machine

/-- The message is seven registers, ACC, eight bytes of BLKIDX and the literal (R210). -/
theorem length_ksMessage (s : State) : s.ksMessage.length = 600 := by
  have regs : ((s.regs.toList.map Vector.toList).flatten).length = 448 := by
    have row : (List.length ∘ Vector.toList : Reg512 → Nat) = fun _ => 64 := funext fun r => r.length_toList
    simp [List.length_flatten, row]
  simp only [State.ksMessage, List.length_append, regs, Vector.length_toList, bytesBE, List.length_map, List.length_range]
  rfl

/-! ## Commands that use no hash port -/

/-- Whatever state the result answers, no request was made on the way to it. -/
def KeepsRequests (s : State) (r : Result) : Prop := ∀ t, r = .next t → t.hashRequests = s.hashRequests

theorem keepsRequests_next {s t : State} (h : t.hashRequests = s.hashRequests) : KeepsRequests s (.next t) := by
  rintro u ⟨⟩
  exact h

theorem keepsRequests_answer {s : State} {x : Except Fault State} (h : ∀ t, x = .ok t → t.hashRequests = s.hashRequests) :
    KeepsRequests s (answer x) :=
  fun t ht => h t (answer_eq_next.1 ht)

theorem keepsRequests_withReg {s : State} {r : BitVec 3} {k : Fin 7 → Result} (h : ∀ i, KeepsRequests s (k i)) :
    KeepsRequests s (withReg r s k) := by
  rcases withReg_cases r s k with ⟨i, -, e⟩ | ⟨-, e⟩ <;> rw [e]
  · exact h i
  · exact keepsRequests_next rfl

theorem keepsRequests_withRound {s : State} {r : BitVec 5} {k : Fin 24 → Result} (h : ∀ i, KeepsRequests s (k i)) :
    KeepsRequests s (withRound r s k) := by
  rcases withRound_cases r s k with ⟨hr, e⟩ | ⟨-, e⟩ <;> rw [e]
  · exact h _
  · exact keepsRequests_next rfl

theorem keepsRequests_withTables {s : State} {k : Result} (h : s.tableCheck = none → KeepsRequests s k) :
    KeepsRequests s (withTables s k) := by
  rcases withTables_cases s k with ⟨hc, e⟩ | ⟨-, e⟩ | ⟨-, -, e⟩ <;> rw [e]
  · exact h hc
  · exact keepsRequests_next rfl
  · exact keepsRequests_next rfl

/-- Rounds make no request. -/
theorem hashRequests_of_cipher_frame {s t : State}
    (h : t = { s with regs := t.regs, regMarks := t.regMarks, accsum := t.accsum, rskip := t.rskip }
      ∧ (s.rskip = true → t.rskip = true)) : t.hashRequests = s.hashRequests := by
  rw [h.1]

theorem loadkmBody_hashRequests {s t : State} (h : loadkmBody s = .ok t) : t.hashRequests = s.hashRequests := by
  obtain ⟨km, -, rfl⟩ := loadkmBody_eq_ok.1 h
  exact State.setRegs_hashRequests s (regsOfKm km)

theorem xorksBody_hashRequests {s t : State} (h : xorksBody s = .ok t) : t.hashRequests = s.hashRequests := by
  obtain ⟨din, ks, -, -, rfl⟩ := xorksBody_eq_ok.1 h
  exact State.writeBuffer_hashRequests s _ _

theorem feedbackBody_hashRequests {s t : State} (h : feedbackBody s = .ok t) : t.hashRequests = s.hashRequests := by
  obtain ⟨ct, -, rfl⟩ := feedbackBody_eq_ok.1 h
  exact State.setRegs_hashRequests s _

/-! ## The one request of KSGEN and BLOCK -/

/-- One request, of a 600-byte message for 32 bytes, was added. -/
def OneRequest (s t : State) : Prop := ∃ m, t.hashRequests = ⟨m, 32⟩ :: s.hashRequests ∧ m.length = 600

theorem ksgenBody_oneRequest {s t : State} (h : ksgenBody s = .ok t) : OneRequest s t := by
  obtain ⟨-, rfl⟩ := ksgenBody_eq_ok.1 h
  exact ⟨s.ksMessage, rfl, length_ksMessage s⟩

theorem blockBody_oneRequest {s t : State} (h : blockBody s = .ok t) : OneRequest s t := by
  obtain ⟨s1, s2, s3, s4, h1, h2, h3, h4, h5⟩ := blockBody_eq_ok.1 h
  obtain ⟨m, hm, hlen⟩ := ksgenBody_oneRequest h3
  refine ⟨m, ?_, hlen⟩
  rw [feedbackBody_hashRequests h5, xorksBody_hashRequests h4, hm, hashRequests_of_cipher_frame (mixBody_frame h2),
    loadkmBody_hashRequests h1]

/-- Checks 3 to 6 of BLOCK are its table checks (R281). -/
theorem commandCheck_block_eq_none {s : State} : commandCheck .block s = none ↔ s.tableCheck = none := by
  have eq_length (x : BitVec 16) (n : Nat) (hn : n < 2 ^ 16) : x = BitVec.ofNat 16 n ↔ x.toNat = n := by
    rw [← BitVec.toNat_inj, BitVec.toNat_ofNat, Nat.mod_eq_of_lt hn]
  rw [tableCheck_eq_none]
  simp only [commandCheck, registerFields, namesNoRound, usesTables, List.any_nil, Bool.false_eq_true, if_false, Bool.true_and,
    decide_eq_true_eq]
  split
  · next h => simp; omega
  · next h =>
    rw [← eq_length s.sbLen 6144 (by decide), ← eq_length s.rkLen 1536 (by decide)]
    cases s.strict <;> simp <;> omega

/-- A command that is neither KSGEN nor a BLOCK whose checks pass makes no request. -/
theorem exec_keepsRequests {i : Instr} {s : State} (h : ¬ (i = .ksgen ∨ i = .block ∧ commandCheck .block s = none)) :
    KeepsRequests s (exec i s) := by
  cases i with
  | nop | gfmul => exact keepsRequests_next rfl
  | gfmulb | rotl => exact keepsRequests_withReg fun d => keepsRequests_withReg fun a => keepsRequests_next rfl
  | xor =>
    exact keepsRequests_withReg fun d => keepsRequests_withReg fun a => keepsRequests_withReg fun b => keepsRequests_next rfl
  | xinj | getq | putq => exact keepsRequests_withReg fun d => keepsRequests_next rfl
  | loadkm => exact keepsRequests_answer fun t => loadkmBody_hashRequests
  | round rnd =>
    exact keepsRequests_withRound fun r => keepsRequests_withTables fun _ => keepsRequests_answer fun t ht =>
      hashRequests_of_cipher_frame (roundOrSkip_frame ht)
  | mix24 =>
    exact keepsRequests_withTables fun _ => keepsRequests_answer fun t ht => hashRequests_of_cipher_frame (mixBody_frame ht)
  | ksgen => exact absurd (.inl rfl) h
  | xorks => exact keepsRequests_answer fun t => xorksBody_hashRequests
  | feedback => exact keepsRequests_answer fun t => feedbackBody_hashRequests
  | block => exact keepsRequests_withTables fun hc => absurd (.inr ⟨rfl, commandCheck_block_eq_none.2 hc⟩) h

end Sys2Proof.Machine

namespace Sys2Proof.Proofs
open Sys2Proof.Machine Sys2Proof.Claim

/-- Settles O44: KSGEN's body makes the request, alone or as the third part of BLOCK. -/
theorem hashPortUse : Obligations.HashPortUse := by
  intro i s t ht
  refine ⟨?_, fun h => exec_keepsRequests h t ht⟩
  rintro (rfl | ⟨rfl, hc⟩)
  · exact ksgenBody_oneRequest (answer_eq_next.1 ht)
  · refine blockBody_oneRequest (answer_eq_next.1 ?_)
    rw [← ht]
    exact (withTables_of_none (commandCheck_block_eq_none.1 hc) _).symm

end Sys2Proof.Proofs
end

section
/-! PROOFS. The opcode map as a table of rows (R123) and the masks of the match table as its opcodes and reserved bits: which words
decode, to what, and which error rejects the others; the encoder on the commands of the rows. -/

namespace Sys2Proof.Laws
open Sys2Proof.Claim

/-! ## Fields of a word -/

/-- A field put back at its place is the word's bits at that place. -/
theorem fieldAt_extractLsb' (w : BitVec 32) (lo n : Nat) :
    fieldAt (w.extractLsb' lo n) lo = w &&& fieldAt (BitVec.allOnes n) lo := by
  apply BitVec.eq_of_getLsbD_eq
  intro i hi
  by_cases hlo : i < lo
  · simp [fieldAt, hlo]
  · by_cases hn : i - lo < n
    · simp [fieldAt, hi, hn, hlo, show lo + (i - lo) = i by omega]
    · simp [fieldAt, hi, hn, hlo]

theorem opField_fieldAt (op : BitVec 8) : opField (fieldAt op 24) = op := by
  apply BitVec.eq_of_getLsbD_eq
  intro i hi
  simp [opField, fieldAt, hi, show 24 + i < 32 by omega]

/-- A word tested on two disjoint masks at once, against a value that lies on the first: it has the value there and zeros on the
second. -/
theorem and_or_eq_iff {w m low p : BitVec 32} (hlow : low &&& m = 0#32) (hp : p &&& m = p) :
    w &&& (m ||| low) = p ↔ w &&& m = p ∧ w &&& low = 0#32 := by
  have first : (m ||| low) &&& m = m := by
    rw [BitVec.and_comm, BitVec.and_or_distrib_left, BitVec.and_comm m low, hlow, BitVec.and_self, BitVec.or_zero]
  have second : (m ||| low) &&& low = low := by
    rw [BitVec.and_comm, BitVec.and_or_distrib_left, hlow, BitVec.and_self, BitVec.zero_or]
  constructor
  · intro h
    refine ⟨?_, ?_⟩
    · rw [← first, ← BitVec.and_assoc, h, hp]
    · rw [← second, ← BitVec.and_assoc, h, ← hp, BitVec.and_assoc, BitVec.and_comm m, hlow, BitVec.and_zero]
  · rintro ⟨hm, hl⟩
    rw [BitVec.and_or_distrib_left, hm, hl, BitVec.or_zero]

/-! ## The opcode map as a table -/

/-- A row of the opcode map (R123). -/
structure OpRow where
  /-- The mnemonic. -/
  mnemonic : String
  /-- The opcode. -/
  opcode : BitVec 8
  /-- The format. -/
  format : Format
  /-- The command that a word of the row stands for. -/
  command : BitVec 32 → Instr

/-- The opcode map of R123, row by row. -/
def opRows : List OpRow := [
  ⟨"NOP", 0x01#8, .n, fun _ => .nop⟩,
  ⟨"GFMUL", 0x10#8, .ii, fun w => .gfmul (a8Field w) (b8Field w)⟩,
  ⟨"GFMULB", 0x11#8, .rsi8, fun w => .gfmulb (rdField w) (rs1Field w) (imm8Field w)⟩,
  ⟨"XOR", 0x12#8, .r3, fun w => .xor (rdField w) (rs1Field w) (rs2Field w)⟩,
  ⟨"ROTL", 0x13#8, .rsi9, fun w => .rotl (rdField w) (rs1Field w) (imm9Field w)⟩,
  ⟨"XINJ", 0x14#8, .rbi, fun w => .xinj (rdField w) (bidxField w) (imm8Field w)⟩,
  ⟨"GETQ", 0x15#8, .rs, fun w => .getq (rs1Field w)⟩,
  ⟨"PUTQ", 0x16#8, .rd, fun w => .putq (rdField w)⟩,
  ⟨"LOADKM", 0x20#8, .n, fun _ => .loadkm⟩,
  ⟨"ROUND", 0x21#8, .rnd, fun w => .round (rndField w)⟩,
  ⟨"MIX24", 0x22#8, .n, fun _ => .mix24⟩,
  ⟨"KSGEN", 0x23#8, .n, fun _ => .ksgen⟩,
  ⟨"XORKS", 0x24#8, .n, fun _ => .xorks⟩,
  ⟨"FEEDBACK", 0x25#8, .n, fun _ => .feedback⟩,
  ⟨"BLOCK", 0x26#8, .n, fun _ => .block⟩]

/-- The bits that a row fixes: the opcode and the reserved bits of the format. -/
def OpRow.mask (r : OpRow) : BitVec 32 := fieldAt (BitVec.allOnes 8) 24 ||| r.format.reserved

/-- Their values: the opcode, and zeros. -/
def OpRow.pattern (r : OpRow) : BitVec 32 := fieldAt r.opcode 24

theorem opcodeMap_eq_find? (n : Nat) (w : BitVec 32) :
    opcodeMap n w = (opRows.find? fun r => r.opcode.toNat == n).map fun r => (r.format, r.command w) := by
  unfold opcodeMap
  split
  case h_16 =>
    have noRow : ∀ r ∈ opRows, ¬(r.opcode.toNat == n) = true := by
      simp [opRows]
      grind
    rw [List.find?_eq_none.2 noRow]
    rfl
  all_goals rfl

theorem matchRows_eq : matchRows = opRows.map fun r => ⟨r.mnemonic, r.pattern, r.mask⟩ := by decide

theorem definedOpcodes_eq : definedOpcodes = opRows.map OpRow.opcode := rfl

section
variable {r : OpRow} (hr : r ∈ opRows)
include hr

/-- No two rows share an opcode. -/
theorem find?_opcode : opRows.find? (fun q => q.opcode.toNat == r.opcode.toNat) = some r := by
  revert r
  simp [opRows]

theorem mnemonic_command (w : BitVec 32) : (r.command w).mnemonic = r.mnemonic := by
  revert r
  simp [opRows, Instr.mnemonic]

/-- The encoder puts every field back at its place: the row's fixed bits, and the word's own bits elsewhere. -/
theorem encode_command (w : BitVec 32) : encode (r.command w) = r.pattern ||| (w &&& ~~~r.mask) := by
  revert r
  simp only [opRows, List.forall_mem_cons, encode, rdField, rs1Field, rs2Field, bidxField, imm8Field, imm9Field, a8Field,
    b8Field, rndField, fieldAt_extractLsb', BitVec.or_assoc, ← BitVec.and_or_distrib_left]
  simp [OpRow.mask, OpRow.pattern, Format.reserved, fieldAt]

end

/-- A word matches a row exactly when it has the row's opcode and no reserved bit of its format (R123, R125). -/
theorem and_mask_eq_pattern_iff (r : OpRow) (w : BitVec 32) :
    w &&& r.mask = r.pattern ↔ opField w = r.opcode ∧ w &&& r.format.reserved = 0#32 := by
  have place (op : BitVec 8) : fieldAt op 24 &&& fieldAt (BitVec.allOnes 8) 24 = fieldAt op 24 := by
    rw [← fieldAt_extractLsb']
    exact congrArg (fieldAt · 24) (opField_fieldAt op)
  have low (f : Format) : f.reserved &&& fieldAt (BitVec.allOnes 8) 24 = 0#32 := by cases f <;> decide
  rw [OpRow.mask, OpRow.pattern, and_or_eq_iff (low _) (place _), ← fieldAt_extractLsb']
  refine and_congr_left fun _ => ⟨fun h => ?_, fun h => congrArg (fieldAt · 24) h⟩
  rw [← opField_fieldAt r.opcode, ← h]
  exact (opField_fieldAt (opField w)).symm

/-! ## Decoding -/

/-- Decoding finds the row that the word matches and answers its command. -/
theorem decode_eq_ok_iff {w : BitVec 32} {i : Instr} :
    decode w = .ok i ↔ ∃ r ∈ opRows, w &&& r.mask = r.pattern ∧ r.command w = i := by
  simp only [and_mask_eq_pattern_iff, decode, opcodeMap_eq_find?]
  constructor
  · intro h
    cases hr : opRows.find? fun r => r.opcode.toNat == (opField w).toNat with
    | none => rw [hr] at h; cases h
    | some r =>
      have hop : r.opcode = opField w := BitVec.eq_of_toNat_eq (by simpa using List.find?_some hr)
      simp only [hr, Option.map_some] at h
      split at h
      · next hres => cases h; exact ⟨r, List.mem_of_find?_eq_some hr, ⟨hop.symm, hres⟩, rfl⟩
      · cases h
  · rintro ⟨r, hr, ⟨hop, hres⟩, rfl⟩
    simp only [hop, find?_opcode hr, Option.map_some, if_pos hres]

/-- A word whose opcode has no row fails the first check of R281. -/
theorem decode_of_reserved_opcode {w : BitVec 32} (h : opField w ∉ definedOpcodes) : decode w = .error .illegalOpcode := by
  have noRow : (opRows.find? fun r => r.opcode.toNat == (opField w).toNat) = none := by
    rw [definedOpcodes_eq] at h
    exact List.find?_eq_none.2 fun r hr e => h (List.mem_map.2 ⟨r, hr, BitVec.eq_of_toNat_eq (by simpa using e)⟩)
  rw [decode, opcodeMap_eq_find?, noRow]
  rfl

/-- A word that has a row's opcode and does not match the row fails the second. -/
theorem decode_of_reserved_bit {w : BitVec 32} {r : OpRow} (hr : r ∈ opRows) (hop : opField w = r.opcode)
    (h : w &&& r.mask ≠ r.pattern) : decode w = .error .reservedField := by
  have hres : w &&& r.format.reserved ≠ 0#32 := fun e => h ((and_mask_eq_pattern_iff r w).2 ⟨hop, e⟩)
  simp only [decode, opcodeMap_eq_find?, hop, find?_opcode hr, Option.map_some, if_neg hres]

/-- A word's command from its opcode's row, where the reserved bits are clear. -/
theorem decode_of_fields {w : BitVec 32} {op : BitVec 8} {f : Format} {i : Instr} (hop : opField w = op)
    (hres : w &&& f.reserved = 0#32) (hmap : opcodeMap op.toNat w = some (f, i)) : decode w = .ok i := by
  simp only [decode, hop, hmap, if_pos hres]

end Sys2Proof.Laws

namespace Sys2Proof.Machine

theorem runCommand_of_ok {w : BitVec 32} {i : Instr} (h : decode w = .ok i) (s : State) : runCommand w s = exec i s := by
  rw [runCommand, h]

theorem runCommand_of_error {w : BitVec 32} {e : DecodeError} (h : decode w = .error e) (s : State) :
    runCommand w s = .next (s.raiseError (errorOfDecode e)) := by
  rw [runCommand, h]

/-- A pending write to CMD passes the checks of R282 and issues its word. -/
theorem step_commandWrite (s : State) (w : BitVec 32) (rest : List Event) :
    step { s with events := commandWrite w :: rest } = runCommand w { s with events := rest } := rfl

end Sys2Proof.Machine

namespace Sys2Proof.Proofs
open Sys2Proof.Machine Sys2Proof.Claim Sys2Proof.Laws

/-- Settles O1: the encoded word has the command's opcode, no reserved bit, and the command's fields. -/
theorem decodeEncodeRoundTrip : Obligations.DecodeEncodeRoundTrip := by
  intro i
  cases i with
  | nop | loadkm | mix24 | ksgen | xorks | feedback | block => rfl
  | gfmul a b =>
    refine decode_of_fields (opField_encode_gfmul a b) (reserved_encode_gfmul a b) ?_
    simp [opcodeMap, a8Field_encode_gfmul, b8Field_encode_gfmul]
  | gfmulb rd rs1 c =>
    refine decode_of_fields (opField_encode_gfmulb rd rs1 c) (reserved_encode_gfmulb rd rs1 c) ?_
    simp [opcodeMap, rdField_encode_gfmulb, rs1Field_encode_gfmulb, imm8Field_encode_gfmulb]
  | xor rd rs1 rs2 =>
    refine decode_of_fields (opField_encode_xor rd rs1 rs2) (reserved_encode_xor rd rs1 rs2) ?_
    simp [opcodeMap, rdField_encode_xor, rs1Field_encode_xor, rs2Field_encode_xor]
  | rotl rd rs1 n =>
    refine decode_of_fields (opField_encode_rotl rd rs1 n) (reserved_encode_rotl rd rs1 n) ?_
    simp [opcodeMap, rdField_encode_rotl, rs1Field_encode_rotl, imm9Field_encode_rotl]
  | xinj rd j v =>
    refine decode_of_fields (opField_encode_xinj rd j v) (reserved_encode_xinj rd j v) ?_
    simp [opcodeMap, rdField_encode_xinj, bidxField_encode_xinj, imm8Field_encode_xinj]
  | getq rs1 =>
    refine decode_of_fields (opField_encode_getq rs1) (reserved_encode_getq rs1) ?_
    simp [opcodeMap, rs1Field_encode_getq]
  | putq rd =>
    refine decode_of_fields (opField_encode_putq rd) (reserved_encode_putq rd) ?_
    simp [opcodeMap, rdField_encode_putq]
  | round r =>
    refine decode_of_fields (opField_encode_round r) (reserved_encode_round r) ?_
    simp [opcodeMap, rndField_encode_round]

/-- Settles O2: the encoding is the row's fixed bits and the word's own bits elsewhere, and a word that matches the row has those
fixed bits. -/
theorem encodeDecodeRoundTrip : Obligations.EncodeDecodeRoundTrip := by
  intro w i h
  obtain ⟨r, hr, hmatch, rfl⟩ := decode_eq_ok_iff.1 h
  calc encode (r.command w) = (w &&& r.mask) ||| (w &&& ~~~r.mask) := by rw [encode_command hr, hmatch]
    _ = w := by rw [← BitVec.and_or_distrib_left, BitVec.or_not_self, BitVec.and_allOnes]

/-- Settles O3: the match and mask table is the opcode map's rows, and a word decodes to the command of the row it matches. -/
theorem decodeFollowsMatchTable : Obligations.DecodeFollowsMatchTable := by
  intro w
  rw [matchRows_eq]
  constructor
  · intro i h
    obtain ⟨r, hr, hmatch, rfl⟩ := decode_eq_ok_iff.1 h
    exact ⟨_, List.mem_map_of_mem hr, beq_iff_eq.2 hmatch, (mnemonic_command hr w).symm⟩
  · rintro _ hm h
    obtain ⟨r, hr, rfl⟩ := List.mem_map.1 hm
    exact ⟨r.command w, decode_eq_ok_iff.2 ⟨r, hr, beq_iff_eq.1 h, rfl⟩, mnemonic_command hr w⟩

/-- Settles O4: a reserved opcode has no row, and a defined one has a row, which the word does not match. -/
theorem reservedWordsRaiseErrors : Obligations.ReservedWordsRaiseErrors := by
  intro w s
  refine ⟨fun h => runCommand_of_error (decode_of_reserved_opcode ?_) s, fun hop h => ?_⟩
  · revert h
    generalize opField w = op
    revert op
    decide
  · rw [definedOpcodes_eq] at hop
    obtain ⟨r, hr, hop⟩ := List.mem_map.1 hop
    rw [matchRows_eq] at h
    exact runCommand_of_error (decode_of_reserved_bit hr hop.symm (beq_eq_false_iff_ne.1 (h _ (List.mem_map_of_mem hr)))) s

/-- Settles O5: each word is the encoding of its command. -/
theorem sampleWordsDecode : Obligations.SampleWordsDecode := by
  have h := decodeEncodeRoundTrip
  exact ⟨h .nop, h (.gfmul 0x57#8 0x83#8), h (.gfmulb 2#3 1#3 0x02#8), h (.xor 4#3 3#3 1#3), h (.rotl 3#3 2#3 9#9),
    h (.xinj 3#3 63#6 0x5A#8), h (.getq 4#3), h (.putq 5#3), h (.round 23#5), h .block⟩

/-- Settles O6: the step issues the word on the state without the event, and the word runs its command or records its error. -/
theorem stepRunsTheDecodedCommand : Obligations.StepRunsTheDecodedCommand := by
  intro s w rest
  simp only [step_commandWrite]
  exact ⟨fun i h => runCommand_of_ok h _, fun h => runCommand_of_error h _, fun h => runCommand_of_error h _, rfl⟩

end Sys2Proof.Proofs
end

section
/-! PROOFS. The commands that complete (R110, R284, R312): reads of defined bytes answer, round by round, and a command whose checks
pass has an effect and records no error. -/

namespace Sys2Proof.Machine

/-! ## Reads of defined bytes answer -/

theorem exists_readByte {s : State} {a : Nat} (h : Memory.get? s.mem a ≠ none) : ∃ b, s.readByte a = .ok b :=
  (Option.ne_none_iff_exists'.1 h).imp fun _ => State.readByte_eq_ok.2

theorem exists_readBuffer {s : State} {a n : Nat} (h : ∀ k, k < n → Memory.get? s.mem (a + k) ≠ none) :
    ∃ v, s.readBuffer a n = .ok v := by
  choose g hg using fun k : Fin n => Option.ne_none_iff_exists'.1 (h k.val k.isLt)
  exact ⟨Vector.ofFn g, State.readBuffer_eq_ok.2 fun k => by simp [hg k]⟩

/-- What the selector steps of round r read is defined: each step's own inputs, and the whole S-box (R312). -/
structure RoundInputsDefined (s : State) (r : Nat) : Prop where
  /-- SEL, KC and the round key. -/
  steps : ∀ p, p < s.selCount.toNat → StepInputsDefined s r p
  /-- The S-box. -/
  sbox : ∀ k : Byte, Memory.get? s.mem (sboxAddr r k.toNat) ≠ none

theorem exists_readKc {s : State} {r p : Nat} (h : StepInputsDefined s r p) : ∃ kc, s.readKc p = .ok kc := by
  unfold State.readKc
  split
  · next hp =>
    obtain ⟨b, hb⟩ := exists_readByte (h.kc hp)
    exact ⟨some b, by rw [hb]; rfl⟩
  · exact ⟨none, rfl⟩

theorem exists_selectorStep {s : State} {r p : Nat} (h : StepInputsDefined s r p)
    (sbox : ∀ k : Byte, Memory.get? s.mem (sboxAddr r k.toNat) ≠ none) (c : Cipher) : ∃ d, selectorStep s r p c = .ok d := by
  obtain ⟨lo, hlo⟩ := exists_readByte h.low
  obtain ⟨hi, hhi⟩ := exists_readByte h.high
  obtain ⟨key, hkey⟩ := exists_readBuffer h.key
  obtain ⟨kc, hkc⟩ := exists_readKc h
  choose box hbox using fun k => exists_readByte (sbox k)
  simp only [selectorStep, State.readSel, State.readRoundKey, State.readSbox, hlo, hhi, hkey, hkc, hbox, ok_bind, pure_eq_ok]
  exact ⟨_, rfl⟩

theorem exists_selectorsFrom {s : State} {r : Nat} (h : RoundInputsDefined s r) {p n : Nat} (hn : p + n ≤ s.selCount.toNat)
    (c : Cipher) : ∃ d, selectorsFrom s r p n c = .ok d := by
  induction n generalizing p c with
  | zero => exact ⟨c, rfl⟩
  | succ n ih =>
    obtain ⟨d, hd⟩ := exists_selectorStep (h.steps p (by omega)) h.sbox c
    obtain ⟨e, he⟩ := ih (p := p + 1) (by omega) d
    exact ⟨e, bind_eq_ok.2 ⟨d, hd, he⟩⟩

theorem exists_roundOrSkip {s : State} {r : Nat} (h : s.roundValid r = true → RoundInputsDefined s r) :
    ∃ t, roundOrSkip s r = .ok t := by
  unfold roundOrSkip
  split
  · next hv =>
    obtain ⟨c, hc⟩ := exists_selectorsFrom (h hv) (p := 0) (Nat.zero_add _).le ⟨s.regs, s.accsum⟩
    exact ⟨_, roundBody_eq_ok.2 ⟨c, hc, rfl⟩⟩
  · exact ⟨_, rfl⟩

/-- No command's effect reaches the inputs of a round: they lie above DOUT and KS. -/
theorem Effect.roundInputsDefined {s t : State} {r : Nat} (e : Effect s t)
    (h : s.roundValid r = true → RoundInputsDefined s r) : t.roundValid r = true → RoundInputsDefined t r := by
  have high {a : Nat} (ha : 0xA0 ≤ a) (hd : Memory.get? s.mem a ≠ none) : Memory.get? t.mem a ≠ none := by
    rwa [e.bytes a (.inr ha)]
  have counts : t.selCount = s.selCount ∧ t.kcCount = s.kcCount ∧ t.sbLen = s.sbLen ∧ t.rkLen = s.rkLen := by
    rw [e.frame]
    exact ⟨rfl, rfl, rfl, rfl⟩
  obtain ⟨hsel, hkc, hsb, hrk⟩ := counts
  intro hv
  obtain ⟨steps, sbox⟩ := h (by rwa [State.roundValid, hsb, hrk] at hv)
  refine ⟨fun p hp => ?_, fun k => high (by simp only [sboxAddr, sboxBase]; omega) (sbox k)⟩
  obtain ⟨low, hi, kc, key⟩ := steps p (hsel ▸ hp)
  exact ⟨high (by simp only [selAddr, selBase]; omega) low, high (by simp only [selAddr, selBase]; omega) hi,
    fun hp => high (by simp only [kcAddr, kcBase]; omega) (kc (hkc ▸ hp)),
    fun j hj => high (by simp only [rkAddr, rkBase]; omega) (key j hj)⟩

theorem exists_roundsFrom {n p : Nat} {s : State}
    (h : ∀ r, r < p + n → s.roundValid r = true → RoundInputsDefined s r) : ∃ t, roundsFrom p n s = .ok t := by
  induction n generalizing p s with
  | zero => exact ⟨s, rfl⟩
  | succ n ih =>
    obtain ⟨u, hu⟩ := exists_roundOrSkip (h p (by omega))
    obtain ⟨t, ht⟩ := ih (p := p + 1) (s := u) fun r hr =>
      (effect_of_cipher_frame (roundOrSkip_frame hu)).roundInputsDefined (h r (by omega))
    exact ⟨t, bind_eq_ok.2 ⟨u, hu, ht⟩⟩

theorem exists_loadkmBody {s : State} (h : ∀ k, k < 448 → Memory.get? s.mem (kmBase + k) ≠ none) : ∃ t, loadkmBody s = .ok t := by
  obtain ⟨km, hkm⟩ := exists_readBuffer h
  exact ⟨_, loadkmBody_eq_ok.2 ⟨km, hkm, rfl⟩⟩

theorem exists_xorksBody {s : State} (din : ∀ k, k < 32 → Memory.get? s.mem (dinBase + k) ≠ none)
    (ks : ∀ k, k < 32 → Memory.get? s.mem (ksBase + k) ≠ none) : ∃ t, xorksBody s = .ok t := by
  obtain ⟨d, hd⟩ := exists_readBuffer din
  obtain ⟨k, hk⟩ := exists_readBuffer ks
  exact ⟨_, xorksBody_eq_ok.2 ⟨d, k, hd, hk, rfl⟩⟩

theorem exists_feedbackBody {s : State} (h : ∀ k, k < 32 → Memory.get? s.mem (doutBase + k) ≠ none) :
    ∃ t, feedbackBody s = .ok t := by
  obtain ⟨ct, hct⟩ := exists_readBuffer h
  exact ⟨_, feedbackBody_eq_ok.2 ⟨ct, hct, rfl⟩⟩

/-- KSGEN leaves KS defined. -/
theorem readBuffer_of_ksgenBody {s t : State} (h : ksgenBody s = .ok t) :
    t.readBuffer ksBase 32 = .ok (Config.xof s.ksMessage 32) := by
  obtain ⟨-, rfl⟩ := ksgenBody_eq_ok.1 h
  exact State.readBuffer_writeBuffer { s with hashRequests := ⟨s.ksMessage, 32⟩ :: s.hashRequests } ksBase _

/-- XORKS leaves DOUT defined. -/
theorem readBuffer_of_xorksBody {s t : State} (h : xorksBody s = .ok t) : ∃ v, t.readBuffer doutBase 32 = .ok v := by
  obtain ⟨din, ks, -, -, rfl⟩ := xorksBody_eq_ok.1 h
  exact ⟨_, State.readBuffer_writeBuffer s doutBase _⟩

/-- BLOCK reads KM, the tables and DIN from before it; KS and DOUT it has written itself by the time it reads them (R236). -/
theorem exists_blockBody {s : State} (km : ∀ k, k < 448 → Memory.get? s.mem (kmBase + k) ≠ none)
    (rounds : ∀ r, r < 24 → s.roundValid r = true → RoundInputsDefined s r)
    (din : ∀ k, k < 32 → Memory.get? s.mem (dinBase + k) ≠ none) (hash : s.hashAnswers = true) :
    ∃ t, blockBody s = .ok t := by
  obtain ⟨s1, h1⟩ := exists_loadkmBody km
  have e1 := loadkmBody_effect h1
  obtain ⟨s2, h2⟩ : ∃ s2, mixBody s1 = .ok s2 := exists_roundsFrom fun r hr => e1.roundInputsDefined (rounds r (by omega))
  have e2 := e1.trans (effect_of_cipher_frame (mixBody_frame h2))
  have answers : s2.hashAnswers = true := by rw [e2.frame]; exact hash
  obtain ⟨s3, h3⟩ : ∃ s3, ksgenBody s2 = .ok s3 := ⟨_, ksgenBody_eq_ok.2 ⟨answers, rfl⟩⟩
  have e3 := e2.trans (ksgenBody_effect h3)
  obtain ⟨s4, h4⟩ : ∃ s4, xorksBody s3 = .ok s4 := exists_xorksBody
    (fun k hk => by rw [e3.bytes _ (.inl (by simp only [dinBase, doutBase]; omega))]; exact din k hk)
    (fun k hk => ne_none_of_readBuffer (readBuffer_of_ksgenBody h3) hk)
  obtain ⟨t, h5⟩ : ∃ t, feedbackBody s4 = .ok t := exists_feedbackBody fun k hk =>
    ne_none_of_readBuffer (readBuffer_of_xorksBody h4).choose_spec hk
  exact ⟨t, blockBody_eq_ok.2 ⟨s1, s2, s3, s4, h1, h2, h3, h4, h5⟩⟩

/-! ## What R312 asks for -/

/-- A byte of RAM in the requirement of a command that is ready is defined. -/
theorem ne_none_of_ready {s : State} {i : Instr} {a : Nat} (h : s.ready i = true) (ha : a ∈ required i s) (hr : ramByte a = true) :
    Memory.get? s.mem a ≠ none := by
  have hd := List.all_eq_true.1 h a ha
  unfold State.isDefined at hd
  split at hd
  · next hreg => simp [ramByte, hreg] at hr
  · simpa [hr, Option.isSome_iff_ne_none] using hd

theorem mem_addresses {a n x : Nat} : x ∈ addresses a n ↔ ∃ k < n, a + k = x := by
  simp [addresses]

/-- A buffer of RAM in the requirement is defined. -/
theorem buffer_of_ready {s : State} {i : Instr} {a n : Nat} (h : s.ready i = true) (ha : ∀ x ∈ addresses a n, x ∈ required i s)
    (hr : ∀ k, k < n → ramByte (a + k) = true) {k : Nat} (hk : k < n) : Memory.get? s.mem (a + k) ≠ none :=
  ne_none_of_ready h (ha _ (mem_addresses.2 ⟨k, hk, rfl⟩)) (hr k hk)

/-- So is a 32-byte block among DIN, DOUT and KS. -/
theorem block_of_ready {s : State} {i : Instr} {a : Nat} (h : s.ready i = true) (hr : 0x40 ≤ a ∧ a + 32 ≤ 0xA0)
    (ha : ∀ x ∈ addresses a 32, x ∈ required i s) (k : Nat) (hk : k < 32) : Memory.get? s.mem (a + k) ≠ none :=
  buffer_of_ready h ha (fun k hk => ramByte_iff.2 (by omega)) hk

/-- So is KM. -/
theorem km_of_ready {s : State} {i : Instr} (h : s.ready i = true) (ha : ∀ x ∈ addresses kmBase 448, x ∈ required i s) (k : Nat)
    (hk : k < 448) : Memory.get? s.mem (kmBase + k) ≠ none :=
  buffer_of_ready h ha (fun k hk => ramByte_iff.2 (by simp only [kmBase]; omega)) hk

/-- The tables of a valid round and the selector list in the requirement are the round's inputs. -/
theorem roundInputsDefined_of_ready {s : State} {i : Instr} {r : Nat} (h : s.ready i = true)
    (hsel : s.selCount.toNat ≤ Config.maxSel) (hr : r < 24)
    (ha : ∀ x, x ∈ roundAddresses s r ∨ x ∈ selectorAddresses s → x ∈ required i s) (hv : s.roundValid r = true) :
    RoundInputsDefined s r := by
  simp only [roundAddresses, if_pos hv, selectorAddresses, List.mem_append] at ha
  have sbox := fun {k} => buffer_of_ready h (fun x hx => ha x (.inl (.inl hx))) (k := k) fun k hk =>
    ramByte_iff.2 (by simp only [sboxAddr, sboxBase]; omega)
  have key := fun {k} => buffer_of_ready h (fun x hx => ha x (.inl (.inr hx))) (k := k) fun k hk =>
    ramByte_iff.2 (by simp only [rkAddr, rkBase]; omega)
  have sel := fun {k} => buffer_of_ready h (fun x hx => ha x (.inr (.inl hx))) (k := k) fun k hk =>
    ramByte_iff.2 (by simp only [selAddr, selBase]; omega)
  have kc := fun {k} => buffer_of_ready h (fun x hx => ha x (.inr (.inr hx))) (k := k) fun k hk =>
    ramByte_iff.2 (by simp only [kcAddr, kcBase]; omega)
  refine ⟨fun p hp => ⟨sel (k := 2 * p) (by omega), sel (k := 2 * p + 1) (by omega), fun hkc => ?_, fun j => key⟩,
    fun k => sbox k.isLt⟩
  simpa only [kcAddr, Nat.add_zero] using kc (k := p) (by omega)

/-- So are the tables of all rounds, for MIX24 and BLOCK. -/
theorem roundsDefined_of_ready {s : State} {i : Instr} (h : s.ready i = true) (hsel : s.selCount.toNat ≤ Config.maxSel)
    (ha : ∀ x, x ∈ ((List.range 24).map (roundAddresses s)).flatten ∨ x ∈ selectorAddresses s → x ∈ required i s) (r : Nat)
    (hr : r < 24) : s.roundValid r = true → RoundInputsDefined s r :=
  roundInputsDefined_of_ready h hsel hr fun x hx => ha x <| hx.imp_left fun hx =>
    List.mem_flatten.2 ⟨_, List.mem_map_of_mem (List.mem_range.2 hr), hx⟩

/-! ## Checks 3 to 6 -/

/-- The checks of R281 on a decoded command pass: every register field names a register, a round field a round, and the table checks
pass where they are made. -/
theorem commandCheck_eq_none_iff {i : Instr} {s : State} : commandCheck i s = none ↔
    (∀ r ∈ registerFields i, r ≠ 7#3) ∧ namesNoRound i = false ∧ (usesTables i = true → s.tableCheck = none) := by
  rw [← commandCheck_block_eq_none]
  have registers : (registerFields i).any (· == 7#3) = false ↔ ∀ r ∈ registerFields i, r ≠ 7#3 := by simp
  rw [← registers]
  cases hreg : (registerFields i).any (· == 7#3) with
  | true => simp [commandCheck, hreg]
  | false =>
    cases hrnd : namesNoRound i with
    | true => simp [commandCheck, hreg, hrnd]
    | false =>
      cases htab : usesTables i with
      | false => simp [commandCheck, hreg, hrnd, htab]
      | true =>
        have asBlock : commandCheck i s = commandCheck .block s := by
          simp only [commandCheck, hreg, hrnd, htab]
          rfl
        simp [asBlock]

/-! ## Completion -/

/-- The result is a next state that an effect leads to. -/
def Completes (s : State) (r : Result) : Prop := ∃ t, r = .next t ∧ Effect s t

theorem completes_next {s t : State} (e : Effect s t) : Completes s (.next t) := ⟨t, rfl, e⟩

theorem completes_answer {s : State} {x : Except Fault State} (h : ∃ t, x = .ok t) (e : ∀ t, x = .ok t → Effect s t) :
    Completes s (answer x) := by
  obtain ⟨t, rfl⟩ := h
  exact completes_next (e t rfl)

theorem completes_withReg {s : State} {r : BitVec 3} {k : Fin 7 → Result} (hr : r ≠ 7#3) (h : ∀ i, Completes s (k i)) :
    Completes s (withReg r s k) := by
  rcases withReg_cases r s k with ⟨i, -, e⟩ | ⟨h7, -⟩
  · rw [e]
    exact h i
  · exact absurd h7 hr

theorem completes_withTables {s : State} {k : Result} (ht : s.tableCheck = none) (h : Completes s k) :
    Completes s (withTables s k) := by
  rwa [withTables_of_none ht]

/-- A command whose checks pass, whose requirement is defined and whose request is answered has an effect. -/
theorem exec_completes {i : Instr} {s : State} (hc : commandCheck i s = none) (hd : s.ready i = true)
    (hh : s.hashAnswers = true) : Completes s (exec i s) := by
  obtain ⟨hreg, hrnd, htab⟩ := commandCheck_eq_none_iff.1 hc
  have sels (ht : usesTables i = true) := (tableCheck_eq_none.1 (htab ht)).1
  cases i with
  | nop => exact completes_next (Effect.refl s)
  | gfmul => exact completes_next (.of_mem_eq rfl id (.inl rfl) rfl)
  | gfmulb | rotl =>
    exact completes_withReg (hreg _ (by simp [registerFields])) fun d =>
      completes_withReg (hreg _ (by simp [registerFields])) fun a => completes_next (effect_setReg s d _)
  | xor =>
    exact completes_withReg (hreg _ (by simp [registerFields])) fun d =>
      completes_withReg (hreg _ (by simp [registerFields])) fun a =>
        completes_withReg (hreg _ (by simp [registerFields])) fun b => completes_next (effect_setReg s d _)
  | xinj | getq | putq =>
    exact completes_withReg (hreg _ (by simp [registerFields])) fun d => completes_next (.of_mem_eq rfl id (.inl rfl) rfl)
  | loadkm => exact completes_answer (exists_loadkmBody (km_of_ready hd fun x hx => hx)) fun t => loadkmBody_effect
  | round rnd =>
    have hr : rnd.toNat < 24 := by simpa [namesNoRound] using hrnd
    have defined := roundInputsDefined_of_ready hd (sels rfl) hr fun x hx => by
      simp only [required, List.mem_append]
      tauto
    rw [exec, execRound, withRound_of_lt hr]
    exact completes_withTables (htab rfl) <| completes_answer (exists_roundOrSkip defined) fun t h =>
      effect_of_cipher_frame (roundOrSkip_frame h)
  | mix24 =>
    have defined := roundsDefined_of_ready hd (sels rfl) fun x hx => by
      simp only [required, List.mem_append]
      tauto
    exact completes_withTables (htab rfl) <| completes_answer (exists_roundsFrom fun r hr => defined r (by omega)) fun t h =>
      effect_of_cipher_frame (mixBody_frame h)
  | ksgen => exact completes_answer ⟨_, ksgenBody_eq_ok.2 ⟨hh, rfl⟩⟩ fun t => ksgenBody_effect
  | xorks =>
    have din := block_of_ready (a := dinBase) hd (by decide) fun x hx => List.mem_append_left _ hx
    have ks := block_of_ready (a := ksBase) hd (by decide) fun x hx => List.mem_append_right _ hx
    exact completes_answer (exists_xorksBody din ks) fun t => xorksBody_effect
  | feedback =>
    have dout := block_of_ready (a := doutBase) hd (by decide) fun x hx => List.mem_append_left _ hx
    exact completes_answer (exists_feedbackBody dout) fun t => feedbackBody_effect
  | block =>
    have km := km_of_ready hd fun x hx => by simp only [required, List.mem_append, hx, true_or]
    have defined := roundsDefined_of_ready hd (sels rfl) fun x hx => by
      simp only [required, List.mem_append]
      tauto
    have din := block_of_ready (a := dinBase) hd (by decide) fun x hx => List.mem_append_right _ hx
    exact completes_withTables (htab rfl) <| completes_answer (exists_blockBody km defined din hh) fun t => blockBody_effect

end Sys2Proof.Machine

namespace Sys2Proof.Proofs
open Sys2Proof.Machine Sys2Proof.Claim

/-- Settles O38: such a command has an effect, and no effect touches ERR or ERRCODE. -/
theorem checkedCommandsComplete : Obligations.CheckedCommandsComplete := by
  intro i s hc hd hh
  obtain ⟨t, ht, e⟩ := exec_completes hc hd hh
  refine ⟨t, ht, ?_, ?_⟩ <;> rw [e.frame]

end Sys2Proof.Proofs
end

section
/-! PROOFS. GF(2^8): doubling and the loop of R140 are linear, the bytes come from 1 by doubling and XOR, and from these the field
laws of R141; GFMUL changes GFR alone (R140, R142). -/

namespace Sys2Proof.Machine
open Sys2Proof.Claim

/-! ## The product is linear in both operands -/

/-- A doubling without its case split: bit 7 selects the reduction. -/
theorem gfDouble_eq_xor (a : Byte) : gfDouble a = a <<< 1 ^^^ if a.getLsbD 7 then 0x1B#8 else 0#8 := by
  unfold gfDouble
  split <;> simp [shl8]

/-- A byte chosen by a sum of two bits is the sum of the choices. -/
theorem ite_xor_eq_xor_ite (a : Byte) (x y : Bool) :
    (if x ^^ y then a else 0#8) = (if x then a else 0#8) ^^^ if y then a else 0#8 := by
  cases x <;> cases y <;> simp

theorem gfDouble_xor (a b : Byte) : gfDouble (a ^^^ b) = gfDouble a ^^^ gfDouble b := by
  simp only [gfDouble_eq_xor, BitVec.getLsbD_xor, BitVec.shiftLeft_xor_distrib, ite_xor_eq_xor_ite]
  ac_rfl

/-- The product so far is added to what the remaining iterations give. -/
theorem gfMulLoop_eq_xor (n : Nat) (p a b : Byte) : gfMulLoop n p a b = p ^^^ gfMulLoop n 0#8 a b := by
  induction n generalizing p a b with
  | zero => simp [gfMulLoop]
  | succ n ih =>
    simp only [gfMulLoop]
    split
    · rw [ih, ih (0#8 ^^^ a), BitVec.zero_xor, BitVec.xor_assoc]
    · rw [ih]

/-- One iteration: a where the low bit of b is set, and the rest on 2a and b / 2. -/
theorem gfMulLoop_succ (n : Nat) (a b : Byte) :
    gfMulLoop (n + 1) 0#8 a b = (if b.getLsbD 0 then a else 0#8) ^^^ gfMulLoop n 0#8 (gfDouble a) (b >>> 1) := by
  rw [gfMulLoop, gfMulLoop_eq_xor, BitVec.zero_xor]
  rfl

theorem gfMulLoop_xor_left (n : Nat) (a a' b : Byte) :
    gfMulLoop n 0#8 (a ^^^ a') b = gfMulLoop n 0#8 a b ^^^ gfMulLoop n 0#8 a' b := by
  induction n generalizing a a' b with
  | zero => simp [gfMulLoop]
  | succ n ih =>
    simp only [gfMulLoop_succ, gfDouble_xor, ih]
    cases b.getLsbD 0
    · simp
    · simp only [if_true]
      ac_rfl

theorem gfMulLoop_xor_right (n : Nat) (a b b' : Byte) :
    gfMulLoop n 0#8 a (b ^^^ b') = gfMulLoop n 0#8 a b ^^^ gfMulLoop n 0#8 a b' := by
  induction n generalizing a b b' with
  | zero => simp [gfMulLoop]
  | succ n ih =>
    simp only [gfMulLoop_succ, BitVec.getLsbD_xor, BitVec.ushiftRight_xor_distrib, ite_xor_eq_xor_ite, ih]
    ac_rfl

/-- R141: the product distributes over XOR in its left operand. -/
theorem gfMul_xor_left (a a' b : Byte) : gfMul (a ^^^ a') b = gfMul a b ^^^ gfMul a' b := gfMulLoop_xor_left 8 a a' b

/-- R141: the product distributes over XOR in its right operand. -/
theorem gfMul_xor_right (a b b' : Byte) : gfMul a (b ^^^ b') = gfMul a b ^^^ gfMul a b' := gfMulLoop_xor_right 8 a b b'

theorem gfMul_zero (a : Byte) : gfMul a 0#8 = 0#8 := by
  simpa using gfMul_xor_right a 0#8 0#8

/-! ## Every byte is a polynomial in x -/

/-- Horner's step: a byte is x times its upper seven bits, plus its low bit. -/
theorem eq_gfDouble_shiftRight (b : Byte) : b = gfDouble (b >>> 1) ^^^ if b.getLsbD 0 then 1#8 else 0#8 := by
  revert b
  decide

/-- What holds of 1 and is kept by doubling and by XOR holds of every byte. -/
theorem byte_induction {P : Byte → Prop} (one : P 1#8) (double : ∀ b, P b → P (gfDouble b))
    (add : ∀ b c, P b → P c → P (b ^^^ c)) (b : Byte) : P b := by
  have zero : P 0#8 := add 1#8 1#8 one one
  induction hn : b.toNat using Nat.strong_induction_on generalizing b with
  | _ n ih =>
    by_cases hb : n = 0
    · rwa [BitVec.eq_of_toNat_eq (hn.trans hb : b.toNat = (0#8).toNat)]
    · have half : P (b >>> 1) := ih _ (by rw [BitVec.toNat_ushiftRight, Nat.shiftRight_eq_div_pow]; omega) _ rfl
      rw [eq_gfDouble_shiftRight b]
      refine add _ _ (double _ half) ?_
      split
      · exact one
      · exact zero

/-! ## The field laws (R141) -/

theorem gfMul_one (a : Byte) : gfMul a 1#8 = a := by
  revert a
  decide

theorem one_gfMul (b : Byte) : gfMul 1#8 b = b := by
  revert b
  decide

theorem gfMulLoop_gfDouble_left (n : Nat) (a b : Byte) : gfMulLoop n 0#8 (gfDouble a) b = gfDouble (gfMulLoop n 0#8 a b) := by
  induction n generalizing a b with
  | zero => simp [gfMulLoop, gfDouble, shl8]
  | succ n ih =>
    simp only [gfMulLoop_succ, gfDouble_xor, ih]
    split <;> rfl

theorem gfMul_gfDouble_left (a b : Byte) : gfMul (gfDouble a) b = gfDouble (gfMul a b) := gfMulLoop_gfDouble_left 8 a b

theorem gfMul_gfDouble_right (a b : Byte) : gfMul a (gfDouble b) = gfDouble (gfMul a b) := by
  induction a using byte_induction with
  | one => rw [one_gfMul, one_gfMul]
  | double a ih => rw [gfMul_gfDouble_left, gfMul_gfDouble_left, ih]
  | add a a' ih ih' => rw [gfMul_xor_left, gfMul_xor_left, gfDouble_xor, ih, ih']

theorem gfMul_comm (a b : Byte) : gfMul a b = gfMul b a := by
  induction b using byte_induction with
  | one => rw [gfMul_one, one_gfMul]
  | double b ih => rw [gfMul_gfDouble_left, gfMul_gfDouble_right, ih]
  | add b b' ih ih' => rw [gfMul_xor_left, gfMul_xor_right, ih, ih']

theorem gfMul_assoc (a b c : Byte) : gfMul (gfMul a b) c = gfMul a (gfMul b c) := by
  induction c using byte_induction with
  | one => rw [gfMul_one, gfMul_one]
  | double c ih => rw [gfMul_gfDouble_right, gfMul_gfDouble_right, gfMul_gfDouble_right, ih]
  | add c c' ih ih' => rw [gfMul_xor_right, gfMul_xor_right, gfMul_xor_right, ih, ih']

/-! ## The frame of GFR -/

/-- GFR stands in control word 14 alone (R37, R51). -/
theorem controlWord_gfr (s : State) (v : Byte) {k : Nat} (hk : k ≠ 14) :
    ({ s with gfr := v } : State).controlWord k = s.controlWord k := by
  unfold State.controlWord
  split
  case h_14 => contradiction
  all_goals rfl

/-- A zero-extended byte has only zeros above its byte 0. -/
theorem byteOf_setWidth_byte (v : Byte) {j : Nat} (hj : j ≠ 0) : byteOf (v.setWidth 32) j = 0#8 := by
  apply BitVec.eq_of_getLsbD_eq
  intro i hi
  rw [getLsbD_byteOf, BitVec.getLsbD_setWidth, BitVec.getLsbD_of_ge v _ (by omega)]
  simp

/-- Of the window, a change of GFR shows at 0x0038 alone. -/
theorem sameBytes_gfr (s : State) (v : Byte) : SameBytes (fun x => x ≠ 0x0038) s { s with gfr := v } := by
  intro x hx
  refine busByte_congr rfl (fun _ => rfl) (fun _ => rfl) fun _ => ?_
  by_cases hk : x / 4 = 14
  · rw [hk]
    exact (byteOf_setWidth_byte v (by omega)).trans (byteOf_setWidth_byte s.gfr (by omega)).symm
  · rw [controlWord_gfr s v hk]

end Sys2Proof.Machine

namespace Sys2Proof.Proofs
open Sys2Proof.Machine Sys2Proof.Claim

/-- Settles O9: the loop of R140 is the field product, and GFR is the one field that GFMUL writes. -/
theorem gfmulWritesTheProduct : Obligations.GfmulWritesTheProduct := by
  intro a b s
  have run : exec (.gfmul a b) s = .next { s with gfr := fieldProduct a b } := by
    rw [← gfMul_eq_fieldProduct]
    rfl
  exact ⟨_, run, rfl, sameBytes_gfr s _⟩

/-- Settles O10: the product is linear in both operands and commutes with doubling, and 1 generates the bytes. -/
theorem gfMulFieldLaws : Obligations.GfMulFieldLaws := fun a b c =>
  ⟨gfMul_zero a, one_gfMul b, gfMul_comm a b, gfMul_one a, (gfMul_comm 0#8 b).trans (gfMul_zero b), gfMul_assoc a b c,
    gfMul_xor_right a b c, gfMul_xor_left a b c⟩

end Sys2Proof.Proofs
end

section
/-! PROOFS. The register ALU but for the rotation: the frame of a register write, and GFMULB, XOR, XINJ, GETQ and PUTQ byte by byte
(41_register_alu.md). -/

namespace Sys2Proof.Machine
open Sys2Proof.Claim

/-! ## The frame of a register write -/

/-- Of the window, a change of register d alone shows in its 64 bytes alone (R74). -/
theorem onlyRegister_of_frame {s t : State} {d : Fin 7} (frame : t = { s with regs := t.regs, regMarks := t.regMarks })
    (other : ∀ i, i ≠ d → t.regs[i] = s.regs[i] ∧ t.regMarks[i] = s.regMarks[i]) : OnlyRegister d s t := by
  refine ⟨frame, other, fun x hx => ?_⟩
  have others : t.mem = s.mem ∧ t.acc = s.acc ∧ ∀ k, t.controlWord k = s.controlWord k := by
    rw [frame]
    exact ⟨rfl, rfl, fun _ => rfl⟩
  obtain ⟨mem, acc, control⟩ := others
  refine busByte_congr (by rw [mem]) (fun hr => ?_) (fun _ => acc) (fun _ => by rw [control])
  obtain ⟨i, j, hx', hp⟩ := exists_regPos hr
  have hi : i ≠ d := by
    rintro rfl
    unfold Outside at hx
    omega
  exact congrArg (fun r : Reg512 => r[(regPos x).2]) (other (regPos x).1 (by rwa [hp])).1

theorem getElem_set_of_ne {α : Type} (m : Vector α 7) {d i : Fin 7} (h : i ≠ d) (x : α) : (m.set d x)[i] = m[i] :=
  Vector.getElem_set_ne d.isLt i.isLt fun e => h (Fin.ext e.symm)

/-- A command that answers a write of register d: what R[d] holds then, its marks, and the frame. -/
theorem exists_next_setReg {r : Result} {s : State} {d : Fin 7} {v : Reg512} (run : r = .next (s.setReg d v)) :
    ∃ t, r = .next t ∧ t.regs[d] = v ∧ t.regMarks[d] = Vector.replicate 64 true ∧ OnlyRegister d s t :=
  ⟨_, run, Vector.getElem_set_self _, Vector.getElem_set_self _,
    onlyRegister_of_frame rfl fun _ hi => ⟨getElem_set_of_ne _ hi _, getElem_set_of_ne _ hi _⟩⟩

theorem onlyRegister_setRegByte (s : State) (d : Fin 7) (j : Fin 64) (b : Byte) : OnlyRegister d s (s.setRegByte d j b) :=
  onlyRegister_of_frame rfl fun _ hi => ⟨getElem_set_of_ne _ hi _, getElem_set_of_ne _ hi _⟩

/-! ## The commands on registers -/

theorem exec_gfmulb {rd rs1 : BitVec 3} {d a : Fin 7} (hd : rd.toNat = d.val) (ha : rs1.toNat = a.val) (c : Byte) (s : State) :
    exec (.gfmulb rd rs1 c) s = .next (s.setReg d (gfMulRegister (s.reg a) c)) :=
  (withReg_of_eq hd s _).trans (withReg_of_eq ha s _)

theorem exec_xor {rd rs1 rs2 : BitVec 3} {d a b : Fin 7} (hd : rd.toNat = d.val) (ha : rs1.toNat = a.val)
    (hb : rs2.toNat = b.val) (s : State) : exec (.xor rd rs1 rs2) s = .next (s.setReg d (xor512 (s.reg a) (s.reg b))) :=
  (withReg_of_eq hd s _).trans <| (withReg_of_eq ha s _).trans (withReg_of_eq hb s _)

theorem exec_rotl {rd rs1 : BitVec 3} {d a : Fin 7} (hd : rd.toNat = d.val) (ha : rs1.toNat = a.val) (n : BitVec 9) (s : State) :
    exec (.rotl rd rs1 n) s = .next (s.setReg d (rotateLeft512 (s.reg a) n.toNat)) :=
  (withReg_of_eq hd s _).trans (withReg_of_eq ha s _)

theorem exec_xinj {rd : BitVec 3} {d : Fin 7} (hd : rd.toNat = d.val) (j : BitVec 6) (v : Byte) (s : State) :
    exec (.xinj rd j v) s = .next (s.setRegByte d j.toFin ((s.reg d)[j.toFin] ^^^ v)) :=
  withReg_of_eq hd s _

theorem exec_getq {rs1 : BitVec 3} {a : Fin 7} (ha : rs1.toNat = a.val) (s : State) :
    exec (.getq rs1) s = .next { s with q := bytesToU64 (s.reg a) } := withReg_of_eq ha s _

theorem exec_putq {rd : BitVec 3} {d : Fin 7} (hd : rd.toNat = d.val) (s : State) :
    exec (.putq rd) s = .next (s.setReg d (u64ToBytes (s.reg d) s.q)) := withReg_of_eq hd s _

/-! ## The bytes of a result -/

theorem getElem_gfMulRegister (v : Reg512) (c : Byte) (j : Fin 64) : (gfMulRegister v c)[j] = gfMul v[j] c := by
  simp [gfMulRegister]

theorem getElem_xor512 (v w : Reg512) (j : Fin 64) : (xor512 v w)[j] = v[j] ^^^ w[j] := by
  simp [xor512]

/-! ## Bytes 0..7 of a register and Q -/

theorem toNat_bytesToU64 (v : Reg512) : (bytesToU64 v).toNat = littleEndian v 8 := by
  have bound : fromLE (v.toList.take 8) < 2 ^ 64 := by
    have := fromLE_lt (v.toList.take 8)
    rwa [List.length_take_of_le (by simp)] at this
  rw [bytesToU64, BitVec.toNat_ofNat, Nat.mod_eq_of_lt bound, fromLE_take_eq_littleEndian v (by decide)]

theorem getElem_u64ToBytes (v : Reg512) (q : BitVec 64) (j : Fin 64) :
    (u64ToBytes v q)[j] = if j.val < 8 then byteOf q j.val else v[j] := by
  simp [u64ToBytes]

theorem littleEndian_u64ToBytes (v : Reg512) (q : BitVec 64) : littleEndian (u64ToBytes v q) 8 = q.toNat := by
  calc littleEndian (u64ToBytes v q) 8
      = ∑ k ∈ Finset.range 8, (byteOf q k).toNat * 2 ^ (8 * k) := Finset.sum_congr rfl fun k hk => by
        have hk : k < 8 := Finset.mem_range.1 hk
        have hv : (Fin.ofNat 64 k).val = k := Nat.mod_eq_of_lt (by omega)
        rw [getElem_u64ToBytes, if_pos (hv.trans_lt hk), hv]
    _ = fromLE (bytesLE 8 q) := (fromLE_map_range 8 _).symm
    _ = q.toNat := by rw [fromLE_bytesLE, Nat.mod_eq_of_lt q.isLt]

/-! ## The frame of Q -/

/-- Q stands in control words 10 and 11 (R36, R51). -/
theorem controlWord_q (s : State) (v : BitVec 64) {k : Nat} (h10 : k ≠ 10) (h11 : k ≠ 11) :
    ({ s with q := v } : State).controlWord k = s.controlWord k := by
  unfold State.controlWord
  split
  case h_10 => contradiction
  case h_11 => contradiction
  all_goals rfl

/-- Of the window, a change of Q shows in its eight bytes alone. -/
theorem sameBytes_q (s : State) (v : BitVec 64) : SameBytes (Outside 0x0028 8) s { s with q := v } := by
  intro x hx
  unfold Outside at hx
  refine busByte_congr rfl (fun _ => rfl) (fun _ => rfl) fun _ => ?_
  rw [controlWord_q s v (by omega) (by omega)]

end Sys2Proof.Machine

namespace Sys2Proof.Proofs
open Sys2Proof.Machine Sys2Proof.Claim

/-- Settles O11: the product is taken of the old bytes of the source, so aliasing of d and a is harmless. -/
theorem gfmulbScalesEveryByte : Obligations.GfmulbScalesEveryByte := by
  intro rd rs1 c s d a hd ha
  obtain ⟨t, run, value, marks, frame⟩ := exists_next_setReg (exec_gfmulb hd ha c s)
  refine ⟨t, run, fun j => ?_, marks, frame⟩
  rw [value, getElem_gfMulRegister, State.reg]

/-- Settles O12: both sources are read before R[d] is written. -/
theorem xorCombinesBytes : Obligations.XorCombinesBytes := by
  intro rd rs1 rs2 s d a b hd ha hb
  obtain ⟨t, run, value, marks, frame⟩ := exists_next_setReg (exec_xor hd ha hb s)
  refine ⟨t, run, fun j => ?_, marks, frame⟩
  rw [value, getElem_xor512, State.reg, State.reg]

/-- Settles O16: one entry of the register and of its marks is replaced. -/
theorem xinjChangesOneByte : Obligations.XinjChangesOneByte := by
  intro rd j v s d hd
  refine ⟨_, exec_xinj hd j v s, ?_, fun k hk => ?_, ?_, onlyRegister_setRegByte s d _ _, fun x hx => ?_⟩
  · rw [State.setRegByte_regs, getElem_set_set, if_pos rfl]
    rfl
  · have other : (d, k) ≠ (d, j.toFin) := fun e => hk (Prod.mk.inj e).2
    rw [State.setRegByte_regs, State.setRegByte_regMarks, getElem_set_set, getElem_set_set, if_neg other, if_neg other]
    exact ⟨rfl, rfl⟩
  · rw [State.setRegByte_regMarks, getElem_set_set, if_pos rfl]
  · exact (stored_setRegByte s d j.toFin _).sameBytes x (Nat.lt_or_gt_of_ne hx)

/-- Settles O17: eight bytes make a number below 2^64, which Q takes whole. -/
theorem getqExtractsLittleEndian : Obligations.GetqExtractsLittleEndian := by
  intro rs1 s a ha
  exact ⟨_, exec_getq ha s, toNat_bytesToU64 (s.reg a), rfl, sameBytes_q s _⟩

/-- Settles O18: the little-endian bytes of Q make Q again. -/
theorem putqInsertsLittleEndian : Obligations.PutqInsertsLittleEndian := by
  intro rd s d hd
  obtain ⟨t, run, value, marks, frame⟩ := exists_next_setReg (exec_putq hd s)
  refine ⟨t, run, ?_, fun j hj => ?_, marks, frame⟩
  · rw [value, littleEndian_u64ToBytes]
  · rw [value, getElem_u64ToBytes, if_neg (by omega), State.reg]

end Sys2Proof.Proofs
end

section
/-! PROOFS. The rotation (R154..R156): the per-byte formula moves every bit of the register by n places, counted from the most
significant one, and the number `big` has the same bits. -/

namespace Sys2Proof.Machine
open Sys2Proof.Claim

/-! ## The bytes and bits of a register -/

/-- Byte k of a register, counted modulo 64. -/
def byteAt (v : Reg512) (k : Nat) : Byte := v[Fin.ofNat 64 k]

theorem byteAt_of_lt (v : Reg512) {k : Nat} (h : k < 64) : byteAt v k = v[k] := by
  simp [byteAt, Nat.mod_eq_of_lt h]

theorem byteAt_congr (v : Reg512) {j k : Nat} (h : j % 64 = k % 64) : byteAt v j = byteAt v k := by
  simp [byteAt, h]

/-- Bit p of a register, counted modulo 512 from the most significant bit of byte 0 (R10). -/
def regBit (v : Reg512) (p : Nat) : Bool := (byteAt v (p / 8)).getMsbD (p % 8)

theorem regBit_congr (v : Reg512) {p q : Nat} (h : p % 512 = q % 512) : regBit v p = regBit v q := by
  rw [regBit, regBit, byteAt_congr v (show p / 8 % 64 = q / 8 % 64 by omega), show p % 8 = q % 8 by omega]

theorem eq_of_regBit_eq {v w : Reg512} (h : ∀ p, regBit v p = regBit w p) : v = w := by
  refine Vector.ext fun i hi => BitVec.eq_of_getMsbD_eq fun k hk => ?_
  have hp := h (8 * i + k)
  rwa [regBit, regBit, show (8 * i + k) % 8 = k by omega, show (8 * i + k) / 8 = i by omega, byteAt_of_lt v hi,
    byteAt_of_lt w hi] at hp

/-- The formula of R154 for one byte. -/
theorem getElem_rotateLeft512 (v : Reg512) (n : Nat) (i : Fin 64) :
    (rotateLeft512 v n)[i] = (byteAt v (i.val + n / 8) <<< (n % 8))
      ||| (if n % 8 = 0 then 0#8 else byteAt v (i.val + n / 8 + 1) >>> (8 - n % 8)) := by
  simp [rotateLeft512, shl8, shr8, byteAt]

theorem byteAt_rotateLeft512 (v : Reg512) (n k : Nat) :
    byteAt (rotateLeft512 v n) k = (byteAt v (k + n / 8) <<< (n % 8))
      ||| (if n % 8 = 0 then 0#8 else byteAt v (k + n / 8 + 1) >>> (8 - n % 8)) := by
  have wrap : ∀ m, byteAt v (k % 64 + m) = byteAt v (k + m) := fun m => byteAt_congr v (Nat.mod_add_mod k 64 m)
  rw [byteAt, getElem_rotateLeft512, Fin.val_ofNat, Nat.add_assoc, Nat.add_assoc, wrap, wrap]

/-- Rotation by n moves bit p + n to place p. -/
theorem regBit_rotateLeft512 (v : Reg512) (n p : Nat) : regBit (rotateLeft512 v n) p = regBit v (p + n) := by
  rw [regBit, regBit, byteAt_rotateLeft512, BitVec.getMsbD_or, BitVec.getMsbD_shiftLeft]
  by_cases h : p % 8 + n % 8 < 8
  · have low : (if n % 8 = 0 then 0#8 else byteAt v (p / 8 + n / 8 + 1) >>> (8 - n % 8)).getMsbD (p % 8) = false := by
      split
      · exact BitVec.getMsbD_zero
      · rw [BitVec.getMsbD_ushiftRight, decide_eq_true (show p % 8 < 8 - n % 8 by omega)]
        simp
    rw [low, Bool.or_false, show (p + n) / 8 = p / 8 + n / 8 by omega, show (p + n) % 8 = p % 8 + n % 8 by omega]
  · rw [BitVec.getMsbD_of_ge _ _ (by omega), Bool.false_or, if_neg (by omega), BitVec.getMsbD_ushiftRight,
      show (p + n) / 8 = p / 8 + n / 8 + 1 by omega, show (p + n) % 8 = p % 8 - (8 - n % 8) by omega]
    simp [Nat.mod_lt p, show ¬ p % 8 < 8 - n % 8 by omega]

/-! ## The laws of the rotation -/

theorem rotateLeft512_congr (v : Reg512) {m n : Nat} (h : m % 512 = n % 512) : rotateLeft512 v m = rotateLeft512 v n :=
  eq_of_regBit_eq fun p => by
    rw [regBit_rotateLeft512, regBit_rotateLeft512]
    exact regBit_congr v (by omega)

theorem rotateLeft512_zero (v : Reg512) : rotateLeft512 v 0 = v := eq_of_regBit_eq (regBit_rotateLeft512 v 0)

theorem rotateLeft512_rotateLeft512 (v : Reg512) (m n : Nat) : rotateLeft512 (rotateLeft512 v m) n = rotateLeft512 v (m + n) :=
  eq_of_regBit_eq fun p => by
    rw [regBit_rotateLeft512, regBit_rotateLeft512, regBit_rotateLeft512, Nat.add_assoc, Nat.add_comm n m]

theorem iterate_rotateLeft512_one (v : Reg512) (k : Nat) : (fun u => rotateLeft512 u 1)^[k] v = rotateLeft512 v k := by
  induction k with
  | zero => exact (rotateLeft512_zero v).symm
  | succ k ih => rw [Function.iterate_succ_apply', ih, rotateLeft512_rotateLeft512]

/-! ## The 512-bit number -/

/-- The bits of a little-endian number are those of its bytes. -/
theorem testBit_fromLE (l : List Byte) (q : Nat) : (fromLE l).testBit q = (l.getD (q / 8) 0#8).getLsbD (q % 8) := by
  induction l generalizing q with
  | nil => simp [fromLE]
  | cons b l ih =>
    rw [fromLE, Nat.add_comm, show (256 : ℕ) = 2 ^ 8 from rfl, Nat.testBit_two_pow_mul_add _ b.isLt]
    by_cases h : q < 8
    · rw [if_pos h, Nat.div_eq_of_lt h, Nat.mod_eq_of_lt h]
      rfl
    · rw [if_neg h, ih, show q / 8 = (q - 8) / 8 + 1 by omega, show q % 8 = (q - 8) % 8 by omega, List.getD_cons_succ]

/-- `big` is the little-endian number of the bytes from byte 63 down to byte 0. -/
theorem big_eq_fromLE (v : Reg512) : big v = fromLE ((List.range 64).map fun k => byteAt v (63 - k)) := by
  rw [fromLE_map_range, ← Finset.sum_range_reflect, Finset.sum_range, big]
  refine Finset.sum_congr rfl fun j _ => ?_
  rw [show 63 - (64 - 1 - j.val) = j.val by omega, byteAt_of_lt v j.isLt]
  rfl

/-- Bit q of the number counts from the other end of the register. -/
theorem testBit_big (v : Reg512) (q : Nat) : (big v).testBit q = (decide (q < 512) && regBit v (511 - q)) := by
  rw [big_eq_fromLE, testBit_fromLE, List.getD_eq_getElem?_getD, List.getElem?_map]
  by_cases h : q < 512
  · rw [List.getElem?_range (show q / 8 < 64 by omega), regBit, show (511 - q) / 8 = 63 - q / 8 by omega, BitVec.getMsbD,
      show 8 - 1 - (511 - q) % 8 = q % 8 by omega]
    simp [h, Nat.mod_lt]
  · rw [List.getElem?_eq_none (by rw [List.length_range]; omega)]
    simp [h]

theorem big_lt (v : Reg512) {w : Nat} (hw : 512 ≤ w) : big v < 2 ^ w :=
  Nat.lt_pow_two_of_testBit _ fun q hq => by rw [testBit_big, decide_eq_false (by omega), Bool.false_and]

/-- The bits of a w-bit number rotated left: the low w - n move up by n, the top n come in below. -/
theorem testBit_rotate {w n x : Nat} (hn : n ≤ w) (hx : x < 2 ^ w) (q : Nat) :
    (x * 2 ^ n % 2 ^ w + x * 2 ^ n / 2 ^ w).testBit q =
      if q < n then x.testBit (q + (w - n)) else decide (q - n < w - n) && x.testBit (q - n) := by
  have split : 2 ^ w = 2 ^ n * 2 ^ (w - n) := by rw [← pow_add, Nat.add_sub_cancel' hn]
  have top : x / 2 ^ (w - n) < 2 ^ n := Nat.div_lt_of_lt_mul (by rwa [Nat.mul_comm, ← split])
  rw [split, Nat.mul_comm x, Nat.mul_mod_mul_left, Nat.mul_div_mul_left _ _ (Nat.two_pow_pos n),
    Nat.testBit_two_pow_mul_add _ top, Nat.testBit_div_two_pow, Nat.testBit_mod_two_pow]

theorem big_rotateLeft512 (v : Reg512) {n : Nat} (hn : n < 512) :
    big (rotateLeft512 v n) = big v * 2 ^ n % 2 ^ 512 + big v * 2 ^ n / 2 ^ 512 := by
  refine Nat.eq_of_testBit_eq fun q => ?_
  rw [testBit_rotate hn.le (big_lt v le_rfl), testBit_big, testBit_big, testBit_big, regBit_rotateLeft512]
  split
  · next h =>
    rw [regBit_congr v (show (511 - q + n) % 512 = (511 - (q + (512 - n))) % 512 by omega)]
    simp [show q < 512 by omega, show q + (512 - n) < 512 by omega]
  · next h =>
    by_cases hq : q < 512
    · rw [show 511 - (q - n) = 511 - q + n by omega]
      simp [hq, show q - n < 512 - n by omega, show q - n < 512 by omega]
    · simp [hq, show ¬ q - n < 512 - n by omega]

end Sys2Proof.Machine

namespace Sys2Proof.Proofs
open Sys2Proof.Machine Sys2Proof.Claim

/-- Settles O14: the formula is the definition's, and the register and the number rotate bit by bit. -/
theorem rotationFormula : Obligations.RotationFormula := by
  intro v n
  refine ⟨getElem_rotateLeft512 v n, ?_⟩
  rw [rotateLeft512_congr v (Nat.mod_mod n 512).symm]
  exact big_rotateLeft512 v (Nat.mod_lt n (by decide))

/-- Settles O15: bit p of a rotation by n is bit p + n, counted modulo 512. -/
theorem rotationPeriodicity : Obligations.RotationPeriodicity := by
  intro v m n
  have whole : rotateLeft512 v 512 = v := (rotateLeft512_congr v (n := 0) rfl).trans (rotateLeft512_zero v)
  exact ⟨whole, rotateLeft512_congr v (Nat.mod_mod n 512).symm, (iterate_rotateLeft512_one v 512).trans whole,
    rotateLeft512_rotateLeft512 v m n⟩

/-- Settles O13: an amount of nine bits is below 512. -/
theorem rotlRotatesLeft : Obligations.RotlRotatesLeft := by
  intro rd rs1 n s d a hd ha
  obtain ⟨t, run, value, marks, frame⟩ := exists_next_setReg (exec_rotl hd ha n s)
  exact ⟨t, run, value ▸ big_rotateLeft512 s.regs[a] n.isLt, marks, frame⟩

end Sys2Proof.Proofs
end

section
/-! PROOFS. One selector step and the diffusion in the statements' words (R181..R185): each operation on a register byte by
byte. -/

namespace Sys2Proof.Machine
open Sys2Proof.Claim

/-! ## The operations of a selector step, byte by byte -/

theorem eq_ofFn_of_bytes {v : Reg512} {f : Fin 64 → Byte} (h : ∀ j : Fin 64, v[j] = f j) : v = Vector.ofFn f :=
  Vector.ext fun i hi => (h ⟨i, hi⟩).trans (Vector.getElem_ofFn hi).symm

theorem shl8_eq_ofNat (b : Byte) (n : Nat) : shl8 b n = BitVec.ofNat 8 (b.toNat * 2 ^ n) := by
  apply BitVec.eq_of_toNat_eq
  rw [shl8, BitVec.toNat_shiftLeft, BitVec.toNat_ofNat, Nat.shiftLeft_eq]

theorem inject_eq_ofFn (v : Reg512) (i : Fin 64) (b : Byte) :
    inject v i b = Vector.ofFn fun j => v[j] ^^^ (if j = i then b else 0#8) :=
  eq_ofFn_of_bytes fun j => by
    have one : (oneByte i b)[j] = if j = i then b else 0#8 := by
      simp only [oneByte, Fin.getElem_fin, Vector.getElem_set, Vector.getElem_replicate, Fin.ext_iff, eq_comm]
    rw [inject, getElem_xor512, one]

/-- A byte moved up by one bit, with the top bit of another below it, as numbers. -/
theorem shiftLeft_one_or_top (x y : Byte) : x <<< 1 ||| y >>> 7 = BitVec.ofNat 8 (2 * x.toNat + y.toNat / 128) := by
  have top : (y >>> 7).toNat = y.toNat / 128 := Nat.shiftRight_eq_div_pow y.toNat 7
  have shift : (x <<< 1).toNat = (x.toNat % 128) <<< 1 := by
    rw [BitVec.toNat_shiftLeft, Nat.shiftLeft_eq, Nat.shiftLeft_eq]
    omega
  have := y.isLt
  apply BitVec.eq_of_toNat_eq
  rw [BitVec.toNat_or, top, shift, ← Nat.shiftLeft_add_eq_or_of_lt (show y.toNat / 128 < 2 ^ 1 by omega), Nat.shiftLeft_eq,
    BitVec.toNat_ofNat]
  omega

/-- Rotation by one bit moves the top bit of the next byte in (R154). -/
theorem rotateLeft512_one_eq_ofFn (v : Reg512) :
    rotateLeft512 v 1 = Vector.ofFn fun j => BitVec.ofNat 8 (2 * v[j].toNat + v[j + 1].toNat / 128) :=
  eq_ofFn_of_bytes fun j => by
    have here : byteAt v j.val = v[j] := byteAt_of_lt v j.isLt
    have next : byteAt v (j.val + 1) = v[j + 1] := rfl
    rw [getElem_rotateLeft512, if_neg (by decide)]
    exact here ▸ next ▸ shiftLeft_one_or_top _ _

/-- Steps 5 and 6: byte 0 takes the shifted result of R183, or nothing. -/
theorem scaleAndInject_eq_ofFn (v : Reg512) (sel : BitVec 16) (result : Byte) :
    scaleAndInject v sel result = Vector.ofFn fun j => fieldProduct v[j] result ^^^
      (if j = 0 then (if sel.toNat % 16 < 8 then BitVec.ofNat 8 (result.toNat * 2 ^ (sel.toNat % 16)) else 0#8) else 0#8) :=
  eq_ofFn_of_bytes fun j => by
    rw [scaleAndInject, ← gfMul_eq_fieldProduct, ← getElem_gfMulRegister]
    by_cases h : sel.toNat % 16 < 8
    · simp only [h, if_true, inject_eq_ofFn, Fin.getElem_fin, Vector.getElem_ofFn, shl8_eq_ofNat]
    · simp only [h, if_false, ite_self, BitVec.xor_zero]

/-- The reference step in the operations of the model. -/
theorem refStep_eq (sbox : Byte → Byte) (rk : BitVec 32) (c : Regs × BitVec 64) (e : BitVec 16 × Option Byte) :
    refStep sbox rk c e =
      let pl := place c.1[0] rk e.1
      let result := sbox (fieldProduct (BitVec.ofNat 8 (2 * e.1.toNat)) (c.1[pl])[0] ^^^ e.2.getD 0#8)
      let v := scaleAndInject c.1[pl] e.1 result
      (c.1.set pl (finishPlace v (sbox v[63]) c.1[pl + 1]), c.2 + result.setWidth 64) := by
  simp only [finishPlace, xor512, rotateLeft512_one_eq_ofFn, inject_eq_ofFn, scaleAndInject_eq_ofFn]
  rfl

/-! ## Diffusion -/

theorem xor512_xor512 (x y z : Reg512) : xor512 (xor512 x y) z = Vector.ofFn fun j => x[j] ^^^ y[j] ^^^ z[j] := by
  simp [xor512]

/-- The second XOR at index i reads a register that the first has not written. -/
theorem getElem_diffuseAt (rs : Regs) (i k : Fin 7) :
    (diffuseAt rs i)[k] = if k = i then xor512 (xor512 rs[i] rs[i + 1]) rs[i + 2] else rs[k] := by
  have ne : i + 2 ≠ i := by
    revert i
    decide
  have once : diffuseAt rs i = rs.set i (xor512 (xor512 rs[i] rs[i + 1]) rs[i + 2]) := by
    simp only [diffuseAt, Vector.set_set, getElem_set_of_ne _ ne, Fin.getElem_fin, Vector.getElem_set_self]
  rw [once]
  split
  · next h => exact h ▸ Vector.getElem_set_self _
  · next h => exact getElem_set_of_ne _ h _

/-- Register by register, the seven steps leave what the closed form of R185 says. -/
theorem diffuse_eq_refDiffuse (rs : Regs) : diffuse rs = refDiffuse rs := by
  have unroll : diffuse rs = [0, 1, 2, 3, 4, 5, 6].foldl diffuseAt rs := rfl
  have register : ∀ k : Fin 7, (diffuse rs)[k] = (refDiffuse rs)[k] := by
    simp only [unroll, List.foldl_cons, List.foldl_nil, getElem_diffuseAt, xor512_xor512, Fin.forall_fin_succ, Fin.reduceSucc,
      Fin.reduceEq, Fin.reduceAdd, reduceIte, IsEmpty.forall_iff, and_true]
    exact ⟨rfl, rfl, rfl, rfl, rfl, rfl, rfl⟩
  exact Vector.ext fun k hk => register ⟨k, hk⟩

end Sys2Proof.Machine
end

section
/-! PROOFS. The round function and the mixer (R180..R190): the reads of a round whose tables RAM holds, the valid rounds as the
reference's and the skipped ones, the window outside R and ACCSUM, and the round key's bytes 4..63. -/

namespace Sys2Proof.Machine
open Sys2Proof.Claim

/-! ## The checks of ROUND -/

theorem withTables_of_some {s : State} {e : ErrorCode} (h : s.tableCheck = some e) (k : Result) :
    withTables s k = .next (s.raiseError e) := by
  simp only [withTables, h]

theorem exec_round_of_lt {rnd : BitVec 5} (hr : rnd.toNat < 24) (s : State) :
    exec (.round rnd) s = withTables s (answer (roundOrSkip s rnd.toNat)) := withRound_of_lt hr s _

theorem roundValid_iff {s : State} {r : Nat} : s.roundValid r = true ↔ ValidRound s r := by
  rw [State.roundValid, ← Bool.decide_and, decide_eq_true_iff, ValidRound]

theorem roundOrSkip_of_valid {s : State} {r : Nat} (hv : s.roundValid r = true) : roundOrSkip s r = roundBody s r := if_pos hv

theorem roundOrSkip_of_not_valid {s : State} {r : Nat} (hv : s.roundValid r = false) : roundOrSkip s r = .ok s.markSkipped := by
  rw [roundOrSkip, hv]
  rfl

/-! ## The window outside R and ACCSUM -/

/-- RSKIP stands in byte 0 of STATUS alone (R51, R55). -/
theorem byteOf_statusWord {s t : State} (err : t.err = s.err) (code : t.errCode = s.errCode) {k : Nat} (hk : k ≠ 0) :
    byteOf t.statusWord k = byteOf s.statusWord k := by
  apply BitVec.eq_of_getLsbD_eq
  intro i hi
  simp only [getLsbD_byteOf, State.statusWord, BitVec.getLsbD_append, code, err, show ¬ 8 * k + i < 1 by omega,
    show ¬ 8 * k + i - 1 < 1 by omega, if_false]

/-- ACCSUM stands in control words 12 and 13, STATUS in word 1 (R51). -/
theorem controlWord_of_cipher_frame {s t : State}
    (frame : t = { s with regs := t.regs, regMarks := t.regMarks, accsum := t.accsum, rskip := t.rskip }) {k : Nat}
    (h1 : k ≠ 1) (h12 : k ≠ 12) (h13 : k ≠ 13) : t.controlWord k = s.controlWord k := by
  rw [frame]
  unfold State.controlWord
  split
  case h_1 => contradiction
  case h_12 => contradiction
  case h_13 => contradiction
  all_goals rfl

/-- Of the window, a change of registers, marks, ACCSUM and RSKIP shows in the bytes of R, ACCSUM and STATUS alone. -/
theorem sameBytes_of_cipher_frame {s t : State}
    (frame : t = { s with regs := t.regs, regMarks := t.regMarks, accsum := t.accsum, rskip := t.rskip }) :
    SameBytes (fun a => Outside 0x0100 448 a ∧ Outside 0x0030 8 a ∧ (a = 0x0004 → t.rskip = s.rskip)) s t := by
  rintro a ⟨hreg, hsum, hstatus⟩
  unfold Outside at hreg hsum
  have fields : t.mem = s.mem ∧ t.acc = s.acc ∧ t.err = s.err ∧ t.errCode = s.errCode := by
    rw [frame]
    exact ⟨rfl, rfl, rfl, rfl⟩
  obtain ⟨mem, acc, err, code⟩ := fields
  refine busByte_congr (by rw [mem]) (fun hr => ?_) (fun _ => acc) fun _ => ?_
  · obtain ⟨h1, h2⟩ := regionOf_eq_some.1 hr
    omega
  · by_cases hk : a / 4 = 1
    · rw [hk]
      by_cases h4 : a = 4
      · simp only [State.controlWord, State.statusWord, err, code, hstatus h4]
      · exact byteOf_statusWord err code (by omega)
    · rw [controlWord_of_cipher_frame frame hk (by omega) (by omega)]

theorem onlyCipherState_of_frame {s t : State}
    (frame : t = { s with regs := t.regs, regMarks := t.regMarks, accsum := t.accsum }) : OnlyCipherState s t := by
  have skip : t.rskip = s.rskip := by rw [frame]
  refine ⟨frame, fun a ⟨hreg, hsum⟩ => sameBytes_of_cipher_frame ?_ a ⟨hreg, hsum, fun _ => skip⟩⟩
  rw [skip]
  exact frame

/-! ## The reads of a round (R180..R182) -/

/-- What the selector steps of round r read is what the tables say. -/
structure RoundReads (s : State) (T : Tables) (r : Nat) : Prop where
  /-- One selector for each position. -/
  count : T.sels.length = s.selCount.toNat
  /-- SEL. -/
  sel : ∀ p : Fin T.sels.length, s.readSel p.val = .ok (T.sels[p]).1
  /-- KC. -/
  kc : ∀ p : Fin T.sels.length, s.readKc p.val = .ok (T.sels[p]).2
  /-- The round key, of which the low half alone is the table's. -/
  key : 0 < T.sels.length → ∃ q, s.readRoundKey r = .ok q ∧ q.setWidth 32 = T.roundKey r
  /-- The S-box. -/
  sbox : ∀ k, s.readSbox r k = .ok (T.sbox r k)

theorem roundReads_of_tables {s : State} {T : Tables} {r : Nat} (hr : r < 24) (hsel : s.selCount.toNat ≤ Config.maxSel)
    (tables : RoundTablesIn s T r) (selectors : SelectorsIn s T) : RoundReads s T r := by
  obtain ⟨sbox, keyLow, keyHigh⟩ := tables
  obtain ⟨count, entry⟩ := selectors
  refine ⟨count, fun p => ?_, fun p => ?_, fun pos => ?_, fun k => readByte_of_busByte (ramByte_iff.2 ?_) (sbox k)⟩
  · obtain ⟨low, high, -, -⟩ := entry p
    have lo : s.readByte (selAddr p) = .ok (byteOf (T.sels[p]).1 0) :=
      readByte_of_busByte (ramByte_iff.2 (by simp only [selAddr, selBase]; omega)) low
    have hi : s.readByte (selAddr p + 1) = .ok (byteOf (T.sels[p]).1 1) :=
      readByte_of_busByte (ramByte_iff.2 (by simp only [selAddr, selBase]; omega)) high
    simp only [State.readSel, lo, hi, ok_bind, pure_eq_ok, byteOf_append]
  · obtain ⟨-, -, present, absent⟩ := entry p
    cases hk : (T.sels[p]).2 with
    | none => simp only [State.readKc, Nat.not_lt.2 (absent hk), if_false, pure_eq_ok]
    | some k =>
      obtain ⟨below, byte⟩ := present k hk
      have kc : s.readByte (kcAddr p) = .ok k := readByte_of_busByte (ramByte_iff.2 (by simp only [kcAddr, kcBase]; omega)) byte
      simp only [State.readKc, if_pos below, kc, ok_bind, pure_eq_ok]
  · obtain ⟨low, high, present, absent⟩ := entry ⟨0, pos⟩
    have first : FirstSelector.In ⟨T.sels[0].1, T.roundKey r, T.sels[0].2⟩ s r :=
      ⟨count ▸ pos, low, high, keyLow, keyHigh, present, fun h => Nat.le_zero.1 (absent h)⟩
    exact readRoundKey_of_first first hr
  · simp only [sboxAddr, sboxBase]
    omega

/-! ## A valid round is the reference round -/

/-- Registers and sum as the selector steps take them. -/
def cipherOf (c : Regs × BitVec 64) : Cipher := ⟨c.1, c.2⟩

theorem selectorStep_of_reads {s : State} {T : Tables} {r : Nat} (h : RoundReads s T r) (p : Fin T.sels.length)
    (c : Regs × BitVec 64) :
    selectorStep s r p.val (cipherOf c) = .ok (cipherOf (refStep (T.sbox r) (T.roundKey r) c T.sels[p])) := by
  obtain ⟨q, hq, low⟩ := h.key p.pos
  simp only [selectorStep, h.sel, hq, h.kc, h.sbox, ok_bind, pure_eq_ok, cipherOf, placeOf_eq_place, low, sboxIndex_eq, refStep_eq,
    add64]

theorem selectorsFrom_of_reads {s : State} {T : Tables} {r : Nat} (h : RoundReads s T r) {p n : Nat} (hn : p + n = T.sels.length)
    (c : Regs × BitVec 64) : selectorsFrom s r p n (cipherOf c)
      = .ok (cipherOf ((T.sels.drop p).foldl (refStep (T.sbox r) (T.roundKey r)) c)) := by
  induction n generalizing p c with
  | zero => rw [List.drop_of_length_le (by omega)]; rfl
  | succ n ih =>
    rw [selectorsFrom, selectorStep_of_reads h ⟨p, by omega⟩, ok_bind, ih (p := p + 1) (by omega),
      List.drop_eq_getElem_cons (i := p) (by omega)]
    rfl

/-- Registers and sum written, and every register defined. -/
def State.withCipher (s : State) (c : Regs × BitVec 64) : State := { s.setRegs c.1 with accsum := c.2 }

theorem roundOrSkip_of_reads {s : State} {T : Tables} {r : Nat} (hv : s.roundValid r = true) (h : RoundReads s T r) :
    roundOrSkip s r = .ok (s.withCipher (refRound T (s.regs, s.accsum) r)) := by
  rw [roundOrSkip_of_valid hv, roundBody_eq_ok]
  refine ⟨_, selectorsFrom_of_reads h (by rw [h.count, Nat.zero_add]) (s.regs, s.accsum), ?_⟩
  rw [cipherOf, diffuse_eq_refDiffuse]
  rfl

/-! ## The rounds one after another (R187, R189) -/

theorem roundsFrom_add (p m n : Nat) (s : State) :
    roundsFrom p (m + n) s = roundsFrom p m s >>= fun t => roundsFrom (p + m) n t := by
  induction m generalizing p s with
  | zero => rw [Nat.zero_add, Nat.add_zero]; rfl
  | succ m ih =>
    rw [Nat.succ_add, roundsFrom, roundsFrom, bind_assoc]
    simp only [ih, Nat.succ_add_eq_add_succ]

theorem roundsFrom_one (r : Nat) (s : State) : roundsFrom r 1 s = roundOrSkip s r := bind_pure _

theorem refMix_succ (T : Tables) (n : Nat) (c : Regs × BitVec 64) : refMix T (n + 1) c = refRound T (refMix T n c) n := by
  simp only [refMix, List.range_succ, List.foldl_append, List.foldl_cons, List.foldl_nil]

/-- The state after n valid rounds: the registers are defined once a round has run. -/
def State.afterRounds (s : State) (T : Tables) (n : Nat) : State :=
  { s with
    regs := (refMix T n (s.regs, s.accsum)).1
    regMarks := if n = 0 then s.regMarks else allMarked
    accsum := (refMix T n (s.regs, s.accsum)).2 }

theorem withCipher_afterRounds (s : State) (T : Tables) (n : Nat) :
    (s.afterRounds T n).withCipher (refRound T ((s.afterRounds T n).regs, (s.afterRounds T n).accsum) n)
      = s.afterRounds T (n + 1) := by
  rw [State.afterRounds, State.afterRounds, refMix_succ, if_neg n.succ_ne_zero]
  rfl

/-- Rounds change no input of a round. -/
theorem RoundReads.afterRounds {s : State} {T : Tables} {r : Nat} (h : RoundReads s T r) (n : Nat) :
    RoundReads (s.afterRounds T n) T r := ⟨h.count, h.sel, h.kc, h.key, h.sbox⟩

theorem roundsFrom_of_reads {s : State} {T : Tables} {n : Nat}
    (h : ∀ r, r < n → s.roundValid r = true ∧ RoundReads s T r) : roundsFrom 0 n s = .ok (s.afterRounds T n) := by
  induction n with
  | zero => rfl
  | succ n ih =>
    obtain ⟨valid, reads⟩ := h n n.lt_succ_self
    rw [roundsFrom_add, ih fun r hr => h r (by omega), ok_bind, Nat.zero_add, roundsFrom_one,
      roundOrSkip_of_reads (T := T) (s := s.afterRounds T n) valid (reads.afterRounds n), withCipher_afterRounds]

theorem roundsFrom_of_not_valid {s : State} {p n : Nat} (h : ∀ r, p ≤ r → r < p + n → s.roundValid r = false) :
    roundsFrom p n s = .ok { s with rskip := s.rskip || decide (0 < n) } := by
  induction n generalizing p s with
  | zero => simp [roundsFrom]
  | succ n ih =>
    rw [roundsFrom, roundOrSkip_of_not_valid (h p le_rfl (by omega)), ok_bind,
      ih (s := s.markSkipped) fun r hp hr => h r (by omega) (by omega)]
    simp [State.markSkipped]

/-- The valid rounds are the first ones (R49). -/
theorem roundValid_eq_decide {s : State} {r : Nat} (hr : r < 24) : s.roundValid r = decide (r < validRounds s) := by
  rw [State.roundValid, validRounds, ← Bool.decide_and, decide_eq_decide]
  omega

theorem mixBody_of_reads {s : State} {T : Tables} (h : ∀ r, r < 24 → s.roundValid r = true → RoundReads s T r) :
    mixBody s = .ok { s.afterRounds T (validRounds s) with rskip := s.rskip || decide (validRounds s < 24) } := by
  have bound : validRounds s ≤ 24 := Nat.min_le_left _ _
  have first : roundsFrom 0 (validRounds s) s = .ok (s.afterRounds T (validRounds s)) := roundsFrom_of_reads fun r hr => by
    have valid : s.roundValid r = true := by rw [roundValid_eq_decide (by omega), decide_eq_true hr]
    exact ⟨valid, h r (by omega) valid⟩
  have rest := roundsFrom_of_not_valid (s := s.afterRounds T (validRounds s)) (p := validRounds s) (n := 24 - validRounds s)
    fun r hp hr => (roundValid_eq_decide (s := s) (by omega)).trans (decide_eq_false (by omega))
  rw [mixBody, ← Nat.add_sub_cancel' bound, roundsFrom_add, first, ok_bind, Nat.zero_add, rest]
  simp only [Nat.sub_pos_iff_lt, Nat.add_sub_cancel' bound]
  rfl

/-! ## MIX24 as ROUND commands -/

theorem tableChecksPass_of_roundOrSkip {s t : State} {r : Nat} (h : TableChecksPass s) (ht : roundOrSkip s r = .ok t) :
    TableChecksPass t := by
  rw [(roundOrSkip_frame ht).1]
  exact h

theorem execAll_rounds {n p : Nat} {s : State} (hn : p + n ≤ 24) (h : TableChecksPass s) :
    execAll ((List.range' p n).map fun r => Instr.round (BitVec.ofNat 5 r)) s = answer (roundsFrom p n s) := by
  induction n generalizing p s with
  | zero => rfl
  | succ n ih =>
    have field : (BitVec.ofNat 5 p).toNat = p := Nat.mod_eq_of_lt (by omega)
    rw [List.range'_succ, List.map_cons, execAll, exec_round_of_checks (by omega) h, field, roundsFrom]
    cases hp : roundOrSkip s p with
    | ok t => exact ih (by omega) (tableChecksPass_of_roundOrSkip h hp)
    | error f => rfl

/-! ## The tail of the round key (R190 (b)) -/

/-- One byte of RAM written from outside, as the claim writes it. -/
def State.setMemByte (s : State) (a : Nat) (c : Byte) : State := { s with mem := Memory.set s.mem a c }

theorem readByte_setMemByte_of_ne {s : State} {a x : Nat} (c : Byte) (h : x ≠ a) :
    (s.setMemByte a c).readByte x = s.readByte x := by
  simp only [State.readByte, State.setMemByte, Memory.get?_set_ne s.mem c h]

/-- Two buffers of eight bytes that agree in the first four make one number in the low half. -/
theorem setWidth_fromLE_congr {v w : Vector Byte 8} (h : ∀ i : Fin 8, i.val < 4 → v[i] = w[i]) :
    (BitVec.ofNat 64 (fromLE v.toList)).setWidth 32 = (BitVec.ofNat 64 (fromLE w.toList)).setWidth 32 := by
  have first : v.toList.take 4 = w.toList.take 4 := List.ext_getElem (by simp) fun i hi _ => by
    have hi : i < 4 := by simp at hi; omega
    simpa using h ⟨i, by omega⟩ hi
  rw [BitVec.setWidth_ofNat_of_le (by decide), BitVec.setWidth_ofNat_of_le (by decide)]
  exact (ofNat_fromLE_take v.toList 4).symm.trans (first ▸ ofNat_fromLE_take w.toList 4)

section
variable {s : State} {r j : Nat} (c : Byte) (hr : r < 24) (low : 4 ≤ j) (high : j < 64)
include low

/-- The round key is still read, and its low half is as it was. -/
theorem readRoundKey_set_tail {q : BitVec 64} (h : s.readRoundKey r = .ok q) :
    ∃ q', (s.setMemByte (0x0800 + 64 * r + j) c).readRoundKey r = .ok q'
      ∧ q'.setWidth 32 = q.setWidth 32 := by
  simp only [State.readRoundKey, bind_eq_ok, pure_eq_ok, Except.ok.injEq] at h
  obtain ⟨v, hv, rfl⟩ := h
  obtain ⟨w, hw⟩ : ∃ w, (s.setMemByte (0x0800 + 64 * r + j) c).readBuffer (rkAddr r 0) 8 = .ok w :=
    exists_readBuffer fun k hk => by
      rw [State.setMemByte, Memory.get?_set]
      split
      · exact Option.some_ne_none _
      · exact ne_none_of_readBuffer hv hk
  refine ⟨_, bind_eq_ok.2 ⟨w, hw, rfl⟩, setWidth_fromLE_congr fun i hi => ?_⟩
  have new := State.readBuffer_eq_ok.1 hw i
  rw [State.setMemByte, Memory.get?_set_ne _ _ (by simp only [rkAddr, rkBase]; omega), State.readBuffer_eq_ok.1 hv i] at new
  exact (Option.some.inj new).symm

include hr high

/-- The upper half of the round key enters no step, which reads RAM only from 0x1000 up besides (R73, R181). -/
theorem selectorStep_set_tail {p : Nat} {d e : Cipher} (h : selectorStep s r p d = .ok e) :
    selectorStep (s.setMemByte (0x0800 + 64 * r + j) c) r p d = .ok e := by
  have byte : ∀ x, 0x1000 ≤ x →
      (s.setMemByte (0x0800 + 64 * r + j) c).readByte x = s.readByte x := fun x hx => readByte_setMemByte_of_ne c (by omega)
  have sbox := fun k : Byte => byte (sboxAddr r k.toNat) (by simp only [sboxAddr, sboxBase]; omega)
  have selLow := byte (selAddr p) (by simp only [selAddr, selBase]; omega)
  have selHigh := byte (selAddr p + 1) (by simp only [selAddr, selBase]; omega)
  have kc := byte (kcAddr p) (by simp only [kcAddr, kcBase]; omega)
  simp only [selectorStep, State.readSel, State.readSbox, State.readKc, sbox, selLow, selHigh, kc, bind_eq_ok] at h ⊢
  obtain ⟨sel, hsel, q, hq, rest⟩ := h
  obtain ⟨q', hq', half⟩ := readRoundKey_set_tail c low hq
  have place_eq : placeOf (bytesToU64 d.regs[0]) sel q' = placeOf (bytesToU64 d.regs[0]) sel q := by
    rw [placeOf_eq_place, placeOf_eq_place, half]
  refine ⟨sel, hsel, q', hq', ?_⟩
  simp only [place_eq]
  exact rest

theorem selectorsFrom_set_tail {p n : Nat} {d e : Cipher} (h : selectorsFrom s r p n d = .ok e) :
    selectorsFrom (s.setMemByte (0x0800 + 64 * r + j) c) r p n d = .ok e := by
  induction n generalizing p d with
  | zero => exact h
  | succ n ih =>
    obtain ⟨d', hd, rest⟩ := bind_eq_ok.1 h
    exact bind_eq_ok.2 ⟨d', selectorStep_set_tail c hr low high hd, ih rest⟩

theorem roundOrSkip_set_tail {t : State} (h : roundOrSkip s r = .ok t) :
    roundOrSkip (s.setMemByte (0x0800 + 64 * r + j) c) r
      = .ok { t with mem := (s.setMemByte (0x0800 + 64 * r + j) c).mem } := by
  cases hv : s.roundValid r with
  | true =>
    rw [roundOrSkip_of_valid hv] at h
    obtain ⟨d, hd, rfl⟩ := roundBody_eq_ok.1 h
    rw [roundOrSkip_of_valid (s := s.setMemByte _ c) hv]
    exact roundBody_eq_ok.2 ⟨d, selectorsFrom_set_tail c hr low high hd, rfl⟩
  | false =>
    rw [roundOrSkip_of_not_valid hv] at h
    cases h
    exact roundOrSkip_of_not_valid hv

end

end Sys2Proof.Machine

namespace Sys2Proof.Proofs
open Sys2Proof.Machine Sys2Proof.Claim

/-- Settles O19: the round is not valid, so it is skipped; in strict mode the lengths of check 6 would make it valid. -/
theorem undersizedRoundIsSkipped : Obligations.UndersizedRoundIsSkipped := by
  intro rnd s hr hsel short
  refine ⟨fun permissive => ?_, fun strict => ?_⟩
  · have skipped : s.roundValid rnd.toNat = false := by
      rw [← Bool.not_eq_true, roundValid_iff, ValidRound]
      omega
    have checks : TableChecksPass s := ⟨hsel, fun strict => absurd strict (by rw [permissive]; decide)⟩
    rw [exec_round_of_checks hr checks, roundOrSkip_of_not_valid skipped]
    rfl
  · rw [exec_round_of_lt hr]
    rcases withTables_cases s (answer (roundOrSkip s rnd.toNat)) with ⟨passed, -⟩ | ⟨many, -⟩ | ⟨-, -, rejected⟩
    · have := (tableCheck_eq_none.1 passed).2 strict
      omega
    · omega
    · exact rejected

/-- Settles O20: no selector step runs, and the closed form of the diffusion is the claim's, register by register. -/
theorem emptyRoundDiffuses : Obligations.EmptyRoundDiffuses := by
  intro rnd s hr hsel hv strict
  have checks : TableChecksPass s := ⟨by rw [hsel]; exact Nat.zero_le _, strict⟩
  have run : exec (.round rnd) s = .next (s.withCipher (refDiffuse s.regs, s.accsum)) := by
    rw [exec_round_of_checks hr checks, answer_eq_next, roundOrSkip_of_valid (roundValid_of_validRound hv), roundBody_eq_ok, hsel,
      ← diffuse_eq_refDiffuse]
    exact ⟨_, rfl, rfl⟩
  refine ⟨_, run, fun j => ?_, rfl, rfl, onlyCipherState_of_frame rfl⟩
  have byte : ∀ f : Fin 64 → Byte, (Vector.ofFn f)[j] = f j := fun f => Vector.getElem_ofFn j.isLt
  exact ⟨byte _, byte _, byte _, byte _, byte _, byte _, byte _⟩

/-- Settles O21: the reads of a round answer what the tables say, and each selector step on them is the reference step. -/
theorem roundRefinesReference : Obligations.RoundRefinesReference := by
  intro rnd s T hr checks hv tables selectors
  have reads := roundReads_of_tables hr checks.1 tables selectors
  have run : exec (.round rnd) s = .next (s.withCipher (refRound T (s.regs, s.accsum) rnd.toNat)) := by
    rw [exec_round_of_checks hr checks, roundOrSkip_of_reads (roundValid_of_validRound hv) reads, answer_ok]
  exact ⟨_, run, rfl, rfl, rfl, onlyCipherState_of_frame rfl⟩

/-- Settles O22: the valid rounds come first and are the reference's, and the skipped ones after them set RSKIP alone. -/
theorem mixRefinesReference : Obligations.MixRefinesReference := by
  intro s T checks tables selectors
  have reads : ∀ r, r < 24 → s.roundValid r = true → RoundReads s T r := fun r hr hv =>
    roundReads_of_tables hr checks.1 (tables r hr (roundValid_iff.1 hv)) selectors
  have run := (exec_mix24_of_checks checks).trans (congrArg answer (mixBody_of_reads reads))
  have short : decide (validRounds s < 24) = decide (s.sbLen.toNat < 6144 ∨ s.rkLen.toNat < 1536) := by
    rw [decide_eq_decide, validRounds]
    omega
  refine ⟨_, run, rfl, rfl, congrArg (s.rskip || ·) short, rfl, rfl, fun a ⟨hreg, hsum, hstatus⟩ => ?_⟩
  exact sameBytes_of_cipher_frame (s := s) rfl a ⟨hreg, hsum, fun h => absurd h hstatus⟩

/-- Settles O23: both run the rounds in order on the same states, and a round leaves what the checks read. -/
theorem mixIsTheRoundsInOrder : Obligations.MixIsTheRoundsInOrder := by
  intro s checks
  rw [exec_mix24_of_checks checks, List.range_eq_range', execAll_rounds le_rfl checks]
  rfl

/-- Settles O24: the changed byte lies outside what the checks and the steps read but for the upper half of the round key. -/
theorem roundKeyTailIsIgnored : Obligations.RoundKeyTailIsIgnored := by
  intro rnd s t j b c low high hr _ ht
  have same : (s.setMemByte (0x0800 + 64 * rnd.toNat + j) c).tableCheck = s.tableCheck := tableCheck_congr rfl rfl rfl rfl
  cases hc : s.tableCheck with
  | some e =>
    rw [exec_round_of_lt hr, withTables_of_some hc] at ht
    cases ht
    exact ⟨_, (exec_round_of_lt hr _).trans (withTables_of_some (same.trans hc) _), rfl, rfl, rfl, rfl, rfl⟩
  | none =>
    rw [exec_round_of_lt hr, withTables_of_none hc] at ht
    have changed := congrArg answer (roundOrSkip_set_tail c hr low high (answer_eq_next.1 ht))
    exact ⟨_, (exec_round_of_lt hr _).trans <| (withTables_of_none (same.trans hc) _).trans changed, rfl, rfl, rfl, rfl, rfl⟩

end Sys2Proof.Proofs
end

section
/-! PROOFS. Keystream extraction and the keystream XOR (43_keystream.md): KSGEN's message and frame, XORKS in terms of what DIN and KS
hold, and the keystream of a BLOCK, which depends on its inputs without DIN. -/

namespace Sys2Proof.Machine
open Sys2Proof.Claim

/-! ## Buffers of RAM and what the host reads -/

/-- A buffer inside RAM holds a vector exactly when a command reads that vector there. -/
theorem holds_iff_readBuffer {n : Nat} {s : State} {a : Nat} {v : Vector Byte n} (ram : ∀ j, j < n → ramByte (a + j) = true) :
    Holds s a v ↔ s.readBuffer a n = .ok v := by
  rw [State.readBuffer_eq_ok]
  exact forall_congr' fun j => by rw [busByte_ram (ram j.val j.isLt), State.readByte_eq_ok]

/-- DIN, DOUT and KS lie inside RAM (R73). -/
theorem ramByte_of_block {a : Nat} (h : 0x40 ≤ a ∧ a + 32 ≤ 0xA0) (j : Nat) (hj : j < 32) : ramByte (a + j) = true :=
  ramByte_iff.2 (by omega)

theorem holds_din {s : State} {v : Vector Byte 32} : Holds s 0x0040 v ↔ s.readBuffer dinBase 32 = .ok v :=
  holds_iff_readBuffer (ramByte_of_block (by decide))

theorem holds_dout {s : State} {v : Vector Byte 32} : Holds s 0x0060 v ↔ s.readBuffer doutBase 32 = .ok v :=
  holds_iff_readBuffer (ramByte_of_block (by decide))

theorem holds_ks {s : State} {v : Vector Byte 32} : Holds s 0x0080 v ↔ s.readBuffer ksBase 32 = .ok v :=
  holds_iff_readBuffer (ramByte_of_block (by decide))

/-- A write of one buffer leaves a buffer beside it as it was. -/
theorem readBuffer_writeBuffer_of_disjoint {m n : Nat} (s : State) {a b : Nat} (v : Vector Byte n) (h : b + m ≤ a ∨ a + n ≤ b) :
    (s.writeBuffer a v).readBuffer b m = s.readBuffer b m :=
  State.readBuffer_congr fun i hi => State.get?_writeBuffer_outside s a v (by omega)

/-- Of the window, a change of RAM inside one range shows in that range alone, and a hash request does not show. -/
theorem sameBytes_of_mem_frame {s t : State} {a n : Nat} (frame : t = { s with mem := t.mem, hashRequests := t.hashRequests })
    (bytes : ∀ x, Outside a n x → Memory.get? t.mem x = Memory.get? s.mem x) : SameBytes (Outside a n) s t := by
  intro x hx
  have fields : t.regs = s.regs ∧ t.acc = s.acc ∧ ∀ k, t.controlWord k = s.controlWord k := by
    rw [frame]
    exact ⟨rfl, rfl, fun _ => rfl⟩
  obtain ⟨regs, acc, control⟩ := fields
  exact busByte_congr (bytes x hx) (fun _ => by rw [regs]) (fun _ => acc) fun _ => by rw [control]

/-- A command that answers a write of one buffer: what the buffer holds then, and the frame. -/
theorem exists_next_writeBuffer {r : Result} {s : State} {a n : Nat} {v : Vector Byte n} (run : r = .next (s.writeBuffer a v)) :
    ∃ t, r = .next t ∧ t.readBuffer a n = .ok v ∧ t = { s with mem := t.mem } ∧ SameBytes (Outside a n) s t :=
  ⟨_, run, State.readBuffer_writeBuffer s a v, rfl, sameBytes_of_mem_frame rfl fun _ hx => State.get?_writeBuffer_outside s a v hx⟩

/-! ## KSGEN (R210, R211) -/

theorem flatten_regs (rs : Regs) : (rs.toList.map Vector.toList).flatten
    = rs[0].toList ++ rs[1].toList ++ rs[2].toList ++ rs[3].toList ++ rs[4].toList ++ rs[5].toList ++ rs[6].toList := by
  have rows : rs.toList = [rs[0], rs[1], rs[2], rs[3], rs[4], rs[5], rs[6]] :=
    List.ext_getElem rs.length_toList fun i hi _ => by
      have hi : i < 7 := by simpa using hi
      interval_cases i <;> rfl
  simp [rows]

theorem ksMessage_eq_message (s : State) : s.ksMessage = message s.regs s.acc.toList s.blkIdx := by
  rw [State.ksMessage, flatten_regs]
  rfl

/-! ## XORKS (R212) -/

/-- DIN ^ KS, byte by byte. -/
def xorBlock (a b : Vector Byte 32) : Vector Byte 32 := Vector.ofFn fun j : Fin 32 => a[j] ^^^ b[j]

theorem getElem_xorBlock (a b : Vector Byte 32) (j : Fin 32) : (xorBlock a b)[j] = a[j] ^^^ b[j] := by
  simp [xorBlock]

/-- XOR with the same keystream twice gives the block back (R213). -/
theorem xorBlock_xorBlock (a b : Vector Byte 32) : xorBlock (xorBlock a b) b = a := by
  refine Vector.ext fun j hj => ?_
  calc (xorBlock (xorBlock a b) b)[j] = a[j] ^^^ b[j] ^^^ b[j] := by simp [xorBlock]
    _ = a[j] := by rw [BitVec.xor_assoc, BitVec.xor_self, BitVec.xor_zero]

theorem xorksBody_of_reads {s : State} {din ks : Vector Byte 32} (hdin : s.readBuffer dinBase 32 = .ok din)
    (hks : s.readBuffer ksBase 32 = .ok ks) : xorksBody s = .ok (s.writeBuffer doutBase (xorBlock din ks)) :=
  xorksBody_eq_ok.2 ⟨din, ks, hdin, hks, rfl⟩

/-- XORKS that completes has read DIN and KS; DOUT holds their XOR, and KS is as before. -/
theorem reads_of_xorksBody {s t : State} (h : xorksBody s = .ok t) : ∃ din ks, s.readBuffer dinBase 32 = .ok din
    ∧ t.readBuffer doutBase 32 = .ok (xorBlock din ks) ∧ t.readBuffer ksBase 32 = .ok ks := by
  obtain ⟨din, ks, hdin, hks, rfl⟩ := xorksBody_eq_ok.1 h
  exact ⟨din, ks, hdin, State.readBuffer_writeBuffer s doutBase (xorBlock din ks),
    (readBuffer_writeBuffer_of_disjoint s _ (.inr le_rfl)).trans hks⟩

/-! ## What BLOCK reads but for DIN (R236) -/

/-- The two states agree in all that BLOCK reads from before it, DIN apart: KM and the tables, which lie above KS, the lengths and the
counts, BLKIDX, CTRL, and the hash engine. -/
structure SameInputs (s t : State) : Prop where
  /-- KM, RK, SBOX, SEL and KC. -/
  bytes : ∀ a, 0xA0 ≤ a → Memory.get? t.mem a = Memory.get? s.mem a
  /-- SEL_COUNT. -/
  selCount : t.selCount = s.selCount
  /-- KC_COUNT. -/
  kcCount : t.kcCount = s.kcCount
  /-- SB_LEN. -/
  sbLen : t.sbLen = s.sbLen
  /-- RK_LEN. -/
  rkLen : t.rkLen = s.rkLen
  /-- BLKIDX. -/
  blkIdx : t.blkIdx = s.blkIdx
  /-- CTRL. -/
  strict : t.strict = s.strict
  /-- Whether the engine answers. -/
  hashAnswers : t.hashAnswers = s.hashAnswers

theorem SameInputs.refl (s : State) : SameInputs s s := ⟨fun _ _ => rfl, rfl, rfl, rfl, rfl, rfl, rfl, rfl⟩

theorem SameInputs.symm {s t : State} (h : SameInputs s t) : SameInputs t s where
  bytes := fun a ha => (h.bytes a ha).symm
  selCount := h.selCount.symm
  kcCount := h.kcCount.symm
  sbLen := h.sbLen.symm
  rkLen := h.rkLen.symm
  blkIdx := h.blkIdx.symm
  strict := h.strict.symm
  hashAnswers := h.hashAnswers.symm

theorem SameInputs.trans {s t u : State} (h : SameInputs s t) (k : SameInputs t u) : SameInputs s u where
  bytes := fun a ha => (k.bytes a ha).trans (h.bytes a ha)
  selCount := k.selCount.trans h.selCount
  kcCount := k.kcCount.trans h.kcCount
  sbLen := k.sbLen.trans h.sbLen
  rkLen := k.rkLen.trans h.rkLen
  blkIdx := k.blkIdx.trans h.blkIdx
  strict := k.strict.trans h.strict
  hashAnswers := k.hashAnswers.trans h.hashAnswers

/-- No command changes an input of BLOCK. -/
theorem Effect.sameInputs {s t : State} (e : Effect s t) : SameInputs s t where
  bytes := fun a ha => e.bytes a (.inr ha)
  selCount := (congrArg State.selCount e.frame :)
  kcCount := (congrArg State.kcCount e.frame :)
  sbLen := (congrArg State.sbLen e.frame :)
  rkLen := (congrArg State.rkLen e.frame :)
  blkIdx := (congrArg State.blkIdx e.frame :)
  strict := (congrArg State.strict e.frame :)
  hashAnswers := (congrArg State.hashAnswers e.frame :)

/-- Neither does a write of DIN. -/
theorem sameInputs_writeDin (s : State) (v : Vector Byte 32) : SameInputs s (s.writeBuffer dinBase v) :=
  ⟨fun _ ha => State.get?_writeBuffer_outside s dinBase v (.inr (by simp only [dinBase]; omega)), rfl, rfl, rfl, rfl, rfl, rfl, rfl⟩

/-- Commands on both sides keep the agreement. -/
theorem SameInputs.of_effects {s t u v : State} (h : SameInputs s t) (e : Effect s u) (f : Effect t v) : SameInputs u v :=
  (e.sameInputs.symm.trans h).trans f.sameInputs

theorem SameInputs.tableChecksPass {s t : State} (h : SameInputs s t) (checks : TableChecksPass s) : TableChecksPass t := by
  rw [TableChecksPass, h.selCount, h.strict, h.sbLen, h.rkLen]
  exact checks

theorem SameInputs.readByte {s t : State} (h : SameInputs s t) {a : Nat} (ha : 0xA0 ≤ a) : t.readByte a = s.readByte a := by
  simp only [State.readByte, h.bytes a ha]

theorem SameInputs.readBuffer {s t : State} (h : SameInputs s t) {a : Nat} (n : Nat) (ha : 0xA0 ≤ a) :
    t.readBuffer a n = s.readBuffer a n :=
  State.readBuffer_congr fun i _ => h.bytes (a + i) (by omega)

/-- A selector step reads its tables and the registers it is given. -/
theorem SameInputs.selectorStep_eq {s t : State} (h : SameInputs s t) (r p : Nat) (c : Cipher) :
    selectorStep t r p c = selectorStep s r p c := by
  have sbox := fun k : Byte => h.readByte (a := sboxAddr r k.toNat) (by simp only [sboxAddr, sboxBase]; omega)
  have selLow := h.readByte (a := selAddr p) (by simp only [selAddr, selBase]; omega)
  have selHigh := h.readByte (a := selAddr p + 1) (by simp only [selAddr, selBase]; omega)
  have kc := h.readByte (a := kcAddr p) (by simp only [kcAddr, kcBase]; omega)
  have key := h.readBuffer (a := rkAddr r 0) 8 (by simp only [rkAddr, rkBase]; omega)
  simp only [selectorStep, State.readSel, State.readRoundKey, State.readSbox, State.readKc, sbox, selLow, selHigh, kc, key, h.kcCount]

theorem SameInputs.selectorsFrom_eq {s t : State} (h : SameInputs s t) (r p n : Nat) (c : Cipher) :
    selectorsFrom t r p n c = selectorsFrom s r p n c := by
  induction n generalizing p c with
  | zero => rfl
  | succ n ih => simp only [selectorsFrom, h.selectorStep_eq, ih]

/-! ## The same block being computed -/

/-- Besides the inputs, the two states agree in what a running block works on and hashes: registers, ACC and ACCSUM (R186, R210). -/
structure SameBlock (s t : State) : Prop where
  /-- The inputs. -/
  inputs : SameInputs s t
  /-- R0..R6. -/
  regs : t.regs = s.regs
  /-- ACC. -/
  acc : t.acc = s.acc
  /-- ACCSUM. -/
  accsum : t.accsum = s.accsum

theorem SameBlock.ksMessage {s t : State} (h : SameBlock s t) : t.ksMessage = s.ksMessage := by
  simp only [State.ksMessage, h.regs, h.acc, h.inputs.blkIdx]

/-- LOADKM starts the same block from the same inputs, whatever the registers held (R33, R235). -/
theorem SameInputs.exists_loadkmBody {s t u : State} (h : SameInputs s t) (hu : loadkmBody s = .ok u) :
    ∃ v, loadkmBody t = .ok v ∧ SameBlock u v := by
  have run := hu
  obtain ⟨km, hkm, rfl⟩ := loadkmBody_eq_ok.1 run
  have other := loadkmBody_eq_ok.2 ⟨km, (h.readBuffer 448 (by decide)).trans hkm, rfl⟩
  exact ⟨_, other, h.of_effects (loadkmBody_effect hu) (loadkmBody_effect other), rfl, rfl, rfl⟩

theorem SameBlock.exists_roundOrSkip {s t u : State} {r : Nat} (h : SameBlock s t) (hu : roundOrSkip s r = .ok u) :
    ∃ v, roundOrSkip t r = .ok v ∧ SameBlock u v := by
  have valid : t.roundValid r = s.roundValid r := by rw [State.roundValid, State.roundValid, h.inputs.sbLen, h.inputs.rkLen]
  have same {v : State} (hv : roundOrSkip t r = .ok v) : SameInputs u v :=
    h.inputs.of_effects (effect_of_cipher_frame (roundOrSkip_frame hu)) (effect_of_cipher_frame (roundOrSkip_frame hv))
  cases hv : s.roundValid r with
  | true =>
    obtain ⟨c, hc, rfl⟩ := roundBody_eq_ok.1 ((roundOrSkip_of_valid hv).symm.trans hu)
    have other := (roundOrSkip_of_valid (valid.trans hv)).trans <| roundBody_eq_ok.2
      ⟨c, by rw [h.inputs.selectorsFrom_eq, h.inputs.selCount, h.regs, h.accsum, hc], rfl⟩
    exact ⟨_, other, same other, rfl, h.acc, rfl⟩
  | false =>
    obtain rfl := Except.ok.inj ((roundOrSkip_of_not_valid hv).symm.trans hu)
    have other := roundOrSkip_of_not_valid (valid.trans hv)
    exact ⟨_, other, same other, h.regs, h.acc, h.accsum⟩

theorem SameBlock.exists_roundsFrom {n p : Nat} {s t u : State} (h : SameBlock s t) (hu : roundsFrom p n s = .ok u) :
    ∃ v, roundsFrom p n t = .ok v ∧ SameBlock u v := by
  induction n generalizing p s t with
  | zero =>
    obtain rfl := Except.ok.inj hu
    exact ⟨t, rfl, h⟩
  | succ n ih =>
    obtain ⟨s', hs', rest⟩ := bind_eq_ok.1 hu
    obtain ⟨t', ht', h'⟩ := h.exists_roundOrSkip hs'
    obtain ⟨v, hv, same⟩ := ih h' rest
    exact ⟨v, bind_eq_ok.2 ⟨t', ht', hv⟩, same⟩

/-! ## The keystream of a block -/

/-- What a BLOCK leaves: KS holds the keystream, and DOUT the block XORed with it (R212, R236). -/
structure Keyed (s : State) (din ks : Vector Byte 32) : Prop where
  /-- KS. -/
  keystream : s.readBuffer ksBase 32 = .ok ks
  /-- DOUT. -/
  output : s.readBuffer doutBase 32 = .ok (xorBlock din ks)

/-- The three last parts of a BLOCK: the keystream is the answer to the message of the mixed registers (R236). -/
theorem exists_ksgen_xorks_feedback {s : State} {din : Vector Byte 32} (answers : s.hashAnswers = true)
    (hdin : s.readBuffer dinBase 32 = .ok din) : ∃ s3 s4 u, ksgenBody s = .ok s3 ∧ xorksBody s3 = .ok s4 ∧ feedbackBody s4 = .ok u
      ∧ Keyed u din (Config.xof s.ksMessage 32) := by
  obtain ⟨s3, h3⟩ : ∃ s3, ksgenBody s = .ok s3 := ⟨_, ksgenBody_eq_ok.2 ⟨answers, rfl⟩⟩
  have din3 : s3.readBuffer dinBase 32 = .ok din := hdin ▸ State.readBuffer_congr fun i hi =>
    (ksgenBody_effect h3).bytes _ (.inl (by simp only [dinBase, doutBase]; omega))
  have ks3 := readBuffer_of_ksgenBody h3
  obtain ⟨s4, h4, ks4, dout4⟩ : ∃ s4, xorksBody s3 = .ok s4 ∧ Keyed s4 din (Config.xof s.ksMessage 32) :=
    ⟨_, xorksBody_of_reads din3 ks3, (readBuffer_writeBuffer_of_disjoint s3 _ (.inr le_rfl)).trans ks3,
      State.readBuffer_writeBuffer s3 doutBase _⟩
  exact ⟨s3, s4, _, h3, h4, feedbackBody_eq_ok.2 ⟨_, dout4, rfl⟩, ks4, dout4⟩

/-- A BLOCK that completes has a keystream, and from every state with the same inputs but for DIN, BLOCK completes with that
keystream (R213, R236). -/
theorem exists_keystream_of_blockBody {s t : State} (ht : blockBody s = .ok t) : ∃ ks, ∀ s' din, SameInputs s s' →
    s'.readBuffer dinBase 32 = .ok din → ∃ u, blockBody s' = .ok u ∧ Keyed u din ks := by
  obtain ⟨s1, s2, s3, s4, h1, h2, h3, -, -⟩ := blockBody_eq_ok.1 ht
  refine ⟨Config.xof s2.ksMessage 32, fun s' din same hdin => ?_⟩
  obtain ⟨t1, k1, same1⟩ := same.exists_loadkmBody h1
  obtain ⟨t2, k2, same2⟩ := same1.exists_roundsFrom h2
  have answers : t2.hashAnswers = true := same2.inputs.hashAnswers.trans (ksgenBody_eq_ok.1 h3).1
  have din2 : t2.readBuffer dinBase 32 = .ok din := hdin ▸ State.readBuffer_congr fun i hi =>
    ((loadkmBody_effect k1).trans (effect_of_cipher_frame (mixBody_frame k2))).bytes _
      (.inl (by simp only [dinBase, doutBase]; omega))
  obtain ⟨t3, t4, u, k3, k4, k5, keyed⟩ := exists_ksgen_xorks_feedback answers din2
  exact ⟨u, blockBody_eq_ok.2 ⟨t1, t2, t3, t4, k1, k2, k3, k4, k5⟩, same2.ksMessage ▸ keyed⟩

end Sys2Proof.Machine

namespace Sys2Proof.Proofs
open Sys2Proof.Machine Sys2Proof.Claim

/-- Settles O25: the message is the claim's, and a write of KS shows in KS alone. -/
theorem ksgenStoresTheAnswer : Obligations.KsgenStoresTheAnswer := by
  intro s answers
  rw [← ksMessage_eq_message]
  obtain ⟨t, run⟩ : ∃ t, ksgenBody s = .ok t := ⟨_, ksgenBody_eq_ok.2 ⟨answers, rfl⟩⟩
  have stored := holds_ks.2 (readBuffer_of_ksgenBody run)
  obtain ⟨-, rfl⟩ := ksgenBody_eq_ok.1 run
  exact ⟨_, answer_eq_next.2 run, length_ksMessage s, stored, rfl, rfl,
    sameBytes_of_mem_frame rfl fun x hx => State.get?_writeBuffer_outside s ksBase _ hx⟩

/-- Settles O27: DIN and KS are read whole, and a write of DOUT shows in DOUT alone. -/
theorem xorksCombinesDinAndKs : Obligations.XorksCombinesDinAndKs := by
  intro s din ks hdin hks
  have run := answer_eq_next.2 (xorksBody_of_reads (holds_din.1 hdin) (holds_ks.1 hks))
  obtain ⟨t, ht, hdout, frame, same⟩ := exists_next_writeBuffer run
  exact ⟨t, ht, fun j => (holds_dout.2 hdout j).trans (congrArg _ (getElem_xorBlock din ks j)), frame, same⟩

/-- Settles O28: KS lies beside DOUT and DIN, so the second run has the keystream of the first. -/
theorem xorksIsItsOwnInverse : Obligations.XorksIsItsOwnInverse := by
  intro s t din dout hdin ht hdout
  obtain ⟨din', ks, hdin', hdout', hks⟩ := reads_of_xorksBody (answer_eq_next.1 ht)
  obtain rfl : din' = din := Except.ok.inj (hdin'.symm.trans (holds_din.1 hdin))
  obtain rfl : dout = xorBlock din' ks := Except.ok.inj ((holds_dout.1 hdout).symm.trans hdout')
  have ks_again := (readBuffer_writeBuffer_of_disjoint t (xorBlock din' ks) (a := dinBase) (.inr (by decide))).trans hks
  have run := answer_eq_next.2 (xorksBody_of_reads (State.readBuffer_writeBuffer t dinBase _) ks_again)
  obtain ⟨u, hu, restored, -⟩ := exists_next_writeBuffer run
  rw [xorBlock_xorBlock] at restored
  exact ⟨u, hu, holds_dout.2 restored⟩

/-- Settles O35: neither the first BLOCK nor the write of DIN changes an input but DIN, so the second has the keystream of the
first. -/
theorem blockDecryptsItself : Obligations.BlockDecryptsItself := by
  intro s t din dout checks hdin ht hdout
  rw [exec_block_of_checks checks, answer_eq_next] at ht
  obtain ⟨ks, blocks⟩ := exists_keystream_of_blockBody ht
  obtain ⟨t', ht', first⟩ := blocks s din (.refl s) (holds_din.1 hdin)
  obtain rfl : t = t' := Except.ok.inj (ht.symm.trans ht')
  obtain rfl : dout = xorBlock din ks := Except.ok.inj ((holds_dout.1 hdout).symm.trans first.output)
  have same := (blockBody_effect ht).sameInputs.trans (sameInputs_writeDin t (xorBlock din ks))
  obtain ⟨u, hu, -, restored⟩ := blocks _ _ same (State.readBuffer_writeBuffer t dinBase _)
  rw [xorBlock_xorBlock] at restored
  exact ⟨u, by rw [exec_block_of_checks (same.tableChecksPass checks), hu, answer_ok], holds_dout.2 restored⟩

end Sys2Proof.Proofs
end

section
/-! PROOFS. Ciphertext feedback (44_feedback.md): the shift of R225 never changes a byte, so FEEDBACK XORs the block itself into every
register (R227) and undoes itself (R226). -/

namespace Sys2Proof.Machine
open Sys2Proof.Claim

/-! ## The unshifted form (R227) -/

/-- Of the seven shift amounts, the only one below 8 is that of register 0, which is 0. -/
theorem feedback_shift_eq_zero : ∀ i : Fin 7, i.val * 37 % 256 < 8 → i.val * 37 % 256 = 0 := by decide

theorem feedbackByte_eq (ct : Vector Byte 32) (i : Fin 7) (j : Fin 64) : feedbackByte ct i j = ct[Fin.ofNat 32 j.val] := by
  by_cases h : i.val * 37 % 256 < 8
  · rw [feedbackByte, if_pos h, feedback_shift_eq_zero i h, shl8, BitVec.shiftLeft_zero]
    rfl
  · rw [feedbackByte, if_neg h]
    rfl

theorem feedbackRegs_eq_fedBack (ct : Vector Byte 32) (rs : Regs) : feedbackRegs ct rs = fedBack ct rs := by
  simp only [feedbackRegs, fedBack, feedbackByte_eq]

theorem getElem_fedBack (ct : Vector Byte 32) (rs : Regs) (i : Fin 7) (j : Fin 64) :
    ((fedBack ct rs)[i])[j] = (rs[i])[j] ^^^ ct[Fin.ofNat 32 j.val] := by
  simp [fedBack]

/-- Two feedbacks of one block cancel, byte by byte. -/
theorem fedBack_fedBack (ct : Vector Byte 32) (rs : Regs) : fedBack ct (fedBack ct rs) = rs := by
  have byte (i : Fin 7) (j : Fin 64) : ((fedBack ct (fedBack ct rs))[i])[j] = (rs[i])[j] := by
    rw [getElem_fedBack, getElem_fedBack, BitVec.xor_assoc, BitVec.xor_self, BitVec.xor_zero]
  exact Vector.ext fun i hi => Vector.ext fun j hj => byte ⟨i, hi⟩ ⟨j, hj⟩

/-! ## FEEDBACK (R226) -/

theorem exec_feedback_eq_next {s t : State} : exec .feedback s = .next t ↔
    ∃ ct : Vector Byte 32, s.readBuffer doutBase 32 = .ok ct ∧ t = s.setRegs (fedBack ct s.regs) := by
  have body : exec .feedback s = answer (feedbackBody s) := rfl
  simp only [body, answer_eq_next, feedbackBody_eq_ok, feedbackRegs_eq_fedBack]

/-- Of the window, new registers show in the bytes of R alone (R74). -/
theorem sameBytes_setRegs (s : State) (rs : Regs) : SameBytes (Outside 0x0100 448) s (s.setRegs rs) := by
  intro x hx
  unfold Outside at hx
  refine busByte_congr rfl (fun hr => ?_) (fun _ => rfl) fun _ => rfl
  have inside := regionOf_eq_some.1 hr
  omega

end Sys2Proof.Machine

namespace Sys2Proof.Proofs
open Sys2Proof.Machine Sys2Proof.Claim

/-- Settles O29: DOUT is read whole, and the shift path of R225 changes none of its bytes. -/
theorem feedbackXorsTheBlock : Obligations.FeedbackXorsTheBlock := by
  intro s ct hdout
  exact ⟨_, exec_feedback_eq_next.2 ⟨ct, holds_dout.1 hdout, rfl⟩, getElem_fedBack ct s.regs, rfl, rfl, sameBytes_setRegs s _⟩

/-- Settles O30: FEEDBACK leaves DOUT alone, so the second one XORs the same block in again. -/
theorem feedbackTwiceRestores : Obligations.FeedbackTwiceRestores := by
  intro s t ht
  obtain ⟨ct, hct, rfl⟩ := exec_feedback_eq_next.1 ht
  have dout : (s.setRegs (fedBack ct s.regs)).readBuffer doutBase 32 = .ok ct := hct ▸ State.readBuffer_congr fun _ _ => rfl
  exact ⟨_, exec_feedback_eq_next.2 ⟨ct, dout, rfl⟩, fedBack_fedBack ct s.regs⟩

end Sys2Proof.Proofs
end

section
/-! PROOFS. The block sequencer (45_block_sequencer.md): LOADKM's fresh registers, BLOCK as its five commands and as the pipeline of the
reference, and the second BLOCK, which has the keystream and the input block of the first. -/

namespace Sys2Proof.Machine
open Sys2Proof.Claim

/-! ## The window outside what BLOCK writes -/

/-- A byte of the window reads as before if RAM holds the same there and it lies in none of R, ACC, ACCSUM and, where RSKIP has changed,
STATUS. -/
theorem busByte_of_block_frame {s t : State}
    (frame : t = { s with regs := t.regs, regMarks := t.regMarks, acc := t.acc, accsum := t.accsum, mem := t.mem
                          rskip := t.rskip, hashRequests := t.hashRequests })
    {a : Nat} (bytes : Memory.get? t.mem a = Memory.get? s.mem a) (reg : Outside 0x0100 448 a) (acc : Outside 0x0300 128 a)
    (sum : Outside 0x0030 8 a) (status : a = 0x0004 → t.rskip = s.rskip) : t.busByte a = s.busByte a := by
  have cipher := sameBytes_of_cipher_frame (s := { s with acc := t.acc, mem := t.mem, hashRequests := t.hashRequests }) frame a
    ⟨reg, sum, status⟩
  have not_acc : regionOf a ≠ some .acc := fun h => by
    have inside := regionOf_eq_some.1 h
    unfold Outside at acc
    omega
  exact cipher.trans (busByte_congr bytes (fun _ => rfl) (fun h => absurd h not_acc) fun _ => rfl)

/-! ## LOADKM (R33, R235) -/

/-- KM lies inside RAM (R73). -/
theorem holds_km {s : State} {v : Vector Byte 448} : Holds s 0x0400 v ↔ s.readBuffer kmBase 448 = .ok v :=
  holds_iff_readBuffer fun _ _ => ramByte_iff.2 (by omega)

theorem regsOfKm_eq_slices (km : Vector Byte 448) : regsOfKm km = slices km := by
  have byte (i : Fin 7) (j : Fin 64) : km[64 * i.val + j.val]'(by omega) = km[Fin.ofNat 448 (64 * i.val + j.val)] := by
    simp only [Fin.getElem_fin, Fin.val_ofNat, Nat.mod_eq_of_lt (show 64 * i.val + j.val < 448 by omega)]
  simp only [regsOfKm, slices, byte]

theorem getElem_slices (km : Vector Byte 448) (i : Fin 7) (j : Fin 64) :
    ((slices km)[i])[j] = km[Fin.ofNat 448 (64 * i.val + j.val)] := by
  simp [slices]

/-- The state of a fresh block: registers from KM, ACC and ACCSUM zero (R33). -/
def State.freshBlock (s : State) (km : Vector Byte 448) : State :=
  { s with regs := slices km, regMarks := allMarked, acc := Vector.replicate 128 0#8, accsum := 0#64 }

theorem loadkmBody_of_read {s : State} {km : Vector Byte 448} (h : s.readBuffer kmBase 448 = .ok km) :
    loadkmBody s = .ok (s.freshBlock km) :=
  loadkmBody_eq_ok.2 ⟨km, h, by rw [regsOfKm_eq_slices]; rfl⟩

/-! ## BLOCK as five commands (R238) -/

/-- A command that is a body, and commands after it that are another: together they are the two bodies in sequence. -/
theorem execAll_cons_of_bodies {i : Instr} {is : List Instr} {s : State} {x : Except Fault State} {f : State → Except Fault State}
    (head : exec i s = answer x) (tail : ∀ t, x = .ok t → execAll is t = answer (f t)) :
    execAll (i :: is) s = answer (x >>= f) := by
  rw [execAll, head]
  cases x with
  | ok t => exact tail t rfl
  | error e => rfl

theorem execAll_singleton (i : Instr) (s : State) : execAll [i] s = exec i s := by
  rw [execAll]
  cases exec i s <;> rfl

/-! ## BLOCK as the pipeline (R236) -/

/-- Some round is not valid exactly when one of the two lengths falls short of 24 rounds. -/
theorem validRounds_lt_iff {s : State} : validRounds s < 24 ↔ s.sbLen.toNat < 6144 ∨ s.rkLen.toNat < 1536 := by
  rw [validRounds]
  omega

/-- The state of a block whose rounds have run, before its keystream is made. -/
def State.mixedBlock (s : State) (T : Tables) (km : Vector Byte 448) : State :=
  { s with
    regs := (refMix T (validRounds s) (slices km, 0#64)).1
    regMarks := allMarked
    acc := Vector.replicate 128 0#8
    accsum := (refMix T (validRounds s) (slices km, 0#64)).2
    rskip := s.rskip || decide (s.sbLen.toNat < 6144 ∨ s.rkLen.toNat < 1536) }

/-- The rounds of a fresh block read the tables of the state before it. -/
theorem mixBody_freshBlock {s : State} {T : Tables} (h : ∀ r, r < 24 → s.roundValid r = true → RoundReads s T r)
    (km : Vector Byte 448) : mixBody (s.freshBlock km) = .ok (s.mixedBlock T km) := by
  have reads : ∀ r, r < 24 → (s.freshBlock km).roundValid r = true → RoundReads (s.freshBlock km) T r := fun r hr hv => by
    obtain ⟨count, sel, kc, key, sbox⟩ := h r hr hv
    exact ⟨count, sel, kc, key, sbox⟩
  have marks : ((s.freshBlock km).afterRounds T (validRounds s)).regMarks = allMarked := ite_self _
  rw [mixBody_of_reads reads, State.mixedBlock, ← marks]
  simp only [validRounds_lt_iff]
  rfl

theorem ksMessage_mixedBlock (s : State) (T : Tables) (km : Vector Byte 448) : (s.mixedBlock T km).ksMessage
    = message (refMix T (validRounds s) (slices km, 0#64)).1 (List.replicate 128 0#8) s.blkIdx :=
  ksMessage_eq_message _

/-- The three last parts of a BLOCK change the registers by its output, and besides RAM the list of requests alone. -/
theorem frame_of_ksgen_xorks_feedback {s s3 s4 t : State} {din ks : Vector Byte 32} (h3 : ksgenBody s = .ok s3)
    (h4 : xorksBody s3 = .ok s4) (h5 : feedbackBody s4 = .ok t) (keyed : Keyed t din ks) :
    t = { s with regs := fedBack (xorBlock din ks) s.regs, regMarks := allMarked, mem := t.mem
                 hashRequests := ⟨s.ksMessage, 32⟩ :: s.hashRequests } := by
  obtain ⟨m, rfl⟩ : ∃ m, s4 = { s with mem := m, hashRequests := ⟨s.ksMessage, 32⟩ :: s.hashRequests } := by
    obtain ⟨_, _, -, -, rfl⟩ := xorksBody_eq_ok.1 h4
    obtain ⟨-, rfl⟩ := ksgenBody_eq_ok.1 h3
    exact ⟨_, rfl⟩
  obtain ⟨ct, hct, rfl⟩ := feedbackBody_eq_ok.1 h5
  obtain rfl : ct = xorBlock din ks := Except.ok.inj (hct.symm.trans keyed.output)
  rw [feedbackRegs_eq_fedBack]
  rfl

/-! ## BLOCK again (R236) -/

/-- No command writes DIN. -/
theorem Effect.readBuffer_din {s t : State} (e : Effect s t) : t.readBuffer dinBase 32 = s.readBuffer dinBase 32 :=
  State.readBuffer_congr fun i hi => e.bytes _ (.inl (by simp only [dinBase, doutBase]; omega))

/-- A BLOCK that completes has read DIN, which none of its parts before XORKS writes. -/
theorem exists_din_of_blockBody {s t : State} (h : blockBody s = .ok t) : ∃ din, s.readBuffer dinBase 32 = .ok din := by
  obtain ⟨s1, s2, s3, s4, h1, h2, h3, h4, -⟩ := blockBody_eq_ok.1 h
  obtain ⟨din, _, hdin, -, -⟩ := xorksBody_eq_ok.1 h4
  have before : Effect s s3 :=
    ((loadkmBody_effect h1).trans (effect_of_cipher_frame (mixBody_frame h2))).trans (ksgenBody_effect h3)
  exact ⟨din, before.readBuffer_din.symm.trans hdin⟩

/-- Two states that hold the same keystream and the same output read the same in DOUT and KS. -/
theorem Keyed.sameBytes {s t : State} {din ks : Vector Byte 32} (h : Keyed s din ks) (k : Keyed t din ks) :
    SameBytes (fun a => 0x0060 ≤ a ∧ a < 0x00A0) s t := by
  rintro a ⟨low, high⟩
  by_cases hd : a < 0x0080
  · obtain ⟨j, rfl⟩ : ∃ j : Fin 32, a = 0x0060 + j.val := ⟨⟨a - 0x0060, by omega⟩, by simp only; omega⟩
    rw [holds_dout.2 h.output j, holds_dout.2 k.output j]
  · obtain ⟨j, rfl⟩ : ∃ j : Fin 32, a = 0x0080 + j.val := ⟨⟨a - 0x0080, by omega⟩, by simp only; omega⟩
    rw [holds_ks.2 h.keystream j, holds_ks.2 k.keystream j]

end Sys2Proof.Machine

namespace Sys2Proof.Proofs
open Sys2Proof.Machine Sys2Proof.Claim

/-- Settles O8: the word of NOP decodes to it, and opcode 0 is reserved. -/
theorem nopChangesNothing : Obligations.NopChangesNothing := by
  intro s
  exact ⟨rfl, runCommand_of_ok (decodeEncodeRoundTrip .nop) s, (reservedWordsRaiseErrors 0x00000000#32 s).1 (.inl rfl)⟩

/-- Settles O31: KM is read whole, and the fresh block changes registers, ACC and ACCSUM alone. -/
theorem loadkmBuildsFreshState : Obligations.LoadkmBuildsFreshState := by
  intro s km hkm
  have run : exec .loadkm s = .next (s.freshBlock km) := answer_eq_next.2 (loadkmBody_of_read (holds_km.1 hkm))
  refine ⟨_, run, getElem_slices km, fun k => Vector.getElem_replicate k.isLt, rfl, rfl, rfl, ?_⟩
  exact fun a ⟨reg, acc, sum⟩ => busByte_of_block_frame rfl rfl reg acc sum fun _ => rfl

/-- Settles O33: each command is its body, MIX24 too, since LOADKM leaves what the table checks read. -/
theorem blockIsTheFiveCommands : Obligations.BlockIsTheFiveCommands := by
  intro s checks
  rw [exec_block_of_checks checks]
  refine (execAll_cons_of_bodies rfl fun s1 h1 => ?_).symm
  refine execAll_cons_of_bodies (exec_mix24_of_checks ((loadkmBody_effect h1).sameInputs.tableChecksPass checks)) fun s2 _ => ?_
  exact execAll_cons_of_bodies rfl fun s3 _ => execAll_cons_of_bodies rfl fun s4 _ => execAll_singleton .feedback s4

/-- Settles O32: the fresh block's rounds are the reference's, KSGEN hashes the mixed registers, and XORKS and FEEDBACK use its
answer. -/
theorem blockComputesThePipeline : Obligations.BlockComputesThePipeline := by
  intro s T km din checks answers tables selectors hkm hdin
  have h1 := loadkmBody_of_read (holds_km.1 hkm)
  have h2 : mixBody (s.freshBlock km) = .ok (s.mixedBlock T km) := mixBody_freshBlock (fun r hr hv =>
    roundReads_of_tables hr checks.1 (tables r hr (roundValid_iff.1 hv)) selectors) km
  obtain ⟨s3, s4, t, h3, h4, h5, keyed⟩ := exists_ksgen_xorks_feedback (s := s.mixedBlock T km) answers (holds_din.1 hdin :)
  have body : blockBody s = .ok t := blockBody_eq_ok.2 ⟨_, _, s3, s4, h1, h2, h3, h4, h5⟩
  have frame := frame_of_ksgen_xorks_feedback h3 h4 h5 keyed
  rw [ksMessage_mixedBlock] at keyed frame
  refine ⟨t, by rw [exec_block_of_checks checks, body, answer_ok], holds_ks.2 keyed.keystream, holds_dout.2 keyed.output,
    congrArg State.regs frame, congrArg State.accsum frame, congrArg State.rskip frame, congrArg State.hashRequests frame, ?_, ?_⟩
  · rw [frame]
    rfl
  · rintro a ⟨buffers, reg, acc, sum, status⟩
    refine busByte_of_block_frame ?_ ((blockBody_effect body).bytes a buffers) reg acc sum fun h => absurd h status
    rw [frame]
    rfl

/-- Settles O34: the first BLOCK changes neither DIN nor another input, so the second has its keystream and its output. -/
theorem blockRepeatsItsOutput : Obligations.BlockRepeatsItsOutput := by
  intro s t checks ht
  rw [exec_block_of_checks checks, answer_eq_next] at ht
  have effect := blockBody_effect ht
  obtain ⟨din, hdin⟩ := exists_din_of_blockBody ht
  obtain ⟨ks, blocks⟩ := exists_keystream_of_blockBody ht
  obtain ⟨t', ht', first⟩ := blocks s din (.refl s) hdin
  obtain rfl : t = t' := Except.ok.inj (ht.symm.trans ht')
  obtain ⟨u, hu, second⟩ := blocks t din effect.sameInputs (effect.readBuffer_din.trans hdin)
  exact ⟨u, by rw [exec_block_of_checks (effect.sameInputs.tableChecksPass checks), hu, answer_ok], first.sameBytes second⟩

end Sys2Proof.Proofs
end

section
/-! PROOFS. Selector ordering (R252, R253): inserting keeps ties in their order, and a strict order sorts a list in one way only. -/

namespace Sys2Proof.Machine
open Sys2Proof.Claim

/-- Index u comes before index v: by priority, ties by place (R253). -/
def Before (ps : List Nat) (u v : Nat) : Prop := ps.getD u 0 < ps.getD v 0 ∨ (ps.getD u 0 = ps.getD v 0 ∧ u < v)

/-- The indices sorted by priority alone, as the selectors are. -/
def stableIndices (ps : List Nat) : List Nat := (List.range ps.length).insertionSort fun u v => ps.getD u 0 ≤ ps.getD v 0

/-- An index smaller than every index of a sorted list is inserted before those of its own priority. -/
theorem pairwise_before_orderedInsert {ps : List Nat} {u : Nat} {l : List Nat} (hl : l.Pairwise (Before ps))
    (hu : ∀ v ∈ l, u < v) : (l.orderedInsert (fun u v => ps.getD u 0 ≤ ps.getD v 0) u).Pairwise (Before ps) := by
  induction l with
  | nil => exact List.pairwise_singleton _ u
  | cons v l ih =>
    obtain ⟨hv, hl'⟩ := List.pairwise_cons.1 hl
    obtain ⟨huv, hul⟩ := List.forall_mem_cons.1 hu
    rw [List.orderedInsert_cons]
    split
    · next hle =>
      have first : Before ps u v := (Nat.lt_or_eq_of_le hle).imp_right fun he => ⟨he, huv⟩
      refine List.pairwise_cons.2 ⟨List.forall_mem_cons.2 ⟨first, fun w hw => ?_⟩, hl⟩
      have := hv w hw
      unfold Before at *
      omega
    · next hgt =>
      refine List.pairwise_cons.2 ⟨fun w hw => ?_, ih hl' hul⟩
      rcases (List.mem_orderedInsert _).1 hw with rfl | hw
      · exact .inl (Nat.lt_of_not_le hgt)
      · exact hv w hw

theorem stablePerm_stableIndices (ps : List Nat) : StablePerm ps (stableIndices ps) := by
  refine ⟨List.perm_insertionSort _ _, ?_⟩
  have rising : (List.range ps.length).Pairwise (· < ·) := List.pairwise_lt_range
  unfold stableIndices
  revert rising
  induction List.range ps.length with
  | nil => exact fun _ => List.Pairwise.nil
  | cons u l ih =>
    intro rising
    obtain ⟨hu, hl⟩ := List.pairwise_cons.1 rising
    exact pairwise_before_orderedInsert (ih hl) fun v hv => hu v ((List.mem_insertionSort _).1 hv)

theorem stablePerm_unique {ps perm other : List Nat} (h : StablePerm ps perm) (k : StablePerm ps other) : other = perm :=
  (k.1.trans h.1.symm).eq_of_pairwise (fun u v _ _ huv hvu => by omega) k.2 h.2

/-- The selectors with their priorities are sorted as their indices are. -/
theorem stableOrder_eq_map {ps : List Nat} {sels : List (BitVec 16)} (h : ps.length = sels.length) :
    stableOrder ps sels = (stableIndices ps).map fun i => sels.getD i 0#16 := by
  have zip_eq : ps.zip sels = (List.range ps.length).map fun i => (ps.getD i 0, sels.getD i 0#16) :=
    List.ext_getElem (by simp [h]) fun i hi _ => by
      have hi : i < ps.length := by simp at hi; omega
      simp [hi, h ▸ hi]
  rw [stableOrder, zip_eq, stableIndices, ← List.map_insertionSort (fun u v => ps.getD u 0 ≤ ps.getD v 0)
    (fun x y : Nat × BitVec 16 => x.1 ≤ y.1) _ _ fun _ _ _ _ => Iff.rfl, List.map_map]
  rfl

theorem stableOrder_perm {ps : List Nat} {sels : List (BitVec 16)} (h : ps.length = sels.length) :
    (stableOrder ps sels).Perm sels := by
  have sorted := (List.perm_insertionSort (fun x y : Nat × BitVec 16 => x.1 ≤ y.1) (ps.zip sels)).map Prod.snd
  rwa [List.map_snd_zip h.ge] at sorted

end Sys2Proof.Machine

namespace Sys2Proof.Proofs
open Sys2Proof.Machine Sys2Proof.Claim

/-- Settles O57: the sorted indices are the one stable permutation. -/
theorem selectorOrderIsStable : Obligations.SelectorOrderIsStable := fun ps _ h =>
  ⟨stableOrder_perm h, stableIndices ps, stablePerm_stableIndices ps, fun _ => stablePerm_unique (stablePerm_stableIndices ps), stableOrder_eq_map h⟩

end Sys2Proof.Proofs
end

section
/-! PROOFS. What the host's accesses leave alone: no event changes what is pending, and each read answers once; from it the length of a
batch's output (R256). -/

namespace Sys2Proof.Machine

/-! ## The agents under one event -/

/-- The event is a read of the host. -/
def Event.isRead : Event → Bool
  | .access (.read _ _) => true
  | .access (.write _ _ _) => false
  | .reset => false
  | .hashEngine _ => false

theorem ErrorOrEffect.agents {s t : State} {r : Result} (h : ErrorOrEffect s r) (ht : r = .next t) :
    t.events = s.events ∧ t.answers = s.answers := by
  rcases h t ht with ⟨c, -, rfl⟩ | e
  · exact ⟨rfl, rfl⟩
  · rw [e.frame]
    exact ⟨rfl, rfl⟩

theorem busWriteBytes_agents (s : State) (a : Nat) (bs : List Byte) :
    (s.busWriteBytes a bs).events = s.events ∧ (s.busWriteBytes a bs).answers = s.answers := by
  induction bs generalizing s a with
  | nil => exact ⟨rfl, rfl⟩
  | cons b bs ih =>
    obtain ⟨-, -, -, events, answers, -⟩ := busWriteByte_frame s a b
    exact events ▸ answers ▸ ih (s.busWriteByte a b) (a + 1)

/-- A host access adds its answer, if it is a read, and leaves what is pending. -/
theorem performAccess_agents {a : Access} {s t : State} (h : performAccess a s = .next t) :
    t.events = s.events ∧ t.answers.length = s.answers.length + (Event.access a).isRead.toNat := by
  rcases performAccess_cases a s with ⟨c, -, e⟩ | ⟨-, ⟨addr, w, v, rfl, -, e⟩ | ⟨addr, w, f, -, -, e⟩ | ⟨w, v, rfl, e⟩ |
    ⟨addr, w, v, rfl, -, e⟩⟩ <;> rw [e] at h
  · cases h
    cases a <;> exact ⟨rfl, rfl⟩
  · cases h
    exact ⟨rfl, rfl⟩
  · cases h
  · obtain ⟨events, answers⟩ := (runCommand_errorOrEffect v s).agents h
    exact ⟨events, congrArg List.length answers⟩
  · cases h
    obtain ⟨events, answers⟩ := busWriteBytes_agents s addr.toNat (bytesLE w.bytes v)
    exact ⟨events, congrArg List.length answers⟩

theorem performEvent_agents {e : Event} {s t : State} (h : performEvent e s = .next t) :
    t.events = s.events ∧ t.answers.length = s.answers.length + e.isRead.toNat := by
  rcases performEvent_cases e s with ⟨a, rfl, he⟩ | ⟨rfl, he⟩ | ⟨b, rfl, he⟩ <;> rw [he] at h
  · exact performAccess_agents h
  · cases h
    exact ⟨rfl, rfl⟩
  · cases h
    exact ⟨rfl, rfl⟩

/-- Where the events are what is pending already, they are the next steps. -/
theorem runEvents_of_pending {es : List Event} {s : State} (h : s.events = es) : runEvents es s = runSteps es.length s := by
  subst h
  rfl

/-- A run that ends has an answer for each of its reads. -/
theorem length_answers_of_runEvents {es : List Event} {s t : State} (h : runEvents es s = .next t) :
    t.answers.length = s.answers.length + es.countP Event.isRead := by
  induction es generalizing s with
  | nil =>
    cases h
    rfl
  | cons e es ih =>
    rw [runEvents_cons] at h
    obtain ⟨u, hu, rest⟩ := thenRun_eq_next.1 h
    obtain ⟨events, answers⟩ := performEvent_agents hu
    rw [ih ((runEvents_of_pending events).trans rest), answers, List.countP_cons]
    cases e.isRead
    · rfl
    · simp only [Bool.toNat_true, if_true]
      omega

/-! ## The reads of a batch -/

theorem countP_writeEvents (a : Nat) (bs : List Byte) : (writeEvents a bs).countP Event.isRead = 0 := by
  induction bs generalizing a with
  | nil => rfl
  | cons b bs ih => exact ih (a + 1)

theorem countP_readEvents (a n : Nat) : (readEvents a n).countP Event.isRead = n := by
  induction n generalizing a with
  | zero => rfl
  | succ n ih => exact (List.countP_cons_of_pos rfl).trans (congrArg Nat.succ (ih (a + 1)))

theorem countP_loadEvents (x : BatchArgs) (strict : Bool) : (x.loadEvents strict).countP Event.isRead = 0 := by
  simp [BatchArgs.loadEvents, countP_writeEvents, writeWord, Event.isRead]

theorem countP_commandEvents (x : BatchArgs) (p : Nat) : (x.commandEvents p).countP Event.isRead = 0 := by
  simp [BatchArgs.commandEvents, countP_writeEvents, writeWord, commandWrite, Event.isRead]

theorem countP_blockEvents (x : BatchArgs) : x.blockEvents.countP Event.isRead = x.blocks * 32 := by
  have block : List.countP Event.isRead ∘ (fun p => x.commandEvents p ++ outputEvents) = fun _ => 32 := funext fun p => by
    rw [Function.comp_apply, List.countP_append, countP_commandEvents, outputEvents, countP_readEvents]
  simp [BatchArgs.blockEvents, List.countP_flatten, block]

end Sys2Proof.Machine

namespace Sys2Proof.Proofs
open Sys2Proof.Machine

/-- Settles O58: the output is one byte for each read, and only the 32 reads of each block's DOUT are reads. -/
theorem batchOutputLength : Obligations.BatchOutputLength := by
  intro x s out h
  unfold encryptBatch at h
  split at h
  · obtain ⟨r, hr, hout⟩ := thenRun_eq_next.1 (Option.some.inj h)
    obtain ⟨t, run, rfl⟩ := ask_eq_next.1 hr
    cases hout
    calc (bytesOf t.answers.reverse).length = t.answers.length := by simp [bytesOf]
      _ = 0 + (x.loadEvents false ++ x.blockEvents).countP Event.isRead := length_answers_of_runEvents run
      _ = x.plaintext.length / 32 * 32 := by
        rw [List.countP_append, countP_loadEvents, countP_blockEvents, Nat.zero_add, Nat.zero_add, BatchArgs.blocks]
  · cases h

end Sys2Proof.Proofs
end

section
/-! PROOFS. Runs of host accesses put together: events that lead to one state whatever is pending after them, events that lead to some state
of a kind, and the accesses of a batch one by one: bytes written, control registers written, bytes and STATUS read. -/

namespace Sys2Proof.Machine
open Sys2Proof.Claim

/-! ## Parts of a run -/

/-- Whatever is pending after them, the events lead from `s` to `t`. -/
def Performs (es : List Event) (s t : State) : Prop :=
  ∀ rest, runSteps es.length { s with events := es ++ rest } = .next { t with events := rest }

/-- Whatever is pending after them, the events lead from `s` to a state with `Q`, and leave it pending. -/
def Reaches (es : List Event) (s : State) (Q : State → Prop) : Prop :=
  ∀ rest, ∃ t, runSteps es.length { s with events := es ++ rest } = .next t ∧ t.events = rest ∧ Q t

theorem performs_singleton {e : Event} {s t : State}
    (h : ∀ rest, performEvent e { s with events := rest } = .next { t with events := rest }) : Performs [e] s t := fun rest => by
  rw [List.length_singleton, runSteps_succ]
  exact congrArg (thenRun · (runSteps 0)) (h rest)

theorem reaches_singleton {e : Event} {s : State} {Q : State → Prop}
    (h : ∀ rest, ∃ t, performEvent e { s with events := rest } = .next t ∧ Q t) : Reaches [e] s Q := fun rest => by
  obtain ⟨t, ht, q⟩ := h rest
  refine ⟨t, ?_, (performEvent_agents ht).1, q⟩
  rw [List.length_singleton, runSteps_succ]
  exact congrArg (thenRun · (runSteps 0)) ht

theorem Performs.append {es fs : List Event} {s t u : State} (h : Performs es s t) (k : Performs fs t u) :
    Performs (es ++ fs) s u := fun rest => by
  rw [List.length_append, runSteps_add, List.append_assoc, h (fs ++ rest), thenRun_next, k rest]

theorem Performs.append_reaches {es fs : List Event} {s t : State} {Q : State → Prop} (h : Performs es s t)
    (k : Reaches fs t Q) : Reaches (es ++ fs) s Q := fun rest => by
  rw [List.length_append, runSteps_add, List.append_assoc, h (fs ++ rest), thenRun_next]
  exact k rest

theorem Reaches.append {es fs : List Event} {s : State} {P Q : State → Prop} (h : Reaches es s P)
    (k : ∀ t, P t → Reaches fs t Q) : Reaches (es ++ fs) s Q := fun rest => by
  obtain ⟨t, ht, events, p⟩ := h (fs ++ rest)
  rw [List.length_append, runSteps_add, List.append_assoc, ht, thenRun_next]
  simpa only [← events] using k t p rest

theorem Performs.reaches {es : List Event} {s t : State} {Q : State → Prop} (h : Performs es s t)
    (q : ∀ rest, Q { t with events := rest }) : Reaches es s Q := fun rest => ⟨_, h rest, rfl, q rest⟩

theorem Reaches.imp {es : List Event} {s : State} {P Q : State → Prop} (h : Reaches es s P) (f : ∀ t, P t → Q t) :
    Reaches es s Q := fun rest => by
  obtain ⟨t, ht, events, p⟩ := h rest
  exact ⟨t, ht, events, f t p⟩

theorem reaches_nil {s : State} {Q : State → Prop} (q : ∀ rest, Q { s with events := rest }) : Reaches [] s Q :=
  fun rest => ⟨_, rfl, rfl, q rest⟩

/-- A part of a procedure that reaches `Q` from no answers ends, with the answers of that state. -/
theorem Reaches.ask {es : List Event} {s : State} {Q : State → Prop} (h : Reaches es { s with answers := [] } Q) :
    ∃ t, ask es s = .next (t.answers.reverse, t) ∧ Q t := by
  obtain ⟨t, ht, -, q⟩ := h []
  rw [List.append_nil] at ht
  exact ⟨t, ask_eq_next.2 ⟨t, ht, rfl⟩, q⟩

/-! ## Bytes written -/

/-- An address of a region lies in a row of the map. -/
theorem exists_row_of_regionOf {a : Nat} {r : Region} (h : regionOf a = some r) : ∃ row ∈ addressMap, row.holds a = true := by
  obtain ⟨row, hrow, -⟩ := Option.map_eq_some_iff.1 h
  exact ⟨row, List.mem_of_find?_eq_some hrow, List.find?_some (p := fun row : RegionRow => row.holds a) hrow⟩

/-- A byte only the host writes is one that a one-byte write may touch. -/
theorem busCheck_write_hostOnly {a : Nat} (h : HostOnly a) (v : BitVec 32) :
    busCheck (.write (BitVec.ofNat 16 a) .w8 v) = none := by
  have range := ramByte_iff.1 (ramByte_of_hostOnly h).1
  have hm := maxSel_le
  have ha : (BitVec.ofNat 16 a).toNat = a := by rw [BitVec.toNat_ofNat, Nat.mod_eq_of_lt (by omega)]
  obtain ⟨⟨row, hrow, holds⟩, writable⟩ : (∃ row ∈ addressMap, row.holds a = true) ∧ readOnly a = false := by
    rcases h with h | h | h | h | h | h <;> exact ⟨exists_row_of_regionOf h, by simp only [readOnly, h]⟩
  rw [busCheck_write_eq_none, ha]
  refine ⟨Nat.mod_one a, mapped_iff.2 ⟨row, hrow, fun k hk => Nat.lt_one_iff.1 hk ▸ holds⟩, fun hc => ?_, ?_⟩
  · simp only [touchesCmd, Width.bytes, List.range_one, List.any_cons, List.any_nil, Bool.or_false, decide_eq_true_eq] at hc
    omega
  · simp [touchesReadOnly, Width.bytes, writable]

theorem performEvent_writeByte {a : Nat} (h : HostOnly a) (s : State) (b : Byte) :
    performEvent (.access (.write (BitVec.ofNat 16 a) .w8 (b.setWidth 32))) s = .next { s with mem := Memory.set s.mem a b } := by
  have range := ramByte_iff.1 (ramByte_of_hostOnly h).1
  have hm := maxSel_le
  have ha : (BitVec.ofNat 16 a).toNat = a := by rw [BitVec.toNat_ofNat, Nat.mod_eq_of_lt (by omega)]
  have byte : byteOf (b.setWidth 32) 0 = b := by rw [byteOf_zero, BitVec.setWidth_setWidth_of_le _ (by decide), BitVec.setWidth_eq]
  rw [performEvent, performAccess_write (busCheck_write_hostOnly h _) (by omega), ha, ← busWriteByte_hostOnly h]
  exact congrArg (fun c => Host.Outcome.next (s.busWriteByte a c)) byte

theorem performs_writeByte {a : Nat} (h : HostOnly a) (s : State) (b : Byte) :
    Performs [.access (.write (BitVec.ofNat 16 a) .w8 (b.setWidth 32))] s { s with mem := Memory.set s.mem a b } :=
  performs_singleton fun _ => performEvent_writeByte h _ b

/-- Consecutive bytes of RAM written. -/
def State.storeBytes (s : State) (a : Nat) (bs : List Byte) : State := { s with mem := Memory.setList s.mem a bs }

/-- Byte writes of a list into RAM that the host may write. -/
theorem performs_writeEvents {a : Nat} {bs : List Byte} (h : ∀ k, k < bs.length → HostOnly (a + k)) (s : State) :
    Performs (writeEvents a bs) s (s.storeBytes a bs) := by
  induction bs generalizing a s with
  | nil => exact fun rest => rfl
  | cons b bs ih =>
    refine (performs_writeByte (h 0 (Nat.succ_pos _)) s b).append (ih (fun k hk => ?_) _)
    rw [Nat.add_assoc, Nat.add_comm 1]
    exact h (k + 1) (Nat.succ_lt_succ hk)

/-! ## Control registers written and STATUS read -/

/-- The words that a batch writes to CTRL, the counts, the lengths and the two halves of BLKIDX. -/
theorem performs_writeWord (s : State) (v : BitVec 32) :
    Performs [writeWord 0x08 v] s { s with strict := v.getLsbD 0 }
      ∧ Performs [writeWord 0x10 v] s { s with selCount := v.setWidth 16 }
      ∧ Performs [writeWord 0x14 v] s { s with kcCount := v.setWidth 16 }
      ∧ Performs [writeWord 0x18 v] s { s with sbLen := v.setWidth 16 }
      ∧ Performs [writeWord 0x1C v] s { s with rkLen := v.setWidth 16 }
      ∧ Performs [writeWord 0x20 v] s { s with blkIdx := s.blkIdx.extractLsb' 32 32 ++ v }
      ∧ Performs [writeWord 0x24 v] s { s with blkIdx := v ++ s.blkIdx.extractLsb' 0 32 } := by
  have writes := fun rest => Proofs.controlRegisterWrites { s with events := rest } v
  simp only [forall_and] at writes
  obtain ⟨strict, selCount, kcCount, sbLen, rkLen, low, high, -⟩ := writes
  exact ⟨performs_singleton strict, performs_singleton selCount, performs_singleton kcCount, performs_singleton sbLen,
    performs_singleton rkLen, performs_singleton low, performs_singleton high⟩

/-- SB_LEN, RK_LEN and CTRL written. -/
def State.withLengths (s : State) (sbLen rkLen : BitVec 16) (strict : Bool) : State :=
  { s with sbLen := sbLen, rkLen := rkLen, strict := strict }

/-- SEL_COUNT written. -/
def State.withSelCount (s : State) (n : BitVec 16) : State := { s with selCount := n }

/-- KC_COUNT and BLKIDX written. -/
def State.withKcCount (s : State) (n : BitVec 16) (b : BitVec 64) : State := { s with kcCount := n, blkIdx := b }

/-- A 16-bit field takes the low half of a number written to it. -/
theorem setWidth_ofNat_half (n : Nat) : (BitVec.ofNat 32 n).setWidth 16 = BitVec.ofNat 16 n :=
  BitVec.setWidth_ofNat_of_le (by decide) n

theorem performs_writeLengths (s : State) (m n : Nat) (strict : Bool) :
    Performs [writeWord 0x18 (BitVec.ofNat 32 m), writeWord 0x1C (BitVec.ofNat 32 n), writeWord 0x08 (if strict then 1#32 else 0#32)] s
      (s.withLengths (BitVec.ofNat 16 m) (BitVec.ofNat 16 n) strict) := by
  have bit : (if strict then 1#32 else 0#32).getLsbD 0 = strict := by cases strict <;> rfl
  obtain ⟨-, -, -, sbLen, -⟩ := performs_writeWord s (BitVec.ofNat 32 m)
  obtain ⟨-, -, -, -, rkLen, -⟩ := performs_writeWord { s with sbLen := BitVec.ofNat 16 m } (BitVec.ofNat 32 n)
  obtain ⟨ctrl, -⟩ :=
    performs_writeWord { s with sbLen := BitVec.ofNat 16 m, rkLen := BitVec.ofNat 16 n } (if strict then 1#32 else 0#32)
  rw [setWidth_ofNat_half] at sbLen rkLen
  rw [bit] at ctrl
  exact (sbLen.append rkLen).append ctrl

theorem performs_writeSelCount (s : State) (n : Nat) :
    Performs [writeWord 0x10 (BitVec.ofNat 32 n)] s (s.withSelCount (BitVec.ofNat 16 n)) := by
  obtain ⟨-, selCount, -⟩ := performs_writeWord s (BitVec.ofNat 32 n)
  rwa [setWidth_ofNat_half] at selCount

/-- The two words of BLKIDX. -/
theorem performs_writeBlkIdx (s : State) (b : BitVec 64) :
    Performs [writeWord 0x20 (b.extractLsb' 0 32), writeWord 0x24 (b.extractLsb' 32 32)] s { s with blkIdx := b } := by
  have words : b.extractLsb' 32 32 ++ (s.blkIdx.extractLsb' 32 32 ++ b.extractLsb' 0 32).extractLsb' 0 32 = b := by
    refine BitVec.eq_of_getLsbD_eq fun i hi => ?_
    rw [BitVec.getLsbD_append, BitVec.getLsbD_extractLsb', BitVec.getLsbD_extractLsb', BitVec.getLsbD_append]
    by_cases h : i < 32
    · simp [h]
    · simp [h, show i - 32 < 32 by omega, show 32 + (i - 32) = i by omega]
  obtain ⟨-, -, -, -, -, low, -⟩ := performs_writeWord s (b.extractLsb' 0 32)
  obtain ⟨-, -, -, -, -, -, high⟩ := performs_writeWord
    { s with blkIdx := s.blkIdx.extractLsb' 32 32 ++ b.extractLsb' 0 32 } (b.extractLsb' 32 32)
  rw [words] at high
  exact low.append high

theorem performs_writeKcCount (s : State) (n : Nat) (b : BitVec 64) :
    Performs [writeWord 0x14 (BitVec.ofNat 32 n), writeWord 0x20 (b.extractLsb' 0 32), writeWord 0x24 (b.extractLsb' 32 32)] s
      (s.withKcCount (BitVec.ofNat 16 n) b) := by
  obtain ⟨-, -, kcCount, -⟩ := performs_writeWord s (BitVec.ofNat 32 n)
  rw [setWidth_ofNat_half] at kcCount
  exact kcCount.append (performs_writeBlkIdx { s with kcCount := BitVec.ofNat 16 n } b)

/-- STATUS with its three fields cleared. -/
def State.clearedStatus (s : State) : State := { s with err := false, errCode := .noError, rskip := false }

theorem statusWord_clearedStatus (s : State) : s.clearedStatus.statusWord = 0#32 := by
  simp only [State.statusWord, State.clearedStatus]
  decide

theorem statusWord_raiseError_clearedStatus (s : State) :
    (s.clearedStatus.raiseError .invalidInputSize).statusWord = 0x00000601#32 := by
  simp only [State.statusWord, State.raiseError, State.clearedStatus, Bool.false_eq_true, if_false]
  decide

/-- The write of STATUS that clears it whole (R313). -/
theorem performs_clearStatus (s : State) : Performs [writeWord 0x04 3#32] s s.clearedStatus := performs_singleton fun rest =>
  (Proofs.statusWriteOneToClear { s with events := rest } 3#32).trans (by simp [State.clearedStatus])

theorem performs_statusRead (s : State) : Performs [statusRead] s { s with answers := s.statusWord :: s.answers } :=
  performs_singleton fun rest => read_control (k := 1) { s with events := rest } (by decide)

/-! ## Bytes read -/

/-- The RAM holds these bytes from an address up. -/
def Memory.HoldsBytes (m : Memory) (a : Nat) (bs : List Byte) : Prop :=
  ∀ k (h : k < bs.length), Memory.get? m (a + k) = some bs[k]

theorem Memory.HoldsBytes.cons {m : Memory} {a : Nat} {b : Byte} {bs : List Byte} (h : Memory.HoldsBytes m a (b :: bs)) :
    Memory.get? m a = some b ∧ Memory.HoldsBytes m (a + 1) bs :=
  ⟨h 0 (Nat.succ_pos _), fun k hk => by
    rw [Nat.add_assoc, Nat.add_comm 1]
    exact h (k + 1) (Nat.succ_lt_succ hk)⟩

/-- The words that byte reads of these bytes answer, oldest first. -/
def answerWords (bs : List Byte) : List (BitVec 32) := bs.map fun b => 0#24 ++ b

theorem bytesOf_answerWords (bs : List Byte) : bytesOf (answerWords bs) = bs := by
  have byte (b : Byte) : (0#24 ++ b).setWidth 8 = b := BitVec.setWidth_append_eq_right
  simp [bytesOf, answerWords, Function.comp_def, byte]

theorem performs_readByte {s : State} {a : Nat} {b : Byte} (ram : ramByte a = true) (h : Memory.get? s.mem a = some b) :
    Performs [.access (.read (BitVec.ofNat 16 a) .w8)] s { s with answers := (0#24 ++ b) :: s.answers } := by
  have range := ramByte_iff.1 ram
  have hm := maxSel_le
  obtain ⟨r, hr⟩ : ∃ r, regionOf a = some r := by
    cases hr : regionOf a with
    | none => simp [ramByte, hr] at ram
    | some r => exact ⟨r, rfl⟩
  obtain ⟨row, hrow, holds⟩ := exists_row_of_regionOf hr
  refine performs_singleton fun rest => read_byte hrow holds (by omega) ?_
  rw [busByte_ram ram]
  exact State.readByte_eq_ok.2 h

/-- Byte reads of RAM answer the bytes it holds, the last one newest. -/
theorem performs_readEvents {s : State} {a : Nat} {bs : List Byte} (ram : ∀ k, k < bs.length → ramByte (a + k) = true)
    (h : Memory.HoldsBytes s.mem a bs) :
    Performs (readEvents a bs.length) s { s with answers := (answerWords bs).reverse ++ s.answers } := by
  induction bs generalizing a s with
  | nil => exact fun rest => rfl
  | cons b bs ih =>
    obtain ⟨byte, tail⟩ := h.cons
    have rest := ih (s := { s with answers := (0#24 ++ b) :: s.answers }) (a := a + 1) (fun k hk => by
      rw [Nat.add_assoc, Nat.add_comm 1]
      exact ram (k + 1) (Nat.succ_lt_succ hk)) tail
    have all := (performs_readByte (ram 0 (Nat.succ_pos _)) byte).append rest
    simpa [answerWords, readEvents] using all

/-- The read of the output block. -/
theorem performs_outputEvents {s : State} {v : Vector Byte 32} (h : Memory.HoldsBytes s.mem doutBase v.toList) :
    Performs outputEvents s { s with answers := (answerWords v.toList).reverse ++ s.answers } := by
  have block := performs_readEvents (fun k hk => ramByte_of_block (a := doutBase) (by decide) k (by simpa using hk)) h
  rwa [Vector.length_toList] at block

end Sys2Proof.Machine
end

section
/-! PROOFS. The accesses of a batch up to a BLOCK as one change of the state (R255, R258): the tables once, then the selectors, the key
constants, the counts, BLKIDX and DIN of a block; and what RAM and the control registers hold after them. -/

namespace Sys2Proof.Machine
open Sys2Proof.Claim

/-! ## Bytes held by RAM -/

theorem Memory.get?_setList_outside (m : Memory) {a x : Nat} {bs : List Byte} (h : x < a ∨ a + bs.length ≤ x) :
    Memory.get? (Memory.setList m a bs) x = Memory.get? m x := by
  rw [Memory.get?_setList, if_neg (by omega)]

theorem Memory.holdsBytes_setList (m : Memory) (a : Nat) (bs : List Byte) : Memory.HoldsBytes (Memory.setList m a bs) a bs :=
  fun k hk => by rw [Memory.get?_setList, if_pos (by omega), Nat.add_sub_cancel_left, List.getElem?_eq_getElem hk]

theorem Memory.HoldsBytes.congr {m m' : Memory} {a : Nat} {bs : List Byte} (h : Memory.HoldsBytes m a bs)
    (same : ∀ x, a ≤ x → x < a + bs.length → Memory.get? m' x = Memory.get? m x) : Memory.HoldsBytes m' a bs :=
  fun k hk => (same (a + k) (Nat.le_add_right a k) (by omega)).trans (h k hk)

/-- A write beside the bytes leaves them. -/
theorem Memory.HoldsBytes.setList {m : Memory} {a b : Nat} {bs cs : List Byte} (h : Memory.HoldsBytes m a bs)
    (apart : a + bs.length ≤ b ∨ b + cs.length ≤ a) : Memory.HoldsBytes (Memory.setList m b cs) a bs :=
  h.congr fun x lo hi => Memory.get?_setList_outside m (by omega)

/-- A part of the bytes stands at its own place. -/
theorem Memory.HoldsBytes.slice {m : Memory} {a : Nat} {bs : List Byte} (h : Memory.HoldsBytes m a bs) (i n : Nat) :
    Memory.HoldsBytes m (a + i) ((bs.drop i).take n) := fun k hk => by
  have hk' : i + k < bs.length := by simp at hk; omega
  rw [Nat.add_assoc, h (i + k) hk', List.getElem_take, List.getElem_drop]

/-- The bases of the regions that a batch loads (R73). -/
theorem base_addresses : dinBase = 0x40 ∧ doutBase = 0x60 ∧ kmBase = 0x400 ∧ rkBase = 0x800 ∧ sboxBase = 0x1000 ∧ selBase = 0x4000
    ∧ kcBase = 0x8000 := by decide

/-- The addresses of the RAM regions but DOUT and KS. -/
theorem hostOnly_iff {a : Nat} : HostOnly a ↔ (0x40 ≤ a ∧ a < 0x60) ∨ (0x400 ≤ a ∧ a < 0x5C0) ∨ (0x800 ≤ a ∧ a < 0xE00)
    ∨ (0x1000 ≤ a ∧ a < 0x2800) ∨ (0x4000 ≤ a ∧ a < 0x4000 + 2 * Config.maxSel)
    ∨ (0x8000 ≤ a ∧ a < 0x8000 + Config.maxSel) := by
  unfold HostOnly
  simp only [regionOf_eq_some]

/-! ## What a batch loads -/

/-- The host admits exactly 448 bytes of key material and lists that fit SEL. -/
theorem admitted_iff {x : BatchArgs} :
    x.admitted = true ↔ x.keyMaterial.length = 448 ∧ x.selectors.length ≤ Config.maxSel := by
  rw [BatchArgs.admitted, Bool.and_eq_true, beq_iff_eq, decide_eq_true_eq]

/-- SB_LEN of a batch. -/
def BatchArgs.sbLen (x : BatchArgs) : BitVec 16 := BitVec.ofNat 16 (min x.sboxes.length 65535)

/-- RK_LEN of a batch. -/
def BatchArgs.rkLen (x : BatchArgs) : BitVec 16 := BitVec.ofNat 16 (min x.roundKeys.length 65535)

/-- The selectors of block p, ordered. -/
def BatchArgs.order (x : BatchArgs) (p : Nat) : List (BitVec 16) := orderSelectors x.selectors x.key x.iv (x.blockIndex p)

/-- The bytes of SEL for block p. -/
def BatchArgs.selBytes (x : BatchArgs) (p : Nat) : List Byte := ((x.order p).map (bytesLE 2 ·)).flatten

/-- The bytes of KC for block p. -/
def BatchArgs.kcBytes (x : BatchArgs) (p : Nat) : List Byte := keyConstants (x.order p) x.key

/-- The bytes of DIN for block p. -/
def BatchArgs.dinBytes (x : BatchArgs) (p : Nat) : List Byte := (x.plaintext.drop (32 * p)).take 32

theorem toNat_sbLen (x : BatchArgs) : x.sbLen.toNat = min x.sboxes.length 65535 := by
  rw [BatchArgs.sbLen, BitVec.toNat_ofNat, Nat.mod_eq_of_lt (by omega)]

theorem toNat_rkLen (x : BatchArgs) : x.rkLen.toNat = min x.roundKeys.length 65535 := by
  rw [BatchArgs.rkLen, BitVec.toNat_ofNat, Nat.mod_eq_of_lt (by omega)]

theorem length_order (x : BatchArgs) (p : Nat) : (x.order p).length = x.selectors.length :=
  (stableOrder_perm (by simp [priorities])).length_eq

theorem length_selBytes (x : BatchArgs) (p : Nat) : (x.selBytes p).length = 2 * x.selectors.length := by
  simp [BatchArgs.selBytes, List.length_flatten, Function.comp_def, length_bytesLE, length_order, Nat.mul_comm]

theorem length_kcBytes (x : BatchArgs) (p : Nat) : (x.kcBytes p).length = x.selectors.length := by
  simp [BatchArgs.kcBytes, keyConstants, length_order]

theorem length_dinBytes {x : BatchArgs} {p : Nat} (hp : p < x.blocks) : (x.dinBytes p).length = 32 := by
  rw [BatchArgs.blocks] at hp
  simp only [BatchArgs.dinBytes, List.length_take, List.length_drop]
  omega

/-! ## The loading as one change of the state -/

/-- The tables, their lengths and CTRL loaded. -/
def State.loadTables (s : State) (x : BatchArgs) (strict : Bool) : State :=
  (((s.storeBytes kmBase x.keyMaterial).storeBytes sboxBase (x.sboxes.take 6144)).storeBytes rkBase
    (x.roundKeys.take 1536)).withLengths x.sbLen x.rkLen strict

/-- The inputs of block p loaded. -/
def State.loadBlock (s : State) (x : BatchArgs) (p : Nat) : State :=
  ((((s.storeBytes selBase (x.selBytes p)).withSelCount (BitVec.ofNat 16 x.selectors.length)).storeBytes kcBase
    (x.kcBytes p)).withKcCount (BitVec.ofNat 16 x.selectors.length) (x.blockIndex p)).storeBytes dinBase (x.dinBytes p)

/-- Loading a block writes RAM, the counts and BLKIDX. -/
theorem loadBlock_frame (s : State) (x : BatchArgs) (p : Nat) : ∃ m, s.loadBlock x p =
    { s with
      mem := m
      selCount := BitVec.ofNat 16 x.selectors.length
      kcCount := BitVec.ofNat 16 x.selectors.length
      blkIdx := x.blockIndex p } := by
  simp only [State.loadBlock, State.storeBytes, State.withSelCount, State.withKcCount]
  exact ⟨_, rfl⟩

/-- The accesses of block p before its command. -/
def BatchArgs.inputEvents (x : BatchArgs) (p : Nat) : List Event :=
  writeEvents selBase (x.selBytes p) ++ [writeWord 0x10 (BitVec.ofNat 32 x.selectors.length)]
    ++ writeEvents kcBase (x.kcBytes p)
    ++ [writeWord 0x14 (BitVec.ofNat 32 x.selectors.length), writeWord 0x20 ((x.blockIndex p).extractLsb' 0 32),
        writeWord 0x24 ((x.blockIndex p).extractLsb' 32 32)]
    ++ writeEvents dinBase (x.dinBytes p)

theorem commandEvents_eq (x : BatchArgs) (p : Nat) :
    x.commandEvents p = x.inputEvents p ++ [commandWrite 0x26000000#32] := rfl

theorem performs_loadEvents {x : BatchArgs} (adm : x.admitted = true) (strict : Bool) (s : State) :
    Performs (x.loadEvents strict) s (s.loadTables x strict) := by
  obtain ⟨km, -⟩ := admitted_iff.1 adm
  have sb : (x.sboxes.take 6144).length ≤ 6144 := List.length_take_le _ _
  have rk : (x.roundKeys.take 1536).length ≤ 1536 := List.length_take_le _ _
  have bases := base_addresses
  refine (((performs_writeEvents ?_ s).append (performs_writeEvents ?_ _)).append (performs_writeEvents ?_ _)).append
    (performs_writeLengths _ _ _ strict) <;> exact fun k hk => hostOnly_iff.2 (by omega)

theorem performs_inputEvents {x : BatchArgs} {p : Nat} (adm : x.admitted = true) (hp : p < x.blocks) (s : State) :
    Performs (x.inputEvents p) s (s.loadBlock x p) := by
  obtain ⟨-, count⟩ := admitted_iff.1 adm
  have sel := length_selBytes x p
  have kc := length_kcBytes x p
  have din := length_dinBytes hp
  have bases := base_addresses
  refine ((((performs_writeEvents ?_ s).append (performs_writeSelCount _ _)).append (performs_writeEvents ?_ _)).append
    (performs_writeKcCount _ _ _)).append (performs_writeEvents ?_ _) <;> exact fun k hk => hostOnly_iff.2 (by omega)

/-! ## What is loaded -/

/-- The tables of the batch stand in RAM, with their lengths, and CTRL as the batch has it. -/
structure TablesLoaded (x : BatchArgs) (strict : Bool) (s : State) : Prop where
  /-- KM. -/
  km : Memory.HoldsBytes s.mem kmBase x.keyMaterial
  /-- SBOX. -/
  sbox : Memory.HoldsBytes s.mem sboxBase (x.sboxes.take 6144)
  /-- RK. -/
  rk : Memory.HoldsBytes s.mem rkBase (x.roundKeys.take 1536)
  /-- SB_LEN. -/
  sbLen : s.sbLen = x.sbLen
  /-- RK_LEN. -/
  rkLen : s.rkLen = x.rkLen
  /-- CTRL. -/
  strict : s.strict = strict

/-- The inputs of block p stand in RAM and in the control registers. -/
structure BlockLoaded (x : BatchArgs) (p : Nat) (s : State) : Prop where
  /-- SEL. -/
  sel : Memory.HoldsBytes s.mem selBase (x.selBytes p)
  /-- KC. -/
  kc : Memory.HoldsBytes s.mem kcBase (x.kcBytes p)
  /-- DIN. -/
  din : Memory.HoldsBytes s.mem dinBase (x.dinBytes p)
  /-- SEL_COUNT. -/
  selCount : s.selCount = BitVec.ofNat 16 x.selectors.length
  /-- KC_COUNT. -/
  kcCount : s.kcCount = BitVec.ofNat 16 x.selectors.length
  /-- BLKIDX. -/
  blkIdx : s.blkIdx = x.blockIndex p

/-- Of RAM, loading a block changes DIN and what lies from SEL up. -/
theorem get?_loadBlock {x : BatchArgs} {p : Nat} (hp : p < x.blocks) (s : State) {a : Nat} (ha : 0x60 ≤ a ∧ a < 0x4000) :
    Memory.get? (s.loadBlock x p).mem a = Memory.get? s.mem a := by
  have din := length_dinBytes hp
  have bases := base_addresses
  exact ((Memory.get?_setList_outside _ (by omega)).trans (Memory.get?_setList_outside _ (by omega))).trans
    (Memory.get?_setList_outside _ (by omega))

section
variable {x : BatchArgs} (adm : x.admitted = true)
include adm

theorem tablesLoaded_loadTables (strict : Bool) (s : State) : TablesLoaded x strict (s.loadTables x strict) := by
  obtain ⟨km, -⟩ := admitted_iff.1 adm
  have sb : (x.sboxes.take 6144).length ≤ 6144 := List.length_take_le _ _
  have rk : (x.roundKeys.take 1536).length ≤ 1536 := List.length_take_le _ _
  have bases := base_addresses
  refine ⟨?_, ?_, Memory.holdsBytes_setList _ _ _, rfl, rfl, rfl⟩
  · refine ((Memory.holdsBytes_setList s.mem _ _).setList (.inl ?_)).setList (.inl ?_) <;> omega
  · exact (Memory.holdsBytes_setList _ _ _).setList (.inr (by omega))

/-- The tables stay where RAM from KM to SBOX and the lengths and CTRL stay. -/
theorem TablesLoaded.congr {strict : Bool} {s t : State} (h : TablesLoaded x strict s)
    (bytes : ∀ a, 0x400 ≤ a → a < 0x4000 → Memory.get? t.mem a = Memory.get? s.mem a) (sbLen : t.sbLen = s.sbLen)
    (rkLen : t.rkLen = s.rkLen) (ctrl : t.strict = s.strict) : TablesLoaded x strict t := by
  obtain ⟨km, -⟩ := admitted_iff.1 adm
  have sb : (x.sboxes.take 6144).length ≤ 6144 := List.length_take_le _ _
  have rk : (x.roundKeys.take 1536).length ≤ 1536 := List.length_take_le _ _
  have bases := base_addresses
  exact ⟨h.km.congr fun a lo hi => bytes a (by omega) (by omega), h.sbox.congr fun a lo hi => bytes a (by omega) (by omega),
    h.rk.congr fun a lo hi => bytes a (by omega) (by omega), sbLen.trans h.sbLen, rkLen.trans h.rkLen, ctrl.trans h.strict⟩

theorem TablesLoaded.effect {strict : Bool} {s t : State} (h : TablesLoaded x strict s) (e : Effect s t) :
    TablesLoaded x strict t :=
  have same := e.sameInputs
  h.congr adm (fun a lo _ => same.bytes a (by omega)) same.sbLen same.rkLen same.strict

variable {p : Nat} (hp : p < x.blocks)
include hp

theorem TablesLoaded.loadBlock {strict : Bool} {s : State} (h : TablesLoaded x strict s) :
    TablesLoaded x strict (s.loadBlock x p) :=
by
  obtain ⟨m, frame⟩ := loadBlock_frame s x p
  refine h.congr adm (fun a lo hi => get?_loadBlock hp s ⟨by omega, hi⟩) ?_ ?_ ?_ <;> rw [frame]

theorem blockLoaded_loadBlock (s : State) : BlockLoaded x p (s.loadBlock x p) := by
  obtain ⟨-, count⟩ := admitted_iff.1 adm
  have hm := maxSel_le
  have sel := length_selBytes x p
  have din := length_dinBytes hp
  have bases := base_addresses
  refine ⟨?_, ?_, Memory.holdsBytes_setList _ _ _, rfl, rfl, rfl⟩
  · refine ((Memory.holdsBytes_setList s.mem _ _).setList (.inl ?_)).setList (.inr ?_) <;> omega
  · exact (Memory.holdsBytes_setList _ _ _).setList (.inr (by omega))

end

end Sys2Proof.Machine
end

section
/-! PROOFS. The BLOCK of a loaded block (R236, R258): the reference's tables read off the arguments of the batch, the keystream that
depends on the arguments but the plaintext, and BLOCK where its checks pass and where strict mode rejects the lengths. -/

namespace Sys2Proof.Machine
open Sys2Proof.Claim

/-! ## Lists of parts of one length -/

/-- The p-th of parts of one length is a slice of them put together. -/
theorem take_drop_flatten {α : Type} {n : Nat} {l : List (List α)} (len : ∀ part ∈ l, part.length = n) {p : Nat}
    (hp : p < l.length) : (l.flatten.drop (n * p)).take n = l[p] := by
  induction l generalizing p with
  | nil => exact absurd hp p.not_lt_zero
  | cons part l ih =>
    obtain ⟨head, tail⟩ := List.forall_mem_cons.1 len
    cases p with
    | zero => simp [← head]
    | succ p =>
      rw [List.flatten_cons, Nat.mul_succ, Nat.add_comm, ← List.drop_drop, List.drop_left' head]
      exact ih tail (Nat.lt_of_succ_lt_succ hp)

/-! ## What the block computes -/

/-- The tables of block p in the reference's form. -/
def BatchArgs.tables (x : BatchArgs) (p : Nat) : Tables where
  sbox r k := x.sboxes.getD (256 * r + k.toNat) 0#8
  roundKey r := BitVec.ofNat 32 (fromLE ((List.range 4).map fun j => x.roundKeys.getD (64 * r + j) 0#8))
  sels := (x.order p).zip ((x.kcBytes p).map some)

/-- KM as a vector. -/
def BatchArgs.keyVector (x : BatchArgs) : Vector Byte 448 := Vector.ofFn fun j => x.keyMaterial.getD j.val 0#8

/-- How many rounds are valid with the lengths of the batch. -/
def BatchArgs.rounds (x : BatchArgs) : Nat := min 24 (min (x.sbLen.toNat / 256) (x.rkLen.toNat / 64))

/-- The keystream of block p: no byte of the plaintext enters it (R261). -/
def BatchArgs.keystream (x : BatchArgs) (p : Nat) : Vector Byte 32 :=
  Config.xof (message (refMix (x.tables p) x.rounds (slices x.keyVector, 0#64)).1 (List.replicate 128 0#8) (x.blockIndex p)) 32

/-- Block p of the plaintext. -/
def BatchArgs.block (x : BatchArgs) (p : Nat) : Vector Byte 32 := Vector.ofFn fun j => (x.dinBytes p).getD j.val 0#8

/-- Block p of the output. -/
def BatchArgs.cipherBlock (x : BatchArgs) (p : Nat) : Vector Byte 32 := xorBlock (x.block p) (x.keystream p)

/-- The lengths that strict mode asks for (R54). -/
def BatchArgs.FullTables (x : BatchArgs) : Prop := x.sboxes.length = 6144 ∧ x.roundKeys.length = 1536

/-! ## What the block reads -/

/-- A byte of a buffer held by RAM reads as it is. -/
theorem Memory.HoldsBytes.busByte {s : State} {a : Nat} {bs : List Byte} (h : Memory.HoldsBytes s.mem a bs) {k : Nat}
    (hk : k < bs.length) (ram : ramByte (a + k) = true) : s.busByte (a + k) = .ok bs[k] := by
  rw [busByte_ram ram, State.readByte_eq_ok]
  exact h k hk

theorem holds_of_holdsBytes {n : Nat} {s : State} {a : Nat} {bs : List Byte} (h : Memory.HoldsBytes s.mem a bs)
    (len : bs.length = n) (ram : ∀ k, k < n → ramByte (a + k) = true) :
    Holds s a (Vector.ofFn fun j : Fin n => bs.getD j.val 0#8) := fun j => by
  have hj : j.val < bs.length := len ▸ j.isLt
  rw [h.busByte hj (ram j.val j.isLt)]
  simp [hj]

/-- A word made of four bytes has them as its bytes. -/
theorem byteOf_fromLE_four (f : Nat → Byte) {j : Nat} (hj : j < 4) :
    byteOf (BitVec.ofNat 32 (fromLE ((List.range 4).map f))) j = f j := by
  have bound := fun k => (f k).isLt
  have b0 := bound 0
  have b1 := bound 1
  have b2 := bound 2
  have b3 := bound 3
  apply BitVec.eq_of_toNat_eq
  simp only [byteOf, BitVec.extractLsb'_toNat, BitVec.toNat_ofNat, Nat.shiftRight_eq_div_pow, List.range, List.range.loop, List.map_cons,
    List.map_nil, fromLE]
  interval_cases j <;> omega

section
variable {x : BatchArgs} {strict : Bool} {s : State} (adm : x.admitted = true) (tables : TablesLoaded x strict s)
include tables

theorem validRounds_eq : validRounds s = x.rounds := by
  rw [validRounds, tables.sbLen, tables.rkLen]
  rfl

/-- A valid round's tables lie inside the bytes loaded. -/
theorem roundTablesIn_of_loaded (p : Nat) {r : Nat} (hr : r < 24) (valid : ValidRound s r) :
    RoundTablesIn s (x.tables p) r := by
  obtain ⟨sb, rk⟩ := valid
  rw [tables.sbLen, toNat_sbLen] at sb
  rw [tables.rkLen, toNat_rkLen] at rk
  have sbox : ∀ k, k < 256 → s.busByte (0x1000 + (256 * r + k)) = .ok (x.sboxes.getD (256 * r + k) 0#8) := fun k hk => by
    rw [tables.sbox.busByte (k := 256 * r + k) (by simp; omega) (ramByte_iff.2 (by simp only [sboxBase]; omega)), List.getElem_take,
      List.getD_eq_getElem _ _ (by omega)]
  have key : ∀ j, j < 64 → s.busByte (0x0800 + (64 * r + j)) = .ok (x.roundKeys.getD (64 * r + j) 0#8) := fun j hj => by
    rw [tables.rk.busByte (k := 64 * r + j) (by simp; omega) (ramByte_iff.2 (by simp only [rkBase]; omega)), List.getElem_take,
      List.getD_eq_getElem _ _ (by omega)]
  refine ⟨fun k => ?_, fun j hj => ?_, fun j lo hi => ⟨_, (Nat.add_assoc _ _ _ ▸ key j (by omega))⟩⟩
  · rw [Nat.add_assoc]
    exact sbox k.toNat k.isLt
  · rw [Nat.add_assoc, key j (by omega)]
    exact congrArg Except.ok (byteOf_fromLE_four (fun j => x.roundKeys.getD (64 * r + j) 0#8) hj).symm

include adm

theorem holds_km_of_loaded : Holds s 0x0400 x.keyVector :=
  holds_of_holdsBytes tables.km (admitted_iff.1 adm).1 fun k hk => ramByte_iff.2 (by omega)

end

section
variable {x : BatchArgs} {p : Nat} {s : State} (adm : x.admitted = true) (loaded : BlockLoaded x p s)
include adm loaded

theorem toNat_counts : s.selCount.toNat = x.selectors.length ∧ s.kcCount.toNat = x.selectors.length := by
  obtain ⟨-, count⟩ := admitted_iff.1 adm
  have hm := maxSel_le
  rw [loaded.selCount, loaded.kcCount, BitVec.toNat_ofNat, Nat.mod_eq_of_lt (by omega)]
  exact ⟨rfl, rfl⟩

theorem selectorsIn_of_loaded : SelectorsIn s (x.tables p) := by
  obtain ⟨selCount, kcCount⟩ := toNat_counts adm loaded
  obtain ⟨-, count⟩ := admitted_iff.1 adm
  have order := length_order x p
  have kcs := length_kcBytes x p
  have length : (x.tables p).sels.length = x.selectors.length := by simp [BatchArgs.tables, order, kcs]
  refine ⟨length.trans selCount.symm, fun q => ?_⟩
  have hq : q.val < x.selectors.length := length ▸ q.isLt
  have entry : (x.tables p).sels[q] = ((x.order p)[q.val], some (x.kcBytes p)[q.val]) :=
    List.getElem_zip.trans (by rw [List.getElem_map])
  have bytes : Memory.HoldsBytes s.mem (selBase + 2 * q.val) (bytesLE 2 (x.order p)[q.val]) := by
    have slice := loaded.sel.slice (2 * q.val) 2
    rwa [BatchArgs.selBytes, take_drop_flatten (by simp [length_bytesLE]) (by simp; omega), List.getElem_map] at slice
  have low := bytes.busByte (k := 0) (by simp [bytesLE]) (ramByte_iff.2 (by simp only [selBase]; omega))
  have high := bytes.busByte (k := 1) (by simp [bytesLE]) (ramByte_iff.2 (by simp only [selBase]; omega))
  have kc := loaded.kc.busByte (k := q.val) (by omega) (ramByte_iff.2 (by simp only [kcBase]; omega))
  rw [entry]
  refine ⟨low, high, fun k hk => ⟨by omega, ?_⟩, fun hk => by cases hk⟩
  rw [← Option.some.inj hk]
  exact kc

end

/-! ## BLOCK -/

section
variable {x : BatchArgs} {p : Nat} {strict : Bool} {s : State} (adm : x.admitted = true) (tables : TablesLoaded x strict s)
  (loaded : BlockLoaded x p s)
include adm tables loaded

/-- Where strict mode is off or the lengths are right, BLOCK leaves the block's output in DOUT; it sets RSKIP only where the lengths fall
short. -/
theorem exec_block_of_loaded (hp : p < x.blocks) (full : strict = true → x.FullTables) (answers : s.hashAnswers = true) :
    ∃ t, exec .block s = .next t ∧ Effect s t ∧ Holds t 0x0060 (x.cipherBlock p)
      ∧ (x.FullTables → t.statusWord = s.statusWord) := by
  obtain ⟨selCount, -⟩ := toNat_counts adm loaded
  have sbLen := toNat_sbLen x
  have rkLen := toNat_rkLen x
  have lengths : x.FullTables → s.sbLen.toNat = 6144 ∧ s.rkLen.toNat = 1536 := fun ⟨hsb, hrk⟩ => by
    rw [tables.sbLen, tables.rkLen]
    omega
  have checks : TableChecksPass s :=
    ⟨selCount.trans_le (admitted_iff.1 adm).2, fun h => lengths (full (tables.strict.symm.trans h))⟩
  have din : Holds s 0x0040 (x.block p) :=
    holds_of_holdsBytes loaded.din (length_dinBytes hp) fun k hk => ramByte_iff.2 (by omega)
  obtain ⟨t, ht, -, dout, -, -, rskip, -⟩ := Proofs.blockComputesThePipeline s (x.tables p) x.keyVector (x.block p) checks answers
    (fun r hr valid => roundTablesIn_of_loaded tables p hr valid) (selectorsIn_of_loaded adm loaded)
    (holds_km_of_loaded adm tables) din
  have effect : Effect s t := blockBody_effect (answer_eq_next.1 ((exec_block_of_checks checks).symm.trans ht))
  rw [validRounds_eq tables, loaded.blkIdx] at dout
  refine ⟨t, ht, effect, dout, fun hfull => ?_⟩
  obtain ⟨hsb, hrk⟩ := lengths hfull
  have skip : t.rskip = s.rskip := by simpa [hsb, hrk] using rskip
  rw [effect.frame, State.statusWord, skip]
  rfl

/-- Strict mode with lengths that are not right rejects BLOCK, which changes nothing else. -/
theorem exec_block_of_rejected (on : strict = true) (short : ¬ x.FullTables) :
    exec .block s = .next (s.raiseError .invalidInputSize) := by
  obtain ⟨selCount, -⟩ := toNat_counts adm loaded
  obtain ⟨-, count⟩ := admitted_iff.1 adm
  have sbLen := toNat_sbLen x
  have rkLen := toNat_rkLen x
  have bad : s.badInputSize = true := by
    simp only [State.badInputSize, tables.strict, on, tables.sbLen, tables.rkLen, Bool.true_and, Bool.or_eq_true, bne_iff_ne]
    unfold BatchArgs.FullTables at short
    omega
  exact withTables_of_some (by rw [State.tableCheck, if_neg (by omega), if_pos bad]) _

end

end Sys2Proof.Machine
end

section
/-! PROOFS. A batch block by block (R255..R260): what every block leaves, the reads of DOUT and STATUS, and what the permissive and the
strict procedures end in. From these the round trip and the strict entry's error. -/

namespace Sys2Proof.Machine
open Sys2Proof.Claim

/-! ## One block -/

theorem TablesLoaded.withAgents {x : BatchArgs} {strict : Bool} {s : State} (h : TablesLoaded x strict s) (es : List Event)
    (vs : List (BitVec 32)) : TablesLoaded x strict { s with events := es, answers := vs } := by
  obtain ⟨km, sbox, rk, sbLen, rkLen, ctrl⟩ := h
  exact ⟨km, sbox, rk, sbLen, rkLen, ctrl⟩

theorem TablesLoaded.raiseError {x : BatchArgs} {strict : Bool} {s : State} (h : TablesLoaded x strict s) (c : ErrorCode) :
    TablesLoaded x strict (s.raiseError c) := by
  obtain ⟨km, sbox, rk, sbLen, rkLen, ctrl⟩ := h
  exact ⟨km, sbox, rk, sbLen, rkLen, ctrl⟩

theorem BlockLoaded.withEvents {x : BatchArgs} {p : Nat} {s : State} (h : BlockLoaded x p s) (es : List Event) :
    BlockLoaded x p { s with events := es } := by
  obtain ⟨sel, kc, din, selCount, kcCount, blkIdx⟩ := h
  exact ⟨sel, kc, din, selCount, kcCount, blkIdx⟩

theorem holdsBytes_of_holds_dout {s : State} {v : Vector Byte 32} (h : Holds s 0x0060 v) :
    Memory.HoldsBytes s.mem doutBase v.toList := fun k hk => by
  have byte := State.readBuffer_eq_ok.1 (holds_dout.1 h) ⟨k, by simpa using hk⟩
  simpa using byte

theorem performEvent_block (s : State) : performEvent (commandWrite 0x26000000#32) s = exec .block s :=
  runCommand_of_ok (Proofs.decodeEncodeRoundTrip .block) s

/-- What loading a block leaves of the fields that a batch looks at. -/
theorem loadBlock_unchanged (s : State) (x : BatchArgs) (p : Nat) : (s.loadBlock x p).hashAnswers = s.hashAnswers
    ∧ (s.loadBlock x p).answers = s.answers ∧ (s.loadBlock x p).statusWord = s.statusWord
    ∧ ((s.loadBlock x p).raiseError .invalidInputSize).statusWord = (s.raiseError .invalidInputSize).statusWord := by
  obtain ⟨m, frame⟩ := loadBlock_frame s x p
  rw [frame]
  exact ⟨rfl, rfl, rfl, rfl⟩

/-- Before and after every block of a batch that BLOCK does not reject: the tables stand, the engine answers, and with tables of the right
lengths STATUS is as it was. -/
structure Ready (x : BatchArgs) (strict : Bool) (status : BitVec 32) (s : State) : Prop where
  /-- The tables. -/
  tables : TablesLoaded x strict s
  /-- The engine. -/
  engine : s.hashAnswers = true
  /-- STATUS. -/
  status : x.FullTables → s.statusWord = status

/-- Before and after every block of a batch that BLOCK rejects: the tables stand, STATUS shows the error from the first BLOCK on, and
DOUT is as in the RAM `m`. -/
structure Rejecting (x : BatchArgs) (m : Memory) (s : State) : Prop where
  /-- The tables. -/
  tables : TablesLoaded x true s
  /-- STATUS, the error recorded. -/
  status : (s.raiseError .invalidInputSize).statusWord = 0x00000601#32
  /-- DOUT. -/
  dout : ∀ a, doutBase ≤ a → a < doutBase + 32 → Memory.get? s.mem a = Memory.get? m a

/-- What does not depend on what is pending or answered. -/
def AgentFree (I : State → Prop) : Prop := ∀ s es vs, I s → I { s with events := es, answers := vs }

theorem AgentFree.and {I J : State → Prop} (h : AgentFree I) (k : AgentFree J) : AgentFree fun s => I s ∧ J s :=
  fun s es vs ⟨i, j⟩ => ⟨h s es vs i, k s es vs j⟩

theorem agentFree_ready (x : BatchArgs) (strict : Bool) (status : BitVec 32) : AgentFree (Ready x strict status) :=
  fun _ es vs h => ⟨h.tables.withAgents es vs, h.engine, h.status⟩

theorem agentFree_rejecting (x : BatchArgs) (m : Memory) : AgentFree (Rejecting x m) :=
  fun _ es vs h => ⟨h.tables.withAgents es vs, h.status, h.dout⟩

section
variable {x : BatchArgs} {p : Nat} {strict : Bool} {s : State} (adm : x.admitted = true) (hp : p < x.blocks)
include adm

/-- A rejected BLOCK records its error and leaves the rest. -/
theorem performs_block_rejected (tables : TablesLoaded x true s) (loaded : BlockLoaded x p s) (short : ¬ x.FullTables) :
    Performs [commandWrite 0x26000000#32] s (s.raiseError .invalidInputSize) := performs_singleton fun rest =>
  (performEvent_block _).trans <|
    exec_block_of_rejected adm (tables.withAgents rest s.answers) (loaded.withEvents rest) rfl short

include hp

theorem reaches_block (tables : TablesLoaded x strict s) (loaded : BlockLoaded x p s) (full : strict = true → x.FullTables)
    (engine : s.hashAnswers = true) : Reaches [commandWrite 0x26000000#32] s fun t => Ready x strict s.statusWord t
      ∧ Memory.HoldsBytes t.mem doutBase (x.cipherBlock p).toList ∧ t.answers = s.answers := by
  refine reaches_singleton fun rest => ?_
  have tables' := tables.withAgents rest s.answers
  obtain ⟨t, ht, effect, dout, status⟩ := exec_block_of_loaded adm tables' (loaded.withEvents rest) hp full engine
  refine ⟨t, (performEvent_block _).trans ht, ⟨tables'.effect adm effect, effect.sameInputs.hashAnswers.trans engine, status⟩,
    holdsBytes_of_holds_dout dout, ?_⟩
  rw [effect.frame]

theorem reaches_commandEvents {status : BitVec 32} (h : Ready x strict status s) (full : strict = true → x.FullTables) :
    Reaches (x.commandEvents p) s fun t => Ready x strict status t
      ∧ Memory.HoldsBytes t.mem doutBase (x.cipherBlock p).toList ∧ t.answers = s.answers := by
  obtain ⟨engine, answers, word, -⟩ := loadBlock_unchanged s x p
  have block := reaches_block adm hp (h.tables.loadBlock adm hp) (blockLoaded_loadBlock adm hp s) full (engine.trans h.engine)
  rw [commandEvents_eq]
  exact (performs_inputEvents adm hp s).append_reaches <| block.imp fun t ⟨ready, dout, same⟩ =>
    ⟨⟨ready.tables, ready.engine, fun f => (ready.status f).trans (word.trans (h.status f))⟩, dout, same.trans answers⟩

theorem performs_commandEvents_rejected (h : TablesLoaded x true s) (short : ¬ x.FullTables) :
    Performs (x.commandEvents p) s ((s.loadBlock x p).raiseError .invalidInputSize) :=
  (performs_inputEvents adm hp s).append <|
    performs_block_rejected adm (h.loadBlock adm hp) (blockLoaded_loadBlock adm hp s) short

/-- The block rejected: STATUS shows the error. -/
theorem reaches_commandEvents_rejected {m : Memory} (h : Rejecting x m s) (short : ¬ x.FullTables) :
    Reaches (x.commandEvents p) s fun t => (Rejecting x m t ∧ t.statusWord = 0x00000601#32) ∧ t.answers = s.answers := by
  obtain ⟨-, answers, -, word⟩ := loadBlock_unchanged s x p
  have status := word.trans h.status
  have bases := base_addresses
  have tables := (h.tables.loadBlock adm hp).raiseError .invalidInputSize
  refine (performs_commandEvents_rejected adm hp h.tables short).reaches fun rest => ⟨⟨⟨?_, status, fun a lo hi => ?_⟩, status⟩, answers⟩
  · exact tables.withAgents rest _
  · exact (get?_loadBlock hp s (by omega)).trans (h.dout a lo hi)

end

/-! ## Block after block -/

section
variable {I : State → Prop} (free : AgentFree I)
include free

/-- Accesses that leave a block in DOUT, and the read of it. -/
theorem Reaches.append_output {es : List Event} {s : State} {v : Vector Byte 32}
    (h : Reaches es s fun t => I t ∧ Memory.HoldsBytes t.mem doutBase v.toList ∧ t.answers = s.answers) :
    Reaches (es ++ outputEvents) s fun t => I t ∧ t.answers = (answerWords v.toList).reverse ++ s.answers :=
  h.append fun t ⟨i, dout, answers⟩ => (performs_outputEvents dout).reaches fun rest =>
    ⟨free t rest ((answerWords v.toList).reverse ++ t.answers) i, by rw [answers]⟩

/-- Accesses that leave a word in STATUS, and the read of it. -/
theorem Reaches.append_status {es : List Event} {s : State} {w : BitVec 32}
    (h : Reaches es s fun t => (I t ∧ t.statusWord = w) ∧ t.answers = s.answers) :
    Reaches (es ++ [statusRead]) s fun t => I t ∧ t.answers = w :: s.answers :=
  h.append fun t ⟨⟨i, status⟩, answers⟩ => (performs_statusRead t).reaches fun rest =>
    ⟨free t rest (t.statusWord :: t.answers) i, by rw [status, answers]⟩

/-- The blocks one after another, each read from DOUT. -/
theorem reaches_blocks {x : BatchArgs} {v : Nat → Vector Byte 32} {ps : List Nat} {s : State}
    (block : ∀ p ∈ ps, ∀ s, I s → Reaches (x.commandEvents p) s fun t =>
      I t ∧ Memory.HoldsBytes t.mem doutBase (v p).toList ∧ t.answers = s.answers) (h : I s) :
    Reaches (ps.map fun p => x.commandEvents p ++ outputEvents).flatten s fun t =>
      I t ∧ t.answers = (answerWords (ps.map fun p => (v p).toList).flatten).reverse ++ s.answers := by
  induction ps generalizing s with
  | nil => exact reaches_nil fun rest => ⟨free s rest s.answers h, rfl⟩
  | cons p ps ih =>
    obtain ⟨first, others⟩ := List.forall_mem_cons.1 block
    refine (Reaches.append_output free (first s h)).append fun t ⟨i, answers⟩ => ?_
    exact (ih others i).imp fun u ⟨i', answers'⟩ => ⟨i', by simp [answers', answers, answerWords]⟩

end

/-! ## The loading -/

/-- The output of a batch. -/
def BatchArgs.ciphertext (x : BatchArgs) : List Byte := ((List.range x.blocks).map fun p => (x.cipherBlock p).toList).flatten

/-- Loading the tables writes RAM, the lengths and CTRL. -/
theorem loadTables_frame (s : State) (x : BatchArgs) (strict : Bool) : ∃ m, s.loadTables x strict =
    { s with mem := m, sbLen := x.sbLen, rkLen := x.rkLen, strict := strict } := by
  simp only [State.loadTables, State.storeBytes, State.withLengths]
  exact ⟨_, rfl⟩

theorem loadTables_unchanged (s : State) (x : BatchArgs) (strict : Bool) : (s.loadTables x strict).hashAnswers = s.hashAnswers
    ∧ (s.loadTables x strict).answers = s.answers ∧ (s.loadTables x strict).statusWord = s.statusWord
    ∧ ((s.loadTables x strict).raiseError .invalidInputSize).statusWord = (s.raiseError .invalidInputSize).statusWord := by
  obtain ⟨m, frame⟩ := loadTables_frame s x strict
  rw [frame]
  exact ⟨rfl, rfl, rfl, rfl⟩

/-- The tables lie above DOUT. -/
theorem get?_loadTables (s : State) (x : BatchArgs) (strict : Bool) {a : Nat} (ha : a < 0x400) :
    Memory.get? (s.loadTables x strict).mem a = Memory.get? s.mem a := by
  have bases := base_addresses
  exact ((Memory.get?_setList_outside _ (by omega)).trans (Memory.get?_setList_outside _ (by omega))).trans
    (Memory.get?_setList_outside _ (by omega))

section
variable {x : BatchArgs} {s : State} (adm : x.admitted = true)
include adm

theorem reaches_blockEvents {strict : Bool} {status : BitVec 32} (h : Ready x strict status s)
    (full : strict = true → x.FullTables) : Reaches x.blockEvents s fun t =>
      Ready x strict status t ∧ t.answers = (answerWords x.ciphertext).reverse ++ s.answers :=
  reaches_blocks (agentFree_ready x strict status)
    (fun _ hp _ ready => reaches_commandEvents adm (List.mem_range.1 hp) ready full) h

/-- The permissive batch completes with the blocks of its output. -/
theorem encryptBatch_eq (engine : s.hashAnswers = true) : encryptBatch x s = some (.next x.ciphertext) := by
  obtain ⟨engine', answers, -, -⟩ := loadTables_unchanged { s with answers := [] } x false
  have ready : Ready x false ({ s with answers := [] }.loadTables x false).statusWord ({ s with answers := [] }.loadTables x false) :=
    ⟨tablesLoaded_loadTables adm false _, engine'.trans engine, fun _ => rfl⟩
  obtain ⟨t, ht, -, out⟩ := ((performs_loadEvents adm false { s with answers := [] }).append_reaches
    (reaches_blockEvents adm ready fun h => nomatch h)).ask
  rw [encryptBatch, if_pos adm, ht, thenRun_next, out, answers]
  simp [bytesOf_answerWords]

/-- The strict procedures begin with STATUS clear, the tables loaded and DOUT as it was. -/
theorem exists_strictStart : ∃ t, ask (writeWord 0x04 3#32 :: x.loadEvents true) s = .next (t.answers.reverse, t)
    ∧ TablesLoaded x true t ∧ t.hashAnswers = s.hashAnswers ∧ t.statusWord = 0#32 ∧ Rejecting x s.mem t := by
  obtain ⟨engine, -, word, raised⟩ := loadTables_unchanged { s with answers := [] }.clearedStatus x true
  have bases := base_addresses
  refine Reaches.ask (((performs_clearStatus _).append (performs_loadEvents adm true _)).reaches fun rest => ?_)
  have tables := (tablesLoaded_loadTables adm true { s with answers := [] }.clearedStatus).withAgents rest
    ({ s with answers := [] }.clearedStatus.loadTables x true).answers
  exact ⟨tables, engine, word.trans (statusWord_clearedStatus _), tables, raised.trans (statusWord_raiseError_clearedStatus _),
    fun a _ hi => get?_loadTables _ x true (by omega)⟩

/-! ## The strict procedures with tables of the right lengths -/

theorem strictBlocks_eq {ps : List Nat} (hps : ∀ p ∈ ps, p < x.blocks) (full : x.FullTables) (ready : Ready x true 0#32 s) :
    strictBlocks x ps s = .next ⟨(ps.map fun p => (x.cipherBlock p).toList).flatten, List.replicate ps.length 0#32⟩ := by
  induction ps generalizing s with
  | nil => rfl
  | cons p ps ih =>
    obtain ⟨hp, others⟩ := List.forall_mem_cons.1 hps
    have free := agentFree_ready x true 0#32
    have command : Reaches (x.commandEvents p) { s with answers := [] } fun t => ((Ready x true 0#32 t
        ∧ Memory.HoldsBytes t.mem doutBase (x.cipherBlock p).toList) ∧ t.statusWord = 0#32) ∧ t.answers = [] :=
      (reaches_commandEvents adm hp (free s s.events [] ready) fun _ => full).imp fun t ⟨r, dout, answers⟩ =>
        ⟨⟨⟨r, dout⟩, r.status full⟩, answers⟩
    obtain ⟨t, ht, ⟨ready', dout⟩, status⟩ := (Reaches.append_status (free.and fun _ _ _ h => h) command).ask
    obtain ⟨u, hu, ready'', out⟩ := (Reaches.append_output free (es := []) (s := { t with answers := [] })
      (reaches_nil fun rest => ⟨free t rest [] ready', dout, rfl⟩)).ask
    have last : [0#32].getLastD 0#32 = 0#32 := rfl
    have clear : errIn 0#32 = false := rfl
    rw [List.nil_append] at hu
    simp only [strictBlocks, ht, status, hu, out, ih others ready'', thenRun_next, List.reverse_singleton, last, clear]
    simp [bytesOf_answerWords, List.replicate_succ]

theorem strictAtEnd_eq (full : x.FullTables) (ready : Ready x true 0#32 s) : strictAtEnd x s = .next ⟨x.ciphertext, [0#32]⟩ := by
  have free := agentFree_ready x true 0#32
  obtain ⟨t, ht, ready', out⟩ := (reaches_blockEvents adm (free s s.events [] ready) fun _ => full).ask
  obtain ⟨u, hu, -, status⟩ := (Reaches.append_status free (es := []) (s := { t with answers := [] })
    (reaches_nil fun rest => ⟨⟨free t rest [] ready', ready'.status full⟩, rfl⟩)).ask
  rw [List.nil_append] at hu
  rw [strictAtEnd, ht, thenRun_next, hu, thenRun_next, out, status]
  simp [bytesOf_answerWords]

/-! ## The strict procedures with tables of other lengths -/

theorem strictBlocks_rejected {m : Memory} (pos : 0 < x.blocks) (short : ¬ x.FullTables) (h : Rejecting x m s) :
    strictBlocks x (List.range x.blocks) s = .next ⟨[], [0x00000601#32]⟩ := by
  obtain ⟨n, hn⟩ : ∃ n, x.blocks = n + 1 := ⟨x.blocks - 1, by omega⟩
  have free := agentFree_rejecting x m
  obtain ⟨t, ht, -, status⟩ :=
    (Reaches.append_status free (reaches_commandEvents_rejected adm pos (free s s.events [] h) short)).ask
  have last : [0x00000601#32].getLastD 0#32 = 0x00000601#32 := rfl
  have flagged : errIn 0x00000601#32 = true := rfl
  simp only [hn, List.range_succ_eq_map, strictBlocks, ht, thenRun_next, status, List.reverse_singleton, last, flagged]
  rfl

theorem reaches_blockEvents_rejected {m : Memory} {v : Vector Byte 32} (pos : 0 < x.blocks) (short : ¬ x.FullTables)
    (h : Rejecting x m s) (dout : Memory.HoldsBytes m doutBase v.toList) : Reaches x.blockEvents s fun t =>
      (Rejecting x m t ∧ t.statusWord = 0x00000601#32)
        ∧ t.answers = (answerWords (List.replicate x.blocks v.toList).flatten).reverse ++ s.answers := by
  obtain ⟨n, hn⟩ : ∃ n, x.blocks = n + 1 := ⟨x.blocks - 1, by omega⟩
  have held : ∀ {t}, Rejecting x m t → Memory.HoldsBytes t.mem doutBase v.toList := fun ht =>
    dout.congr fun a lo hi => ht.dout a lo (by rwa [Vector.length_toList] at hi)
  have free := agentFree_rejecting x m
  have block : ∀ p, p < x.blocks → ∀ u, Rejecting x m u → Reaches (x.commandEvents p) u fun t =>
      (Rejecting x m t ∧ t.statusWord = 0x00000601#32) ∧ Memory.HoldsBytes t.mem doutBase v.toList ∧ t.answers = u.answers :=
    fun p hp u hu => (reaches_commandEvents_rejected adm hp hu short).imp fun t ⟨r, answers⟩ => ⟨r, held r.1, answers⟩
  have first : Reaches ((List.range n).map fun p => x.commandEvents p ++ outputEvents).flatten s _ :=
    reaches_blocks free (v := fun _ => v) (fun p hp u hu =>
      (block p (by have := List.mem_range.1 hp; omega) u hu).imp fun t ⟨r, rest⟩ => ⟨r.1, rest⟩) h
  have split : x.blockEvents = ((List.range n).map fun p => x.commandEvents p ++ outputEvents).flatten
      ++ (x.commandEvents n ++ outputEvents) := by
    simp [BatchArgs.blockEvents, hn, List.range_succ]
  rw [split]
  refine first.append fun t ⟨r, answers⟩ => ?_
  refine (Reaches.append_output (free.and fun _ _ _ h => h) (block n (by omega) t r)).imp
    fun u ⟨r', answers'⟩ => ⟨r', ?_⟩
  rw [answers', answers, hn, List.replicate_succ']
  simp [answerWords]

theorem strictAtEnd_rejected {m : Memory} {v : Vector Byte 32} (pos : 0 < x.blocks) (short : ¬ x.FullTables) (h : Rejecting x m s)
    (dout : Memory.HoldsBytes m doutBase v.toList) :
    strictAtEnd x s = .next ⟨(List.replicate x.blocks v.toList).flatten, [0x00000601#32]⟩ := by
  have free := agentFree_rejecting x m
  obtain ⟨t, ht, ⟨rejecting, word⟩, out⟩ := (reaches_blockEvents_rejected adm pos short (free s s.events [] h) dout).ask
  obtain ⟨u, hu, -, status⟩ := (Reaches.append_status free (es := []) (s := { t with answers := [] })
    (reaches_nil fun rest => ⟨⟨free t rest [] rejecting, word⟩, rfl⟩)).ask
  rw [List.nil_append] at hu
  rw [strictAtEnd, ht, thenRun_next, hu, thenRun_next, out, status]
  simp [bytesOf_answerWords]

end

end Sys2Proof.Machine
end

section
/-! PROOFS. The round trip of a batch (R261) and the strict entry (R260): the blocks of the output as the input of the second batch, and
the obligations of the batch. -/

namespace Sys2Proof.Machine
open Sys2Proof.Claim

/-! ## Blocks of a buffer -/

/-- The slices of a buffer put together are its beginning. -/
theorem flatten_slices {α : Type} (l : List α) (k n : Nat) :
    ((List.range n).map fun p => (l.drop (k * p)).take k).flatten = l.take (k * n) := by
  induction n with
  | zero => simp
  | succ n ih => rw [List.range_succ, List.map_append, List.flatten_append, ih, Nat.mul_succ, List.take_add]; simp

/-- The batch on another plaintext. -/
def BatchArgs.withPlaintext (x : BatchArgs) (bs : List Byte) : BatchArgs := { x with plaintext := bs }

theorem toList_block {x : BatchArgs} {p : Nat} (hp : p < x.blocks) : (x.block p).toList = x.dinBytes p :=
  List.ext_getElem (by simp [length_dinBytes hp]) fun i hi hi' => by simp [BatchArgs.block, hi']

section
variable (x : BatchArgs)

theorem length_ciphertext : x.ciphertext.length = 32 * x.blocks := by
  simp [BatchArgs.ciphertext, List.length_flatten, Function.comp_def, Nat.mul_comm]

theorem blocks_withCiphertext : (x.withPlaintext x.ciphertext).blocks = x.blocks := by
  rw [BatchArgs.blocks]
  exact (congrArg (· / 32) (length_ciphertext x)).trans (Nat.mul_div_cancel_left _ (by decide))

variable {x} {p : Nat} (hp : p < x.blocks)
include hp

/-- Block p of the batch's output is block p of the second batch's input. -/
theorem block_withCiphertext : (x.withPlaintext x.ciphertext).block p = x.cipherBlock p := by
  have slice : (x.withPlaintext x.ciphertext).dinBytes p = (x.cipherBlock p).toList := by
    refine (take_drop_flatten (n := 32) (by simp) (by simpa using hp)).trans ?_
    rw [List.getElem_map, List.getElem_range]
  exact Vector.toList_inj.1 ((toList_block (by rwa [blocks_withCiphertext])).trans slice)

/-- The second batch has the same keystream, which cancels. -/
theorem cipherBlock_withCiphertext : (x.withPlaintext x.ciphertext).cipherBlock p = x.block p := by
  have keystream : (x.withPlaintext x.ciphertext).keystream p = x.keystream p := rfl
  rw [BatchArgs.cipherBlock, keystream, block_withCiphertext hp, BatchArgs.cipherBlock, xorBlock_xorBlock]

end

theorem ciphertext_withCiphertext (x : BatchArgs) :
    (x.withPlaintext x.ciphertext).ciphertext = x.plaintext.take (32 * x.blocks) := by
  have block : ∀ p ∈ List.range x.blocks, ((x.withPlaintext x.ciphertext).cipherBlock p).toList = x.dinBytes p := fun p hp => by
    have hp := List.mem_range.1 hp
    rw [cipherBlock_withCiphertext hp, toList_block hp]
  rw [BatchArgs.ciphertext, blocks_withCiphertext, List.map_congr_left block]
  exact flatten_slices x.plaintext 32 x.blocks

/-! ## The strict entry -/

section
variable {x : BatchArgs} {s : State} (adm : x.admitted = true)
include adm

theorem encryptBatchStrict_rejected (pos : 0 < x.blocks) (short : ¬ x.FullTables) :
    encryptBatchStrict .eachBlock x s = some (.next ⟨[], [0x00000601#32]⟩)
      ∧ ∀ dout : Vector Byte 32, Holds s 0x0060 dout →
          encryptBatchStrict .atEnd x s = some (.next ⟨(List.replicate x.blocks dout.toList).flatten, [0x00000601#32]⟩) := by
  obtain ⟨t, ht, -, -, -, rejecting⟩ := exists_strictStart adm (s := s)
  refine ⟨?_, fun dout hdout => ?_⟩ <;> rw [encryptBatchStrict, if_pos adm, ht, thenRun_next]
  · exact congrArg some (strictBlocks_rejected adm pos short rejecting)
  · exact congrArg some (strictAtEnd_rejected adm pos short rejecting (holdsBytes_of_holds_dout hdout))

theorem encryptBatchStrict_eq (full : x.FullTables) (engine : s.hashAnswers = true) :
    encryptBatchStrict .eachBlock x s = some (.next ⟨x.ciphertext, List.replicate x.blocks 0#32⟩)
      ∧ encryptBatchStrict .atEnd x s = some (.next ⟨x.ciphertext, [0#32]⟩) := by
  obtain ⟨t, ht, tables, answers, status, -⟩ := exists_strictStart adm (s := s)
  have ready : Ready x true 0#32 t := ⟨tables, answers.trans engine, fun _ => status⟩
  refine ⟨?_, ?_⟩ <;> rw [encryptBatchStrict, if_pos adm, ht, thenRun_next]
  · have blocks := strictBlocks_eq adm (fun p => List.mem_range.1) full ready
    rw [List.length_range] at blocks
    exact congrArg some blocks
  · exact congrArg some (strictAtEnd_eq adm full ready)

end

end Sys2Proof.Machine

namespace Sys2Proof.Proofs
open Sys2Proof.Machine Sys2Proof.Claim

/-- Settles O59: from any state the output is the blocks XORed with keystreams that depend on the other arguments alone. -/
theorem batchRoundTrip : Obligations.BatchRoundTrip := by
  intro x s s' adm engine engine'
  refine ⟨x.ciphertext, encryptBatch_eq adm engine, ?_⟩
  have second : encryptBatch (x.withPlaintext x.ciphertext) s' = _ := encryptBatch_eq adm engine'
  rw [ciphertext_withCiphertext, Nat.mul_comm] at second
  exact second

/-- Settles O60: the first rejected BLOCK records the error and leaves DOUT, and with the right lengths no BLOCK records or skips. -/
theorem strictBatchShowsItsError : Obligations.StrictBatchShowsItsError := by
  intro x s adm
  refine ⟨fun wrong pos => ?_, fun sboxes roundKeys engine => ?_⟩
  · exact encryptBatchStrict_rejected adm pos fun ⟨sboxes, roundKeys⟩ => wrong.elim (· sboxes) (· roundKeys)
  · exact ⟨x.ciphertext, encryptBatch_eq adm engine, encryptBatchStrict_eq adm ⟨sboxes, roundKeys⟩ engine⟩

end Sys2Proof.Proofs
end

section
/-! PROOFS. What recording an error changes (R283): the first code since the last clear is kept, and of the window only the bytes of ERR,
RSKIP and ERRCODE may read otherwise. -/

namespace Sys2Proof.Machine
open Sys2Proof.Claim

theorem raiseError_of_clear {s : State} (h : s.err = false) (c : ErrorCode) :
    s.raiseError c = { s with err := true, errCode := c } := by
  simp only [State.raiseError, h, Bool.false_eq_true, if_false]

theorem raiseError_of_err {s : State} (h : s.err = true) (c : ErrorCode) : s.raiseError c = s := by
  rw [State.raiseError, if_pos h, ← h]

/-- Bytes 2 and 3 of STATUS are reserved (R55). -/
theorem byteOf_statusWord_reserved (s : State) {k : Nat} (hk : 2 ≤ k) : byteOf s.statusWord k = 0#8 := by
  apply BitVec.eq_of_getLsbD_eq
  intro i hi
  simp only [getLsbD_byteOf, State.statusWord, BitVec.getLsbD_append, show ¬ 8 * k + i < 1 by omega,
    show ¬ 8 * k + i - 1 < 1 by omega, show ¬ 8 * k + i - 1 - 1 < 6 by omega, show ¬ 8 * k + i - 1 - 1 - 6 < 8 by omega, if_false,
    BitVec.getLsbD_zero, Bool.and_false]

/-- STATUS is the one control register that shows ERR and ERRCODE (R51). -/
theorem controlWord_raiseError (s : State) (c : ErrorCode) {k : Nat} (hk : k ≠ 1) : (s.raiseError c).controlWord k = s.controlWord k := by
  unfold State.controlWord
  split
  case h_1 => contradiction
  all_goals rfl

theorem sameBytes_raiseError (s : State) (c : ErrorCode) : SameBytes (fun a => a ≠ 0x0004 ∧ a ≠ 0x0005) s (s.raiseError c) := by
  rintro a ⟨h4, h5⟩
  refine busByte_congr rfl (fun _ => rfl) (fun _ => rfl) fun _ => ?_
  by_cases hk : a / 4 = 1
  · rw [hk]
    exact (byteOf_statusWord_reserved _ (by omega)).trans (byteOf_statusWord_reserved s (by omega)).symm
  · rw [controlWord_raiseError s c hk]

end Sys2Proof.Machine

namespace Sys2Proof.Proofs
open Sys2Proof.Machine Sys2Proof.Claim

/-- Settles O48: the code is written where ERR is clear; where ERR is set, both fields get the values they have. -/
theorem firstErrorCodeIsKept : Obligations.FirstErrorCodeIsKept := fun _ c =>
  ⟨fun h => raiseError_of_clear h c, fun h => raiseError_of_err h c⟩

end Sys2Proof.Proofs
end

section
/-! PROOFS. Checks 3 to 6 of R281 on a decoded command: the list of checks in terms of the operand forms, and a command that fails one
records the first and does nothing else. -/

namespace Sys2Proof.Machine
open Sys2Proof.Claim

/-! ## The list of checks -/

/-- Checks 5 and 6 in the numbers of the bits. -/
theorem tableCheck_eq (s : State) : s.tableCheck =
    if Config.maxSel < s.selCount.toNat then some .badSelCount
    else if s.strict = true ∧ (s.sbLen ≠ 6144#16 ∨ s.rkLen ≠ 1536#16) then some .invalidInputSize
    else none := by
  have ne_iff (x : BitVec 16) (n : Nat) (hn : n < 2 ^ 16) : x.toNat ≠ n ↔ x ≠ BitVec.ofNat 16 n := by
    rw [Ne, Ne, ← BitVec.toNat_inj, BitVec.toNat_ofNat, Nat.mod_eq_of_lt hn]
  simp only [State.tableCheck, State.badInputSize, Bool.and_eq_true, Bool.or_eq_true, bne_iff_ne,
    ne_iff s.sbLen 6144 (by decide), ne_iff s.rkLen 1536 (by decide), gt_iff_lt]

/-- Checks 3 to 6 in order: a register field of 7, a round field of 24 or more, and the table checks where the command makes them. -/
theorem commandCheck_eq (i : Instr) (s : State) : commandCheck i s =
    if 7#3 ∈ registerFields i then some .badRegister
    else if namesNoRound i = true then some .badRound
    else if usesTables i = true then s.tableCheck
    else none := by
  have registers : (registerFields i).any (· == 7#3) = true ↔ 7#3 ∈ registerFields i := by simp
  rw [tableCheck_eq]
  simp only [commandCheck, registers]
  cases usesTables i with
  | false => simp
  | true => simp

/-! ## A command that fails a check -/

theorem withReg_raises {r : BitVec 3} {s : State} {k : Fin 7 → Result}
    (h : r = 7#3 ∨ ∀ i, k i = .next (s.raiseError .badRegister)) : withReg r s k = .next (s.raiseError .badRegister) := by
  rcases withReg_cases r s k with ⟨i, hi, e⟩ | ⟨-, e⟩ <;> rw [e]
  rcases h with rfl | h
  · exact absurd hi i.isLt.ne'
  · exact h i

/-- Check 3: the first register field that is 7 raises BAD_REGISTER, whichever of the fields it is. -/
theorem exec_of_register_seven {i : Instr} (h : 7#3 ∈ registerFields i) (s : State) :
    exec i s = .next (s.raiseError .badRegister) := by
  cases i with
  | nop | gfmul | loadkm | round | mix24 | ksgen | xorks | feedback | block => simp [registerFields] at h
  | xinj rd | getq rd | putq rd =>
    exact withReg_raises (.inl (List.mem_singleton.1 h).symm)
  | gfmulb rd rs1 | rotl rd rs1 =>
    simp only [registerFields, List.mem_cons, List.not_mem_nil, or_false] at h
    exact withReg_raises <| h.imp Eq.symm fun h _ => withReg_raises (.inl h.symm)
  | xor rd rs1 rs2 =>
    simp only [registerFields, List.mem_cons, List.not_mem_nil, or_false] at h
    exact withReg_raises <| h.imp Eq.symm fun h _ => withReg_raises <| h.imp Eq.symm fun h _ => withReg_raises (.inl h.symm)

/-- Check 4. -/
theorem exec_of_no_round {i : Instr} (h : namesNoRound i = true) (s : State) : exec i s = .next (s.raiseError .badRound) := by
  cases i with
  | round rnd =>
    rcases withRound_cases rnd s fun r => withTables s (answer (roundOrSkip s r.val)) with ⟨hr, -⟩ | ⟨-, e⟩
    · exact absurd (of_decide_eq_true h) (by omega)
    · exact e
  | _ => cases h

/-- Checks 5 and 6. -/
theorem exec_of_failed_tables {i : Instr} {s : State} {c : ErrorCode} (hround : ¬ namesNoRound i = true) (htab : usesTables i = true)
    (hc : s.tableCheck = some c) : exec i s = .next (s.raiseError c) := by
  cases i with
  | round rnd =>
    rw [exec_round_of_lt (by simpa [namesNoRound] using hround)]
    exact withTables_of_some hc _
  | mix24 | block => exact withTables_of_some hc _
  | _ => cases htab

/-- The first of checks 3 to 6 that a command fails is recorded, and the command does nothing else (R281, R284). -/
theorem exec_of_failed_check {i : Instr} {s : State} {c : ErrorCode} (h : commandCheck i s = some c) :
    exec i s = .next (s.raiseError c) := by
  rw [commandCheck_eq] at h
  split at h
  · next hreg => cases h; exact exec_of_register_seven hreg s
  · split at h
    · next hround => cases h; exact exec_of_no_round hround s
    · next hround =>
      split at h
      · next htab => exact exec_of_failed_tables hround htab h
      · cases h

/-- A command that fails none of its checks is well formed. -/
theorem wf_of_commandCheck {i : Instr} {s : State} (h : commandCheck i s = none) : i.wf = true := by
  obtain ⟨hreg, hround, -⟩ := commandCheck_eq_none_iff.1 h
  have names : ∀ r : BitVec 3, r ≠ 7#3 → namesRegister r = true := by decide
  cases i with
  | nop | gfmul | loadkm | mix24 | ksgen | xorks | feedback | block => rfl
  | round rnd => simpa [namesNoRound, Instr.wf, namesRound] using hround
  | xinj | getq | putq => exact names _ (hreg _ (by simp [registerFields]))
  | gfmulb | rotl | xor =>
    simp only [registerFields, List.forall_mem_cons] at hreg
    simp [Instr.wf, names, hreg]

end Sys2Proof.Machine

namespace Sys2Proof.Proofs
open Sys2Proof.Machine Sys2Proof.Claim

/-- Settles O37: the command's answer is the state with the error recorded. -/
theorem failedChecksArePrecise : Obligations.FailedChecksArePrecise := fun _ s c h =>
  ⟨s.raiseError c, exec_of_failed_check h, rfl, rfl, rfl, sameBytes_raiseError s c⟩

end Sys2Proof.Proofs
end

section
/-! PROOFS. The checks of R281 said of a word's bits: they are the decoder's two errors, and then checks 3 to 6 on the command that the
word decodes to. -/

namespace Sys2Proof.Laws
open Sys2Proof.Machine Sys2Proof.Claim

/-! ## The fields of a word as masks -/

theorem toNat_ushiftRight_opcode (w : BitVec 32) : (w >>> 24).toNat = (opField w).toNat := by
  have := w.isLt
  simp only [opField, BitVec.toNat_ushiftRight, BitVec.extractLsb'_toNat, Nat.shiftRight_eq_div_pow]
  omega

/-- A field is all ones exactly when the word's bits at its place are. -/
theorem and_ones_eq_ones_iff (w : BitVec 32) {lo n : Nat} (h : lo + n ≤ 32) :
    w &&& fieldAt (BitVec.allOnes n) lo = fieldAt (BitVec.allOnes n) lo ↔ w.extractLsb' lo n = BitVec.allOnes n := by
  rw [← fieldAt_extractLsb']
  refine ⟨fun e => BitVec.eq_of_getLsbD_eq fun i hi => ?_, fun e => by rw [e]⟩
  have bit := congrArg (BitVec.getLsbD · (lo + i)) e
  simpa [fieldAt, show lo + i < 32 by omega, hi] using bit

theorem rd_mask_iff (w : BitVec 32) : w &&& 0x00E00000#32 = 0x00E00000#32 ↔ rdField w = 7#3 :=
  and_ones_eq_ones_iff w (lo := 21) (n := 3) (by decide)

theorem rs1_mask_iff (w : BitVec 32) : w &&& 0x001C0000#32 = 0x001C0000#32 ↔ rs1Field w = 7#3 :=
  and_ones_eq_ones_iff w (lo := 18) (n := 3) (by decide)

theorem rs2_mask_iff (w : BitVec 32) : w &&& 0x00038000#32 = 0x00038000#32 ↔ rs2Field w = 7#3 :=
  and_ones_eq_ones_iff w (lo := 15) (n := 3) (by decide)

theorem toNat_round_mask (w : BitVec 32) : (w &&& 0x1F#32).toNat = (rndField w).toNat := by
  have place : fieldAt (rndField w) 0 = w &&& 0x1F#32 := fieldAt_extractLsb' w 0 5
  have := (rndField w).isLt
  rw [← place, fieldAt, BitVec.shiftLeft_zero, BitVec.toNat_setWidth]
  omega

/-! ## The checks of a row's command -/

section
variable {r : OpRow} (hr : r ∈ opRows) (w : BitVec 32)
include hr

/-- Check 3 by opcode: which register fields a format has (R113..R119). -/
theorem seven_mem_registerFields_iff :
    ((r.opcode.toNat ∈ [0x11, 0x12, 0x13, 0x14, 0x16] ∧ rdField w = 7#3)
      ∨ (r.opcode.toNat ∈ [0x11, 0x12, 0x13, 0x15] ∧ rs1Field w = 7#3) ∨ (r.opcode.toNat = 0x12 ∧ rs2Field w = 7#3))
      ↔ 7#3 ∈ registerFields (r.command w) := by
  revert r
  simp [opRows, registerFields, eq_comm]

/-- Check 4 by opcode (R120). -/
theorem namesNoRound_iff : (r.opcode.toNat = 0x21 ∧ 24 ≤ (rndField w).toNat) ↔ namesNoRound (r.command w) = true := by
  revert r
  simp [opRows, namesNoRound]

/-- Checks 5 and 6 by opcode. -/
theorem usesTables_iff :
    (r.opcode.toNat = 0x21 ∨ r.opcode.toNat = 0x22 ∨ r.opcode.toNat = 0x26) ↔ usesTables (r.command w) = true := by
  revert r
  simp [opRows, usesTables]

end

/-! ## The checks of a word -/

/-- Check 2: a word with no row of the match table has no command. -/
theorem matches_no_row_iff {w : BitVec 32} : (∀ r ∈ matchRows, r.selects w = false) ↔ ∀ i, decode w ≠ .ok i := by
  obtain ⟨row, command⟩ := Proofs.decodeFollowsMatchTable w
  constructor
  · intro h i hi
    obtain ⟨r, hr, hs, -⟩ := row i hi
    rw [h r hr] at hs
    cases hs
  · intro h r hr
    refine Bool.eq_false_iff.2 fun hs => ?_
    obtain ⟨i, hi, -⟩ := command r hr hs
    exact h i hi

/-- A defined opcode is a row's. -/
theorem opcode_defined_iff {w : BitVec 32} : opField w ∈ definedOpcodes ↔ ∃ r ∈ opRows, opField w = r.opcode := by
  simp only [definedOpcodes_eq, List.mem_map, eq_comm]

/-- Checks 1 and 2 are the decoder's errors (R124, R125). -/
theorem wordCheck_of_error {w : BitVec 32} {e : DecodeError} (h : decode w = .error e) (s : State) :
    wordCheck w s = some (errorOfDecode e) := by
  simp only [wordCheck, toNat_ushiftRight_opcode, BitVec.ofNat_toNat, BitVec.setWidth_eq]
  by_cases hop : opField w ∈ definedOpcodes
  · obtain ⟨r, hr, hr'⟩ := opcode_defined_iff.1 hop
    have noCommand : ∀ i, decode w ≠ .ok i := fun i hi => by rw [h] at hi; cases hi
    have reserved : decode w = .error .reservedField := decode_of_reserved_bit hr hr' fun hm =>
      noCommand _ (decode_eq_ok_iff.2 ⟨r, hr, hm, rfl⟩)
    obtain rfl : e = .reservedField := Except.error.inj (h.symm.trans reserved)
    rw [if_neg (not_not.2 hop), if_pos (matches_no_row_iff.2 noCommand)]
    rfl
  · obtain rfl : e = .illegalOpcode := Except.error.inj (h.symm.trans (decode_of_reserved_opcode hop))
    rw [if_pos hop]
    rfl

/-- On a word that decodes, they are checks 3 to 6 on its command. -/
theorem wordCheck_of_ok {w : BitVec 32} {i : Instr} (h : decode w = .ok i) (s : State) : wordCheck w s = commandCheck i s := by
  have row : ¬ ∀ r ∈ matchRows, r.selects w = false := fun noRow => matches_no_row_iff.1 noRow i h
  obtain ⟨r, hr, hm, rfl⟩ := decode_eq_ok_iff.1 h
  obtain ⟨hop, -⟩ := (and_mask_eq_pattern_iff r w).1 hm
  have defined : r.opcode ∈ definedOpcodes := hop ▸ opcode_defined_iff.2 ⟨r, hr, hop⟩
  simp only [wordCheck, toNat_ushiftRight_opcode, BitVec.ofNat_toNat, BitVec.setWidth_eq, hop, not_not.2 defined, if_neg row, if_false,
    rd_mask_iff, rs1_mask_iff, rs2_mask_iff, toNat_round_mask, seven_mem_registerFields_iff hr w, namesNoRound_iff hr w,
    usesTables_iff hr w]
  rw [commandCheck_eq, tableCheck_eq]
  by_cases htab : usesTables (r.command w) = true
  · simp only [htab, true_and, if_true]
  · simp only [htab, Bool.false_eq_true, false_and, if_false]

end Sys2Proof.Laws

namespace Sys2Proof.Proofs
open Sys2Proof.Machine Sys2Proof.Claim Sys2Proof.Laws

/-- Settles O36: the decoder makes checks 1 and 2 and the command checks 3 to 6; each failing one is the error recorded. -/
theorem commandChecksInOrder : Obligations.CommandChecksInOrder := by
  intro w s
  have recorded {c : ErrorCode} (run : runCommand w s = .next (s.raiseError c)) : ∃ t, runCommand w s = .next t ∧ t.err = true
      ∧ t.errCode = (if s.err then s.errCode else c) ∧ t = { s with err := t.err, errCode := t.errCode } := ⟨_, run, rfl, rfl, rfl⟩
  rcases runCommand_cases w s with ⟨i, hi, run⟩ | ⟨e, he, run⟩
  · rw [wordCheck_of_ok hi]
    exact ⟨fun c hc => recorded (run.trans (exec_of_failed_check hc)), fun hc => ⟨i, hi, wf_of_commandCheck hc, run⟩⟩
  · rw [wordCheck_of_error he]
    refine ⟨fun c hc => ?_, fun hc => by cases hc⟩
    cases hc
    exact recorded run

end Sys2Proof.Proofs
end

section
/-! PROOFS. The stops of a command (R58, R286): an undefined byte that a command reads lies in RAM and was undefined before the command,
and only KSGEN and BLOCK wait for the hash engine. -/

namespace Sys2Proof.Machine
open Sys2Proof.Claim

/-! ## Reads that stop in RAM -/

/-- Where the reads stop on an undefined byte, it is a byte of RAM that `m` does not define. -/
def StopsInRam {α : Type} (m : Memory) (x : Except Fault α) : Prop :=
  ∀ a, x = .error (.uninitRead a) → ramByte a = true ∧ Memory.get? m a = none

theorem stopsInRam_ok {α : Type} (m : Memory) (y : α) : StopsInRam m (.ok y) := nofun

theorem StopsInRam.bind {α β : Type} {m : Memory} {x : Except Fault α} {k : α → Except Fault β} (hx : StopsInRam m x)
    (hk : ∀ y, x = .ok y → StopsInRam m (k y)) : StopsInRam m (x >>= k) := by
  intro a h
  rcases bind_eq_error.1 h with h | ⟨y, hy, h⟩
  · exact hx a h
  · exact hk y hy a h

/-- A byte that is undefined after a write was undefined before it. -/
theorem StopsInRam.after_write {α : Type} {m m' : Memory} {b : Nat} {bs : List Byte} {x : Except Fault α}
    (write : m' = Memory.setList m b bs) (h : StopsInRam m' x) : StopsInRam m x := by
  intro a ha
  obtain ⟨ram, undefined⟩ := h a ha
  rw [write, Memory.get?_setList] at undefined
  split at undefined
  · have := List.getElem?_eq_none_iff.1 undefined
    omega
  · exact ⟨ram, undefined⟩

theorem stopsInRam_readByte {s : State} {a : Nat} (h : ramByte a = true) : StopsInRam s.mem (s.readByte a) := fun u hu => by
  obtain ⟨undefined, e⟩ := State.readByte_eq_error.1 hu
  cases e
  exact ⟨h, undefined⟩

theorem stopsInRam_readBuffer {s : State} {a n : Nat} (h : ∀ j, j < n → ramByte (a + j) = true) :
    StopsInRam s.mem (s.readBuffer a n) := fun u hu => by
  obtain ⟨v, e, lo, hi, undefined⟩ := State.readBuffer_eq_error hu
  cases e
  refine ⟨?_, undefined⟩
  have ram := h (u - a) (by omega)
  rwa [Nat.add_sub_cancel' lo] at ram

/-! ## The reads of a round: its position is below MAX_SEL and its tables are those of a round below 24 -/

theorem stopsInRam_readSel {s : State} {p : Nat} (hp : p < Config.maxSel) : StopsInRam s.mem (s.readSel p) :=
  (stopsInRam_readByte (ramByte_iff.2 (by simp only [selAddr, selBase]; omega))).bind fun _ _ =>
    (stopsInRam_readByte (ramByte_iff.2 (by simp only [selAddr, selBase]; omega))).bind fun _ _ => stopsInRam_ok _ _

theorem stopsInRam_readRoundKey {s : State} {r : Nat} (hr : r < 24) : StopsInRam s.mem (s.readRoundKey r) :=
  (stopsInRam_readBuffer fun j hj => ramByte_iff.2 (by simp only [rkAddr, rkBase]; omega)).bind fun _ _ => stopsInRam_ok _ _

theorem stopsInRam_readSbox {s : State} {r : Nat} (hr : r < 24) (k : Byte) : StopsInRam s.mem (s.readSbox r k) :=
  stopsInRam_readByte (ramByte_iff.2 (by simp only [sboxAddr, sboxBase]; omega))

theorem stopsInRam_readKc {s : State} {p : Nat} (hp : p < Config.maxSel) : StopsInRam s.mem (s.readKc p) := by
  unfold State.readKc
  split
  · exact (stopsInRam_readByte (ramByte_iff.2 (by simp only [kcAddr, kcBase]; omega))).bind fun _ _ => stopsInRam_ok _ _
  · exact stopsInRam_ok _ _

theorem stopsInRam_selectorStep {s : State} {r p : Nat} (hr : r < 24) (hp : p < Config.maxSel) (c : Cipher) :
    StopsInRam s.mem (selectorStep s r p c) :=
  (stopsInRam_readSel hp).bind fun _ _ => (stopsInRam_readRoundKey hr).bind fun _ _ => (stopsInRam_readKc hp).bind fun _ _ =>
    (stopsInRam_readSbox hr _).bind fun _ _ => (stopsInRam_readSbox hr _).bind fun _ _ => stopsInRam_ok _ _

theorem stopsInRam_selectorsFrom {s : State} {r p n : Nat} (hr : r < 24) (hp : p + n ≤ Config.maxSel) (c : Cipher) :
    StopsInRam s.mem (selectorsFrom s r p n c) := by
  induction n generalizing p c with
  | zero => exact stopsInRam_ok _ c
  | succ n ih => exact (stopsInRam_selectorStep hr (by omega) c).bind fun d _ => ih (by omega) d

theorem stopsInRam_roundOrSkip {s : State} {r : Nat} (hr : r < 24) (hsel : s.selCount.toNat ≤ Config.maxSel) :
    StopsInRam s.mem (roundOrSkip s r) := by
  unfold roundOrSkip
  split
  · exact (stopsInRam_selectorsFrom hr (by omega) _).bind fun c _ => stopsInRam_ok _ _
  · exact stopsInRam_ok _ _

/-- A round leaves RAM and SEL_COUNT to the next one. -/
theorem stopsInRam_roundsFrom {s : State} {r n : Nat} (hn : r + n ≤ 24) (hsel : s.selCount.toNat ≤ Config.maxSel) :
    StopsInRam s.mem (roundsFrom r n s) := by
  induction n generalizing r s with
  | zero => exact stopsInRam_ok _ s
  | succ n ih =>
    refine (stopsInRam_roundOrSkip (by omega) hsel).bind fun t ht => ?_
    obtain ⟨frame, -⟩ := roundOrSkip_frame ht
    have mem : t.mem = s.mem := by rw [frame]
    have sel : t.selCount = s.selCount := by rw [frame]
    exact mem ▸ ih (s := t) (by omega) (sel ▸ hsel)

/-! ## The bodies -/

theorem stopsInRam_loadkmBody (s : State) : StopsInRam s.mem (loadkmBody s) :=
  (stopsInRam_readBuffer fun j hj => ramByte_iff.2 (by simp only [kmBase]; omega)).bind fun _ _ => stopsInRam_ok _ _

theorem stopsInRam_xorksBody (s : State) : StopsInRam s.mem (xorksBody s) :=
  (stopsInRam_readBuffer (ramByte_of_block (by decide))).bind fun _ _ =>
    (stopsInRam_readBuffer (ramByte_of_block (by decide))).bind fun _ _ => stopsInRam_ok _ _

theorem stopsInRam_feedbackBody (s : State) : StopsInRam s.mem (feedbackBody s) :=
  (stopsInRam_readBuffer (ramByte_of_block (by decide))).bind fun _ _ => stopsInRam_ok _ _

/-- KSGEN reads no RAM. -/
theorem stopsInRam_ksgenBody (m : Memory) (s : State) : StopsInRam m (ksgenBody s) := fun a h => by
  obtain ⟨-, e⟩ := ksgenBody_eq_error.1 h
  cases e

theorem ksgenBody_mem {s t : State} (h : ksgenBody s = .ok t) :
    t.mem = Memory.setList s.mem ksBase (Config.xof s.ksMessage 32).toList := by
  simp only [(ksgenBody_eq_ok.1 h).2]

theorem xorksBody_mem {s t : State} (h : xorksBody s = .ok t) :
    ∃ dout : Vector Byte 32, t.mem = Memory.setList s.mem doutBase dout.toList := by
  obtain ⟨din, ks, -, -, rfl⟩ := xorksBody_eq_ok.1 h
  exact ⟨_, State.writeBuffer_mem s _ _⟩

/-- BLOCK's parts read RAM as it was but for the KS and DOUT that BLOCK has written (R236). -/
theorem stopsInRam_blockBody {s : State} (hsel : s.selCount.toNat ≤ Config.maxSel) : StopsInRam s.mem (blockBody s) := by
  refine (stopsInRam_loadkmBody s).bind fun s1 h1 => ?_
  obtain ⟨km, -, rfl⟩ := loadkmBody_eq_ok.1 h1
  refine StopsInRam.bind (stopsInRam_roundsFrom (r := 0) (n := 24) le_rfl hsel) fun s2 h2 => ?_
  obtain ⟨frame, -⟩ := mixBody_frame h2
  have mem : s2.mem = s.mem := by rw [frame]; rfl
  rw [← mem]
  refine (stopsInRam_ksgenBody _ s2).bind fun s3 h3 => ?_
  refine StopsInRam.after_write (ksgenBody_mem h3) <| (stopsInRam_xorksBody s3).bind fun s4 h4 => ?_
  obtain ⟨dout, mem4⟩ := xorksBody_mem h4
  exact StopsInRam.after_write mem4 (stopsInRam_feedbackBody s4)

/-- BLOCK hangs in its KSGEN alone, before which nothing touches the engine. -/
theorem hashAnswers_of_blockBody_hangs {s : State} (h : blockBody s = .error .hashHang) : s.hashAnswers = false := by
  rcases bind_eq_error.1 h with h | ⟨s1, h1, h⟩
  · exact absurd h (noHang_loadkmBody s)
  rcases bind_eq_error.1 h with h | ⟨s2, h2, h⟩
  · exact absurd h (noHang_roundsFrom 0 24 s1)
  rcases bind_eq_error.1 h with h | ⟨s3, -, h⟩
  · have e := (loadkmBody_effect h1).trans (effect_of_cipher_frame (mixBody_frame h2))
    obtain ⟨silent, -⟩ := ksgenBody_eq_error.1 h
    rwa [e.frame] at silent
  · exact absurd h ((noHang_xorksBody s3).bind noHang_feedbackBody)

/-! ## The commands -/

/-- The result is no refusal; a stop is at a byte of RAM that is undefined in `s`, or a hang, for which `hang` holds. -/
structure StopsAsModelled (s : State) (hang : Prop) (r : Result) : Prop where
  /-- No refusal. -/
  meaning : ∀ x, r ≠ .refused x
  /-- An undefined byte. -/
  undefined : ∀ a, r = .fault (.uninitRead a) → ramByte a = true ∧ Memory.get? s.mem a = none
  /-- A hang. -/
  silent : r = .fault .hashHang → hang

section
variable {s : State} {hang : Prop}

theorem stopsAsModelled_next (t : State) : StopsAsModelled s hang (.next t) :=
  ⟨nofun, nofun, nofun⟩

theorem stopsAsModelled_answer {x : Except Fault State} (ram : StopsInRam s.mem x) (silent : x = .error .hashHang → hang) :
    StopsAsModelled s hang (answer x) :=
  ⟨answer_ne_refused x, fun a h => ram a (answer_eq_fault.1 h), fun h => silent (answer_eq_fault.1 h)⟩

theorem stopsAsModelled_reads {x : Except Fault State} (ram : StopsInRam s.mem x) (h : NoHang x) :
    StopsAsModelled s hang (answer x) :=
  stopsAsModelled_answer ram fun e => absurd e h

theorem stopsAsModelled_withReg {r : BitVec 3} {k : Fin 7 → Result} (h : ∀ i, StopsAsModelled s hang (k i)) :
    StopsAsModelled s hang (withReg r s k) := by
  rcases withReg_cases r s k with ⟨i, -, e⟩ | ⟨-, e⟩ <;> rw [e]
  · exact h i
  · exact stopsAsModelled_next _

theorem stopsAsModelled_withRound {r : BitVec 5} {k : Fin 24 → Result} (h : ∀ i, StopsAsModelled s hang (k i)) :
    StopsAsModelled s hang (withRound r s k) := by
  rcases withRound_cases r s k with ⟨hr, e⟩ | ⟨-, e⟩ <;> rw [e]
  · exact h _
  · exact stopsAsModelled_next _

/-- Check 5 keeps every selector position inside SEL and KC. -/
theorem stopsAsModelled_withTables {k : Result} (h : s.selCount.toNat ≤ Config.maxSel → StopsAsModelled s hang k) :
    StopsAsModelled s hang (withTables s k) := by
  rcases withTables_cases s k with ⟨hc, e⟩ | ⟨-, e⟩ | ⟨-, -, e⟩ <;> rw [e]
  · exact h (tableCheck_eq_none.1 hc).1
  · exact stopsAsModelled_next _
  · exact stopsAsModelled_next _

end

/-- The stops of a command: an undefined byte of RAM, or a silent engine under KSGEN or BLOCK. -/
theorem exec_stopsAsModelled (i : Instr) (s : State) :
    StopsAsModelled s (s.hashAnswers = false ∧ (i = .ksgen ∨ i = .block)) (exec i s) := by
  cases i with
  | nop | gfmul => exact stopsAsModelled_next _
  | gfmulb | rotl => exact stopsAsModelled_withReg fun d => stopsAsModelled_withReg fun a => stopsAsModelled_next _
  | xor =>
    exact stopsAsModelled_withReg fun d => stopsAsModelled_withReg fun a => stopsAsModelled_withReg fun b => stopsAsModelled_next _
  | xinj | getq | putq => exact stopsAsModelled_withReg fun d => stopsAsModelled_next _
  | loadkm => exact stopsAsModelled_reads (stopsInRam_loadkmBody s) (noHang_loadkmBody s)
  | round rnd =>
    exact stopsAsModelled_withRound fun r => stopsAsModelled_withTables fun hsel =>
      stopsAsModelled_reads (stopsInRam_roundOrSkip r.isLt hsel) (noHang_roundOrSkip s r.val)
  | mix24 =>
    exact stopsAsModelled_withTables fun hsel =>
      stopsAsModelled_reads (stopsInRam_roundsFrom le_rfl hsel) (noHang_roundsFrom 0 24 s)
  | ksgen =>
    exact stopsAsModelled_answer (stopsInRam_ksgenBody _ s) fun h => ⟨(ksgenBody_eq_error.1 h).1, .inl rfl⟩
  | xorks => exact stopsAsModelled_reads (stopsInRam_xorksBody s) (noHang_xorksBody s)
  | feedback => exact stopsAsModelled_reads (stopsInRam_feedbackBody s) (noHang_feedbackBody s)
  | block =>
    exact stopsAsModelled_withTables fun hsel =>
      stopsAsModelled_answer (stopsInRam_blockBody hsel) fun h => ⟨hashAnswers_of_blockBody_hangs h, .inr rfl⟩

end Sys2Proof.Machine

namespace Sys2Proof.Proofs
open Sys2Proof.Machine Sys2Proof.Claim

/-- Settles O26: KSGEN is its body, whose one request has no answer. -/
theorem silentHashEngineHangs : Obligations.SilentHashEngineHangs := fun _ h =>
  answer_eq_fault.2 (ksgenBody_eq_error.2 ⟨h, rfl⟩)

/-- Settles O39: each command's reads stop in RAM, and only the hash request of KSGEN and BLOCK hangs. -/
theorem commandStopsAreModelFaults : Obligations.CommandStopsAreModelFaults := by
  intro i s
  obtain ⟨meaning, undefined, silent⟩ := exec_stopsAsModelled i s
  exact ⟨meaning, undefined, silent⟩

end Sys2Proof.Proofs
end
